-- ==== Sys2Proof/Word.lean ====
section
/-! DEFINITION. The word types of the BCU, the four channels, and the small value types its operations work on. -/

namespace Sys2Proof

/-- One byte of the block register, and every 8-bit register (10_state.md section 1). -/
abbrev Byte := BitVec 8

/-- A 32-bit word: a command word (R90), a binary32 channel value (R25), `FINFO`, `DIAGCNT`. -/
abbrev Word := BitVec 32

/-- A binary16 bit pattern (R148). -/
abbrev Half := BitVec 16

/-- The block register seen as one 128-bit value, bit `p` being block bit `p` (R9, R21). -/
abbrev Block := BitVec 128

/-- The four channels of a pixel, in the order r, g, b, a (R24). -/
inductive Chan where
  | r
  | g
  | b
  | a
deriving DecidableEq, Repr

/-- One value for each of the channels r, g, b, a (R24). -/
structure Quad (α : Type) where
  r : α
  g : α
  b : α
  a : α
deriving DecidableEq, Repr

/-- The value of one channel. -/
def Quad.get {α : Type} (q : Quad α) : Chan → α
  | .r => q.r
  | .g => q.g
  | .b => q.b
  | .a => q.a

/-- The value with one channel replaced. -/
def Quad.set {α : Type} (q : Quad α) (c : Chan) (v : α) : Quad α :=
  match c with
  | .r => { q with r := v }
  | .g => { q with g := v }
  | .b => { q with b := v }
  | .a => { q with a := v }

/-- The same function on every channel. -/
def Quad.map {α β : Type} (f : α → β) (q : Quad α) : Quad β :=
  ⟨f q.r, f q.g, f q.b, f q.a⟩

/-- One value for each of the components r, g, b: a colour without alpha, and the `IntColor` triple of R26. -/
structure Triple (α : Type) where
  r : α
  g : α
  b : α
deriving DecidableEq, Repr

/-- The same function on every component. -/
def Triple.map {α β : Type} (f : α → β) (t : Triple α) : Triple β :=
  ⟨f t.r, f t.g, f t.b⟩

/-- The same two-argument function on every component. -/
def Triple.map₂ {α β γ : Type} (f : α → β → γ) (s : Triple α) (t : Triple β) : Triple γ :=
  ⟨f s.r t.r, f s.g t.g, f s.b t.b⟩

/-- A pixel of `PIX`: four binary32 words (R25). -/
abbrev Pixel := Quad Word

/-- A colour with alpha as exact rationals (R26, R140). -/
abbrev Rgba := Quad ℚ

/-- A colour without alpha as exact rationals (R26). -/
abbrev Rgb := Triple ℚ

/-- The integer working colour of BC6H (R26). -/
abbrev IntColor := Triple Int

/-- The 8-bit colour of BC7, each component in 0..255 (R26, R145). -/
abbrev LdrColor := Quad Nat

end Sys2Proof
end

