-- ==== Sys2Proof/Syntax.lean ====
section
/-! DEFINITION. The 24 commands of the opcode map (30_encoding.md R94), one constructor per row. -/

namespace Sys2Proof

/-- A command. `n` is the field `N`, `val` the field `VAL`, `v` the bit `VAL[0]`, `dr`, `da`, `ck` the flags (R90, R92, R93). -/
inductive Instr where
  | getbit
  | getbits (n : Nat)
  | setbit (v : Bool)
  | setbits (n : Nat) (val : Byte)
  | decBc1
  | decBc2
  | decBc3
  | decBc4u
  | decBc4s
  | decBc5u
  | decBc5s
  | decBc6hu
  | decBc6hs
  | decBc7
  | encBc1 (dr ck : Bool)
  | encBc2 (dr da : Bool)
  | encBc3 (dr da : Bool)
  | encBc4u
  | encBc4s
  | encBc5u
  | encBc5s
  | encBc6hu
  | encBc6hs
  | encBc7
deriving DecidableEq, Repr

end Sys2Proof
end

