-- ==== Sys2Proof/WellFormed.lean ====
section
/-! DEFINITION. Which commands the encoding can hold (30_encoding.md R90, R92). -/

namespace Sys2Proof

/-- A command is well formed when its bit count fits the 4-bit field `N` (R92: `N` is 0..15); every other operand fits by its type. -/
def Instr.wf : Instr → Bool
  | .getbits n => n < 16
  | .setbits n _ => n < 16
  | .getbit => true
  | .setbit _ => true
  | .decBc1 => true
  | .decBc2 => true
  | .decBc3 => true
  | .decBc4u => true
  | .decBc4s => true
  | .decBc5u => true
  | .decBc5s => true
  | .decBc6hu => true
  | .decBc6hs => true
  | .decBc7 => true
  | .encBc1 _ _ => true
  | .encBc2 _ _ => true
  | .encBc3 _ _ => true
  | .encBc4u => true
  | .encBc4s => true
  | .encBc5u => true
  | .encBc5s => true
  | .encBc6hu => true
  | .encBc6hs => true
  | .encBc7 => true

end Sys2Proof
end

