-- ==== Sys2Proof/Decode.lean ====
section
/-! DEFINITION. The command decoder, total on every 32-bit word, and the encoder (30_encoding.md R90 to R98). -/

namespace Sys2Proof

/-- The field `N`, bits 11:8 of the command word (R90). -/
def fieldN (w : Word) : Nat := (w.extractLsb' 8 4).toNat

/-- The field `VAL`, bits 23:16 of the command word (R90). -/
def fieldVAL (w : Word) : Byte := w.extractLsb' 16 8

/-- `VAL[0]`, bit 16 of the command word (R92). -/
def fieldVAL0 (w : Word) : Bool := w.getLsbD 16

/-- `DR`, bit 24 of the command word (R90). -/
def fieldDR (w : Word) : Bool := w.getLsbD 24

/-- `DA`, bit 25 of the command word (R90). -/
def fieldDA (w : Word) : Bool := w.getLsbD 25

/-- `CK`, bit 26 of the command word (R90). -/
def fieldCK (w : Word) : Bool := w.getLsbD 26

/-- One row of the opcode map: a word `w` selects the row when `w &&& mask = code`, and then stands for `make w` (R94). -/
structure OpRow where
  code : Word
  mask : Word
  make : Word → Instr

/-- The word selects the row (R94). -/
def OpRow.hit (row : OpRow) (w : Word) : Bool := w &&& row.mask == row.code

/-- The BitCursor rows of R94. -/
def cursorRows : List OpRow :=
  [ ⟨0x00000001#32, 0xFFFFFFFF#32, fun _ => .getbit⟩,
    ⟨0x00000002#32, 0xFFFFF0FF#32, fun w => .getbits (fieldN w)⟩,
    ⟨0x00000003#32, 0xFFFEFFFF#32, fun w => .setbit (fieldVAL0 w)⟩,
    ⟨0x00000004#32, 0xFF00F0FF#32, fun w => .setbits (fieldN w) (fieldVAL w)⟩ ]

/-- The decode rows of R94. -/
def decRows : List OpRow :=
  [ ⟨0x00000011#32, 0xFFFFFFFF#32, fun _ => .decBc1⟩,
    ⟨0x00000012#32, 0xFFFFFFFF#32, fun _ => .decBc2⟩,
    ⟨0x00000013#32, 0xFFFFFFFF#32, fun _ => .decBc3⟩,
    ⟨0x00000014#32, 0xFFFFFFFF#32, fun _ => .decBc4u⟩,
    ⟨0x00000015#32, 0xFFFFFFFF#32, fun _ => .decBc4s⟩,
    ⟨0x00000016#32, 0xFFFFFFFF#32, fun _ => .decBc5u⟩,
    ⟨0x00000017#32, 0xFFFFFFFF#32, fun _ => .decBc5s⟩,
    ⟨0x00000018#32, 0xFFFFFFFF#32, fun _ => .decBc6hu⟩,
    ⟨0x00000019#32, 0xFFFFFFFF#32, fun _ => .decBc6hs⟩,
    ⟨0x0000001A#32, 0xFFFFFFFF#32, fun _ => .decBc7⟩ ]

/-- The encode rows of R94. -/
def encRows : List OpRow :=
  [ ⟨0x00000021#32, 0xFAFFFFFF#32, fun w => .encBc1 (fieldDR w) (fieldCK w)⟩,
    ⟨0x00000022#32, 0xFCFFFFFF#32, fun w => .encBc2 (fieldDR w) (fieldDA w)⟩,
    ⟨0x00000023#32, 0xFCFFFFFF#32, fun w => .encBc3 (fieldDR w) (fieldDA w)⟩,
    ⟨0x00000024#32, 0xFFFFFFFF#32, fun _ => .encBc4u⟩,
    ⟨0x00000025#32, 0xFFFFFFFF#32, fun _ => .encBc4s⟩,
    ⟨0x00000026#32, 0xFFFFFFFF#32, fun _ => .encBc5u⟩,
    ⟨0x00000027#32, 0xFFFFFFFF#32, fun _ => .encBc5s⟩,
    ⟨0x00000028#32, 0xFFFFFFFF#32, fun _ => .encBc6hu⟩,
    ⟨0x00000029#32, 0xFFFFFFFF#32, fun _ => .encBc6hs⟩,
    ⟨0x0000002A#32, 0xFFFFFFFF#32, fun _ => .encBc7⟩ ]

/-- The whole opcode map, in the order of R94. -/
def opRows : List OpRow := cursorRows ++ decRows ++ encRows

/-- The decoder: the command of the one row the word selects; a word that selects no row is illegal (R91, R95) and gives `none`. -/
def decode (w : Word) : Option Instr := (opRows.find? (·.hit w)).map (·.make w)

/-- A flag at its place in the command word. -/
def flagAt (v : Bool) (k : Nat) : Word := (BitVec.setWidth 32 (BitVec.ofBool v)) <<< k

/-- The command word of a well-formed command, as R98 writes it. -/
def encode : Instr → Word
  | .getbit => 0x00000001#32
  | .getbits n => 0x00000002#32 ||| BitVec.ofNat 32 (n % 16) <<< 8
  | .setbit v => 0x00000003#32 ||| flagAt v 16
  | .setbits n val => 0x00000004#32 ||| BitVec.ofNat 32 (n % 16) <<< 8 ||| val.setWidth 32 <<< 16
  | .decBc1 => 0x00000011#32
  | .decBc2 => 0x00000012#32
  | .decBc3 => 0x00000013#32
  | .decBc4u => 0x00000014#32
  | .decBc4s => 0x00000015#32
  | .decBc5u => 0x00000016#32
  | .decBc5s => 0x00000017#32
  | .decBc6hu => 0x00000018#32
  | .decBc6hs => 0x00000019#32
  | .decBc7 => 0x0000001A#32
  | .encBc1 dr ck => 0x00000021#32 ||| flagAt dr 24 ||| flagAt ck 26
  | .encBc2 dr da => 0x00000022#32 ||| flagAt dr 24 ||| flagAt da 25
  | .encBc3 dr da => 0x00000023#32 ||| flagAt dr 24 ||| flagAt da 25
  | .encBc4u => 0x00000024#32
  | .encBc4s => 0x00000025#32
  | .encBc5u => 0x00000026#32
  | .encBc5s => 0x00000027#32
  | .encBc6hu => 0x00000028#32
  | .encBc6hs => 0x00000029#32
  | .encBc7 => 0x0000002A#32

/-- The command word that the low `nbits` bits of `w` make, every bit above them 0; a command is one 32-bit word (R90). -/
def tableWord (nbits w : Nat) : Word := BitVec.ofNat 32 (w % 2 ^ nbits)

/-- What the decoder reads from an opcode-table word; `none` also where bits above bit 31 are set, since no command is longer (R90). -/
def decodeTableWord (nbits w : Nat) : Option Instr :=
  if w % 2 ^ nbits < 2 ^ 32 then decode (tableWord nbits w) else none

end Sys2Proof
end

