-- ==== Sys2Proof/Config.lean ====
section
/-! DEFINITION. The configuration record of 00_scope.md R8 and R12: one field for each parameter that the source leaves open, and the two search functions that the spec leaves free within a contract. -/

namespace Sys2Proof

/-- The ten format variants, one per decode and encode operation (R2). -/
inductive Format where
  | bc1
  | bc2
  | bc3
  | bc4u
  | bc4s
  | bc5u
  | bc5s
  | bc6hu
  | bc6hs
  | bc7
deriving DecidableEq, Repr

/-- A binary floating-point interchange format: a sign bit above `expBits` exponent bits above `fracBits` fraction bits. Any pair of widths is admitted, and bits past the 32 of an element read as 0 (DESIGN CHOICE, log 5). -/
structure ChanFmt where
  expBits : Nat
  fracBits : Nat
deriving DecidableEq, Repr

/-- The configuration (R8, R12). Every operation that depends on a parameter takes it as an argument, and so do `Sys2Proof.Machine.execIn` and `Sys2Proof.Machine.stepIn`; `Sys2Proof.Machine.config` holds the defaults of R8. -/
structure Config where
  /-- `BLOCK_BYTES(fmt)`: the bytes of `BLK` a format uses, at most the 16 there are; what other values than the defaults of R8 do is the model's (DESIGN CHOICE, log 16). -/
  blockBytes : Format → Fin 17
  /-- `CHAN_FMT`: the representation of a channel of `PIX`, in the low bits of its 32-bit element (R25). -/
  chanFmt : ChanFmt
  /-- `RN32`: the rounding of an exact rational to `CHAN_FMT` (R12, R141). -/
  rn32 : ℚ → Word
  /-- `F32toF16`: the half-precision conversion (R12, R401). -/
  f32toF16 : Word → Half
  /-- `EPS_SINGLE` (R162). Any rational is admitted; at 0 or below a zero diagonal reaches the division of R163, which the model takes to give 0 (DESIGN CHOICE, log 7). -/
  epsSingle : ℚ
  /-- `EPS_TWO` (R164). -/
  epsTwo : ℚ
  /-- `EPS_GRAD` (R166). -/
  epsGrad : ℚ
  /-- `MAX_ITER` (R165, R172). R7 says at most 8 iterations, R8 makes the bound an open parameter with default 8; any natural number is admitted, so `execIn` and `stepIn` may run more than 8 (DESIGN CHOICE, log 7). -/
  maxIter : Nat
  /-- `ALPHA_EPS_RANGE` (R172). Any rational is admitted; at 0 or below equal endpoints reach the division of R172, which the model takes to give 0 (DESIGN CHOICE, log 7). -/
  alphaEpsRange : ℚ
  /-- `ALPHA_EPS_GRAD` (R172). -/
  alphaEpsGrad : ℚ
  /-- `WEIGHTS`: the channel weights of the colour encoder of BC1, BC2 and BC3 (R167). Any rationals are admitted, also 0 and negative ones; what they do is the model's (DESIGN CHOICE, log 11). -/
  weights : Rgb
  /-- `Enc6H` (R12, R423): the candidates a BC6H encode search examines for a tile and a signed flag, as blocks, in the order it examines them; contract R423 is applied to them in Machine/Bc6hEnc.lean. -/
  search6H : List IntColor → Bool → List Block
  /-- `Enc7` (R12, R462): the candidates a BC7 encode search examines for a tile, as blocks, in the order it examines them; contract R462 is applied to them in Machine/Bc7Enc.lean. -/
  search7 : List LdrColor → List Block
  /-- `NUNITS`: the number of independent units (R79, R514; Machine/Units.lean). 0 is admitted and is an array that has no unit and no step (DESIGN CHOICE, log 12). -/
  nUnits : Nat

/-- Free function: the candidates a BC6H encode search examines. Nothing is known of it; R423 bounds only what is made of it (DESIGN CHOICE, log 8). -/
opaque Config.freeSearch6H : List IntColor → Bool → List Block

/-- Free function: the candidates a BC7 encode search examines. Nothing is known of it; R462 bounds only what is made of it (DESIGN CHOICE, log 9). -/
opaque Config.freeSearch7 : List LdrColor → List Block

end Sys2Proof
end

