-- ==== Sys2Proof/Machine/State.lean ====
section
/-! DEFINITION. The state of the BCU (10_state.md section 1), the host's actions (70_reset_and_hazards.md R543, R546), and the reasons a step can stop. -/

namespace Sys2Proof.Machine

/-- The byte-addressed space: `BLK`, addresses 0 to 15 (20_memory.md R60), as address and byte pairs in canonical form (see `Memory.wf`); an address not listed reads as 0x00, the reset contents of R35 (log 10). -/
abbrev Memory := List Host.Cell

/-- The canonical form: addresses strictly rising and within 0..15, no entry equal to what an unlisted address reads as. -/
abbrev Memory.wf (m : Memory) : Prop :=
  m.Pairwise (fun x y => x.1 < y.1) ∧ ∀ c ∈ m, c.1 < 16 ∧ c.2 ≠ 0#8

/-- The register elements the host reads whole (R546). -/
inductive RegName where
  | blk (k : Nat)
  | cur
  | pix (i : Fin 16) (c : Chan)
  | athr
  | res
  | status
  | fcause
  | finfo
  | diagcode
  | diagcnt
deriving DecidableEq, Repr

/-- A value the host reads: an 8-bit or a 32-bit register element (R546). -/
inductive RegVal where
  | byte (v : Byte)
  | word (v : Word)
deriving DecidableEq, Repr

/-- One action of the host (R543): reset, a register write (only `BLK`, `CUR`, `PIX`, `ATHR` can be written, R546), a register read, or a command word. -/
inductive HostAction where
  | reset
  | wrBlk (k : Nat) (v : Byte)
  | wrCur (v : Byte)
  | wrPix (i : Fin 16) (c : Chan) (v : Word)
  | wrAthr (v : Word)
  | rd (reg : RegName)
  | command (w : Word)
deriving DecidableEq, Repr

/-- The reasons an outcome `fault` could name. There is none: every fault of the BCU is a state the host can read (60_exceptions.md R502, R505), so a command that faults gives a next state. -/
inductive Fault where
deriving DecidableEq, Repr

/-- The reasons an outcome `refused` names. -/
inductive Refusal where
  /-- Raised by the dispatch for a command that has no meaning yet; safe, since nothing is claimed of such a run. No arm raises it now. -/
  | notModelled (mnemonic : String)
  /-- Raised by a host access to a `BLK` address outside 0..15, which does not exist and which the model refuses (20_memory.md R69); safe. -/
  | noBlkAddress (k : Nat)
deriving DecidableEq, Repr

/-- The BCU and its pending input. The first ten fields are the registers of 10_state.md section 1; `queue` and `hostRd` are the model's own (logs 1, 2). -/
structure State where
  /-- `BLK`, the block register (R21). -/
  blk : Memory
  /-- `CUR`, the BitCursor's bit offset (R22). -/
  cur : Byte
  /-- `PIX`, the tile, row-major (R24, R25). -/
  pix : Vector Pixel 16
  /-- `ATHR`, the colour-key alpha threshold (R27). -/
  athr : Word
  /-- `RES`, the result of the last GETBIT or GETBITS (R23). -/
  res : Byte
  /-- `STATUS`: bit 0 `FAULT`, bit 1 `DIAG` (R28). -/
  status : Byte
  /-- `FCAUSE`, the cause of the recorded fault (R30). -/
  fcause : Byte
  /-- `FINFO`, the command word that faulted (R30). -/
  finfo : Word
  /-- `DIAGCODE`, the code of the last diagnostic (R29). -/
  diagcode : Byte
  /-- `DIAGCNT`, the number of diagnostics since reset, saturating (R29). -/
  diagcnt : Word
  /-- The host's pending actions, oldest first (the model's own, log 1). -/
  queue : List HostAction
  /-- The value the host's last register read returned (the model's own, log 2). -/
  hostRd : Option RegVal
deriving DecidableEq, Repr

/-- A pixel whose four channels are +0.0. -/
def zeroPixel : Pixel := ⟨0#32, 0#32, 0#32, 0#32⟩

/-- The machine right after reset: every register zero (R35, R540), nothing pending and nothing read (DESIGN CHOICE, logs 1, 2). -/
def State.reset : State :=
  { blk := []
    cur := 0#8
    pix := Vector.replicate 16 zeroPixel
    athr := 0#32
    res := 0#8
    status := 0#8
    fcause := 0#8
    finfo := 0#32
    diagcode := 0#8
    diagcnt := 0#32
    queue := []
    hostRd := none }

end Sys2Proof.Machine
end

