-- ==== Sys2Proof/Machine/Flags.lean ====
section
/-! DEFINITION. The flags: `STATUS` and the diagnostic counter (10_state.md R28, R29). There are no condition codes (R28). -/

namespace Sys2Proof.Machine

/-- `STATUS.FAULT`, bit 0 (R28). -/
def State.faulted (s : State) : Bool := s.status.getLsbD 0

/-- `STATUS.DIAG`, bit 1 (R28). -/
def State.diagged (s : State) : Bool := s.status.getLsbD 1

/-- `STATUS` with `FAULT` set, every other bit kept (R28, R502). -/
def withFault (status : Byte) : Byte := status ||| 1#8

/-- `STATUS` with `DIAG` set, every other bit kept (R28, R507). -/
def withDiag (status : Byte) : Byte := status ||| 2#8

/-- `DIAGCNT` counted up once, saturating at `2^32 - 1` (R29, R507). -/
def countUp (cnt : Word) : Word := if cnt = 0xFFFFFFFF#32 then cnt else cnt + 1#32

end Sys2Proof.Machine
end

