-- ==== Sys2Proof/Machine/Float.lean ====
section
/-! DEFINITION. Numbers: the roundings of 00_scope.md R10 and 44_bc45.md R290, the values of binary floating-point patterns, and the default conversions of R8. -/

namespace Sys2Proof.Machine

/-- `rhu`: round half up (R10). -/
def rhu (q : ℚ) : Int := (q + 1 / 2).floor

/-- `rha`: round half away from zero (R290). -/
def rha (q : ℚ) : Int := if 0 ≤ q then (q + 1 / 2).floor else -((-q + 1 / 2).floor)

/-- `clamp` on rationals (R10). -/
def clampQ (x lo hi : ℚ) : ℚ := min (max x lo) hi

/-- `clamp` on integers (R10). -/
def clampZ (x lo hi : Int) : Int := min (max x lo) hi

/-- `2^k` for an integer exponent. -/
def pow2 (k : Int) : ℚ := if 0 ≤ k then ((2 ^ k.toNat : Nat) : ℚ) else 1 / ((2 ^ (-k).toNat : Nat) : ℚ)

/-- `n / d` rounded to the nearest integer, ties to even. -/
def divNearestEven (n d : Nat) : Nat :=
  if 2 * (n % d) < d then n / d
  else if d < 2 * (n % d) then n / d + 1
  else n / d + (n / d) % 2

/-- `floor(log2(n / d))` for positive `n` and `d`. -/
def floorLog2 (n d : Nat) : Int :=
  let k : Int := (Nat.log2 n : Int) - (Nat.log2 d : Int)
  if d * 2 ^ k.toNat ≤ n * 2 ^ (-k).toNat then k else k - 1

/-- The magnitude bits of the IEEE 754 binary format with `p` significand bits and least exponent `emin` that is nearest to `n / d > 0`, ties to even; the caller caps them at the pattern of infinity. -/
def roundMagnitude (p : Nat) (emin : Int) (n d : Nat) : Nat :=
  let e := max (floorLog2 n d - (p - 1 : Nat)) emin
  (e - emin).toNat * 2 ^ (p - 1) + divNearestEven (n * 2 ^ (-e).toNat) (d * 2 ^ e.toNat)

/-- The default `RN32` of R8: round to nearest, ties to even (log 5). Overflow gives an infinity, and a negative number that rounds to zero gives -0.0 (DESIGN CHOICE, log 13). -/
def rn32Default (q : ℚ) : Word :=
  if q = 0 then 0#32
  else
    let mag := min (roundMagnitude 24 (-149) q.num.natAbs q.den) 0x7F800000
    BitVec.ofNat 32 (if q < 0 then 0x80000000 + mag else mag)

/-- IEEE 754 binary32, the default `CHAN_FMT` (R8, R25). -/
def binary32 : ChanFmt := ⟨8, 23⟩

/-- A channel pattern is finite: its exponent field is not all ones (R140). -/
def isFiniteIn (fmt : ChanFmt) (w : Word) : Bool := w.extractLsb' fmt.fracBits fmt.expBits != BitVec.allOnes fmt.expBits

/-- The exponent of the last place of the least numbers of a format: -149 for binary32. -/
def leastExp (fmt : ChanFmt) : Int := 2 - 2 ^ (fmt.expBits - 1) - fmt.fracBits

/-- `val`: the exact value of a finite pattern of `CHAN_FMT` (R11, R140); -0.0 reads as 0. A non-finite pattern has no value, and the function answers the number its fields give (DESIGN CHOICE, log 14). -/
def valIn (fmt : ChanFmt) (w : Word) : ℚ :=
  let e := (w.extractLsb' fmt.fracBits fmt.expBits).toNat
  let m := (w.extractLsb' 0 fmt.fracBits).toNat
  let mag :=
    if e = 0 then (m : ℚ) * pow2 (leastExp fmt)
    else ((2 ^ fmt.fracBits + m : Nat) : ℚ) * pow2 ((e : Int) - 1 + leastExp fmt)
  if w.getLsbD (fmt.expBits + fmt.fracBits) then -mag else mag

/-- A binary32 pattern is finite. -/
def isFinite32 (w : Word) : Bool := isFiniteIn binary32 w

/-- The exact value of a finite binary32 pattern (R11, R140). -/
def val (w : Word) : ℚ := valIn binary32 w

/-- The default `F32toF16` of R8 and D25: IEEE binary32 to binary16, ties to even, overflow to infinity (log 6). -/
def f32toF16Default (w : Word) : Half :=
  let sign : Nat := if w.getLsbD 31 then 0x8000 else 0
  let m := (w.extractLsb' 0 23).toNat
  let mag : Nat :=
    if isFinite32 w then
      let q := |val w|
      if q = 0 then 0 else min (roundMagnitude 11 (-24) q.num.natAbs q.den) 0x7C00
    else if m = 0 then 0x7C00 else 0x7E00
  BitVec.ofNat 16 (sign + mag)

/-- `HalfVal`: the value of a finite binary16 pattern (R148). A pattern with exponent field 31 has no value; the function answers `(1024 + m)·2^6` with its sign, and no command asks for it, since `halfToChan` takes that exponent apart first (DESIGN CHOICE, log 14). -/
def halfVal (h : Half) : ℚ :=
  let e := (h.extractLsb' 10 5).toNat
  let m := (h.extractLsb' 0 10).toNat
  let mag := if e = 0 then (m : ℚ) * pow2 (-24) else ((1024 + m : Nat) : ℚ) * pow2 ((e : Int) - 25)
  if h.getLsbD 15 then -mag else mag

end Sys2Proof.Machine
end

