-- ==== Sys2Proof/Machine/Ops.lean ====
section
/-! DEFINITION. The named operations over the block register, the pixel register and the status registers; taking a fault and reporting a diagnostic (60_exceptions.md R502, R507); the default configuration. -/

namespace Sys2Proof.Machine

/-- The defaults of R8 (logs 5, 6, 7, 11, 12, 16), and the free searches where it gives none (logs 8, 9). `exec` and `step` are the machine at this configuration; `execIn` and `stepIn` are the machine at any other. -/
def config : Config :=
  { blockBytes := fun fmt => match fmt with
      | .bc1 | .bc4u | .bc4s => 8
      | .bc2 | .bc3 | .bc5u | .bc5s | .bc6hu | .bc6hs | .bc7 => 16
    chanFmt := binary32
    rn32 := rn32Default
    f32toF16 := f32toF16Default
    epsSingle := 1 / 2 ^ 126
    epsTwo := 1 / 4096
    epsGrad := 1 / 256
    maxIter := 8
    alphaEpsRange := 1 / 256
    alphaEpsGrad := 1 / 64
    weights := ⟨1, 1, 1⟩
    search6H := Config.freeSearch6H
    search7 := Config.freeSearch7
    nUnits := 1 }

/-! ### The block register, byte by byte -/

/-- `BLK[k]` (R11); an address not listed reads as 0x00 (log 10). -/
def Memory.read : Memory → Nat → Byte
  | [], _ => 0#8
  | c :: rest, k => if c.1 = k then c.2 else Memory.read rest k

/-- `BLK[k] <- v` (R11), keeping the canonical form: writing 0x00 removes the entry. -/
def Memory.write : Memory → Nat → Byte → Memory
  | [], k, v => if v = 0#8 then [] else [(k, v)]
  | c :: rest, k, v =>
    if k < c.1 then (if v = 0#8 then c :: rest else (k, v) :: c :: rest)
    else if k = c.1 then (if v = 0#8 then rest else (k, v) :: rest)
    else c :: Memory.write rest k v

/-- Bytes `k .. k+n-1` get the `n` low bytes of `v`, the least significant at `k` (R66). -/
def Memory.writeBytes (m : Memory) (k : Nat) : Nat → Nat → Memory
  | 0, _ => m
  | n + 1, v => Memory.writeBytes (m.write k (BitVec.ofNat 8 v)) (k + 1) n (v / 256)

/-- The number whose little-endian bytes are `BLK[k .. k+n-1]` (R66). -/
def Memory.readBytes (m : Memory) (k : Nat) : Nat → Nat
  | 0 => 0
  | n + 1 => (m.read k).toNat + 256 * Memory.readBytes m (k + 1) n

/-- Block bit `p` gets `v`: bit `p mod 8` of `BLK[p div 8]` is cleared, then `v` is ORed in (R122); no other bit changes. -/
def Memory.setBit (m : Memory) (p : Nat) (v : Bool) : Memory :=
  let mask : Byte := 1#8 <<< (p % 8)
  m.write (p / 8) ((m.read (p / 8) &&& ~~~mask) ||| (if v then mask else 0#8))

/-- Block bits `p .. p+n-1` get the `n` low bits of `v`, the least significant at `p` (R123). -/
def Memory.setBits (m : Memory) (p : Nat) : Nat → Nat → Memory
  | 0, _ => m
  | n + 1, v => Memory.setBits (m.setBit p (v % 2 == 1)) (p + 1) n (v / 2)

/-- `BLK` as one 128-bit value (R21). -/
def State.block (s : State) : Block := BitVec.ofNat 128 (s.blk.readBytes 0 16)

/-- `BLK[k .. k+n-1]` get the `n` low bytes of `v`. -/
def State.setBytes (s : State) (k n v : Nat) : State := { s with blk := s.blk.writeBytes k n v }

/-- The block a decoder of `fmt` reads: the bytes of `BLK` its format uses (R8, R21). Every other bit reads as 0, which no decoder reads at the default sizes; at other sizes the spec is silent (DESIGN CHOICE, log 16). -/
def State.formatBlock (s : State) (cfg : Config) (fmt : Format) : Block :=
  BitVec.ofNat 128 (s.blk.readBytes 0 (cfg.blockBytes fmt).val)

/-- The block an encoder of `fmt` writes: the bytes of `BLK` its format uses get the low bytes of `v`, every other byte is unchanged (R8, R21, R548). At the default sizes that is the encoder's whole result; at other sizes, where the spec is silent, what does not fit is dropped and bytes past the result get 0 (DESIGN CHOICE, log 16). -/
def State.writeFormat (s : State) (cfg : Config) (fmt : Format) (v : Nat) : State := s.setBytes 0 (cfg.blockBytes fmt).val v

/-! ### The pixel register -/

/-- All sixty-four channels of `PIX` get the words of `f i` for pixel `i` (R70, R548). -/
def State.setTile (s : State) (f : Nat → Pixel) : State := { s with pix := Vector.ofFn fun i : Fin 16 => f i.val }

/-- The pixels of `PIX` in raster order (R24). -/
def State.tile (s : State) : List Pixel := s.pix.toList

/-! ### Faults and diagnostics -/

/-- The fault causes of R503. -/
inductive Cause where
  | cursorOverrun
  | badWidth
  | illegalCmd
  | tableRange
  | nonfiniteInput
deriving DecidableEq, Repr

/-- The cause codes of R503. -/
def causeCode : Cause → Byte
  | .cursorOverrun => 1#8
  | .badWidth => 2#8
  | .illegalCmd => 3#8
  | .tableRange => 4#8
  | .nonfiniteInput => 5#8

/-- `raise CAUSE(cmd)`, fault entry: `STATUS.FAULT`, `FCAUSE` and `FINFO` are written and nothing else changes (R502). -/
def State.raise (s : State) (c : Cause) (cmd : Word) : State :=
  { s with status := withFault s.status, fcause := causeCode c, finfo := cmd }

/-- The one diagnostic code, `BC6H_RESERVED_MODE` (R507). -/
def bc6hReservedMode : Byte := 1#8

/-- `diag(code)`: `STATUS.DIAG` set, `DIAGCODE` written, `DIAGCNT` counts up and saturates (R507). -/
def State.diag (s : State) (code : Byte) : State :=
  { s with
    status := withDiag s.status
    diagcode := code
    diagcnt := countUp s.diagcnt }

/-! ### Host register access -/

/-- Reset: every register takes its reset value (R540); what the host will do next and what it last read are not the unit's. -/
def State.doReset (s : State) : State := { State.reset with queue := s.queue, hostRd := s.hostRd }

/-- The value a host read of a register element returns (R546); `none` for a `BLK` address that does not exist (R69). -/
def State.readReg (s : State) : RegName → Option RegVal
  | .blk k => if k < 16 then some (.byte (s.blk.read k)) else none
  | .cur => some (.byte s.cur)
  | .pix i c => some (.word ((s.pix[i.val]).get c))
  | .athr => some (.word s.athr)
  | .res => some (.byte s.res)
  | .status => some (.byte s.status)
  | .fcause => some (.byte s.fcause)
  | .finfo => some (.word s.finfo)
  | .diagcode => some (.byte s.diagcode)
  | .diagcnt => some (.word s.diagcnt)

/-- A host write of one channel of one pixel replaces that channel and nothing else (R546). -/
def State.setPix (s : State) (i : Fin 16) (c : Chan) (v : Word) : State :=
  { s with pix := s.pix.set i.val ((s.pix[i.val]).set c v) }

end Sys2Proof.Machine
end

