-- ==== Sys2Proof/Machine/Operands.lean ====
section
/-! DEFINITION. The operand forms: the bits and fields of the block register (00_scope.md R11), a pixel channel read by an encoder (41_color_axis.md R140) and written by a decoder (R141), and which inputs are finite. Every operand of a command is one of these or an immediate field of the command word (10_state.md R20). -/

namespace Sys2Proof.Machine

/-! ### Block bits -/

/-- `bit(p)` (R11). -/
def bit (b : Block) (p : Nat) : Nat := if b.getLsbD p then 1 else 0

/-- `fld(p, n) = Σ_{i<n} bit(p+i)·2^i` (R11). -/
def fld (b : Block) (p n : Nat) : Nat := (b.toNat >>> p) % 2 ^ n

/-- The number that a list of (value, width) fields makes when the fields follow one another from bit 0 up, each LSB first (R65). -/
def packFields : List (Nat × Nat) → Nat
  | [] => 0
  | f :: rest => f.1 % 2 ^ f.2 + 2 ^ f.2 * packFields rest

/-! ### Pixel channels -/

/-- `PIX[i].c <- q`: `RN32(q)`, and `q = 0` stores +0.0 (R141). -/
def toChan (cfg : Config) (q : ℚ) : Word := if q = 0 then 0#32 else cfg.rn32 q

/-- The four channel words of a colour (R141). -/
def toPixel (cfg : Config) (q : Rgba) : Pixel := q.map (toChan cfg)

/-- The channel word with the value of a half (R343): sign and exponent kept for the patterns that have no value or are zero, else `RN32` of the value, which is exact in binary32. -/
def halfToChan (cfg : Config) (h : Half) : Word :=
  let f := cfg.chanFmt
  let e := (h.extractLsb' 10 5).toNat
  let m := (h.extractLsb' 0 10).toNat
  let sign : Nat := if h.getLsbD 15 then 2 ^ (f.expBits + f.fracBits) else 0
  if e = 31 then BitVec.ofNat 32 (sign + (2 ^ f.expBits - 1) * 2 ^ f.fracBits + m * 2 ^ f.fracBits / 2 ^ 10)
  else if e = 0 ∧ m = 0 then BitVec.ofNat 32 sign
  else cfg.rn32 (halfVal h)

/-- `in(i)` for every pixel: the exact values of its channels (R140). -/
def State.colours (s : State) (cfg : Config) : List Rgba := s.tile.map (·.map (valIn cfg.chanFmt))

/-- The named channels of every pixel are finite (R140, R503). -/
def State.finiteChans (s : State) (cfg : Config) (cs : List Chan) : Bool :=
  s.tile.all fun px => cs.all fun c => isFiniteIn cfg.chanFmt (px.get c)

/-- The r, g, b part of a colour. -/
def rgbOf {α : Type} (q : Quad α) : Triple α := ⟨q.r, q.g, q.b⟩

end Sys2Proof.Machine
end

