-- ==== Sys2Proof/Machine/ColorAxis.lean ====
section
/-! DEFINITION. The colour models, dithering and the axis optimizer (41_color_axis.md): shared functions of the codec families, all in exact rationals (00_scope.md R10). -/

namespace Sys2Proof.Machine

/-! ### Colours as vectors -/

/-- The vector operations a dithering pass needs, so that one pass serves scalars and RGB triples (R151). -/
structure VecOps (α : Type) where
  zero : α
  add : α → α → α
  sub : α → α → α
  scale : ℚ → α → α

/-- Scalars. -/
def scalarOps : VecOps ℚ := ⟨0, (· + ·), (· - ·), (· * ·)⟩

/-- RGB triples, component by component. -/
def rgbOps : VecOps Rgb :=
  ⟨⟨0, 0, 0⟩, Triple.map₂ (· + ·), Triple.map₂ (· - ·), fun k => Triple.map (k * ·)⟩

/-- The 3-component dot product (R165). -/
def dot3 (u v : Rgb) : ℚ := u.r * v.r + u.g * v.g + u.b * v.b

/-- `Lerp(p, q, t) = p + (q - p)·t` (R144). -/
def lerp (p q : Rgb) (t : ℚ) : Rgb := rgbOps.add p (rgbOps.scale t (rgbOps.sub q p))

/-! ### RGB565 and 8-bit colours -/

/-- `Dec565` (R142). -/
def dec565 (w : Nat) : Rgb := ⟨(w / 2048 % 32 : Nat) / 31, (w / 32 % 64 : Nat) / 63, (w % 32 : Nat) / 31⟩

/-- `Enc565` (R143). -/
def enc565 (c : Rgb) : Nat :=
  (rhu (clampQ c.r 0 1 * 31)).toNat * 2048 + (rhu (clampQ c.g 0 1 * 63)).toNat * 32
    + (rhu (clampQ c.b 0 1 * 31)).toNat

/-- `LdrToReal` (R145). -/
def ldrToReal (u : Nat) : ℚ := (u : ℚ) / 255

/-- `RealToLdr` (R145). -/
def realToLdr (x : ℚ) : Nat := (rhu (clampQ x 0 1 * 255)).toNat

/-! ### Floyd–Steinberg dithering inside a tile -/

/-- The error buffer with `d` added at pixel `j`. -/
def addError {α : Type} (V : VecOps α) (E : List α) (j : Nat) (d : α) : List α := E.set j (V.add (E.getD j V.zero) d)

/-- `Diffuse(E, i, d)`: the residual of pixel `i` goes to its right, below-left, below and below-right neighbours; a share that leaves the tile is discarded (R150). -/
def diffuse {α : Type} (V : VecOps α) (E : List α) (i : Nat) (d : α) : List α :=
  let x := i % 4
  let E := if x ≠ 3 then addError V E (i + 1) (V.scale (7 / 16) d) else E
  let E := if i < 12 ∧ x ≠ 0 then addError V E (i + 3) (V.scale (3 / 16) d) else E
  let E := if i < 12 then addError V E (i + 4) (V.scale (5 / 16) d) else E
  if i < 12 ∧ x ≠ 3 then addError V E (i + 5) (V.scale (1 / 16) d) else E

/-- The pixels still to come of a pass, from pixel `i` on, with error buffer `E` (R151). `Q i v` is the quantised result and the value it stands for; no value means that the pixel takes no part in the diffusion (the transparent pixels of R227). -/
def passFrom {α β : Type} (V : VecOps α) (dither : Bool) (Q : Nat → α → β × Option α) : Nat → List α → List α → List β
  | _, _, [] => []
  | i, E, p :: rest =>
    let v := if dither then V.add p (E.getD i V.zero) else p
    let q := Q i v
    let E' := match q.2 with
      | some w => if dither then diffuse V E i (V.sub v w) else E
      | none => E
    q.1 :: passFrom V dither Q (i + 1) E' rest

/-- A dithered quantisation pass over the 16 values of a tile, from a zeroed error buffer (R151, R152). -/
def pass {α β : Type} (V : VecOps α) (dither : Bool) (Q : Nat → α → β × Option α) (input : List α) : List β :=
  passFrom V dither Q 0 (List.replicate 16 V.zero) input

/-! ### The axis optimizer, three dimensions (R160 to R167) -/

/-- `C[k] = (steps-1-k)/(steps-1)` (R160). -/
def coefC (steps k : Nat) : ℚ := ((steps - 1 - k : Nat) : ℚ) / ((steps - 1 : Nat) : ℚ)

/-- `D[k] = k/(steps-1)` (R160). -/
def coefD (steps k : Nat) : ℚ := (k : ℚ) / ((steps - 1 : Nat) : ℚ)

/-- The axis position nearest to `dot`: 0 at or below 0, `steps-1` at or above it, else `floor(dot + 1/2)` (R165, R227). -/
def axisPos (steps : Nat) (dot : ℚ) : Nat :=
  if dot ≤ 0 then 0 else if (steps - 1 : Nat) ≤ dot then steps - 1 else (dot + 1 / 2).floor.toNat

/-- The lower bounding corner, capped at `cap`, the colour (1,1,1) of the space the points lie in (R161). -/
def cornerMin (cap : Rgb) (P : List Rgb) : Rgb := P.foldl (Triple.map₂ min) cap

/-- The upper bounding corner, at least 0 (R161). -/
def cornerMax (P : List Rgb) : Rgb := P.foldl (Triple.map₂ max) ⟨0, 0, 0⟩

/-- The variance captured by each of the four sign patterns (+,+,+), (+,+,-), (+,-,+), (+,-,-) (R163). The spec gives `AB / fAB` no value at `fAB = 0`, which only an `EPS_SINGLE` of 0 or less lets reach this point; the model takes it as 0, so all four scores are 0 and nothing is swapped (DESIGN CHOICE, log 7; not reached at the default). -/
def axisScores (P : List Rgb) (X Y : Rgb) : List ℚ :=
  let AB := rgbOps.sub Y X
  let dir := rgbOps.scale (1 / dot3 AB AB) AB
  let mid := rgbOps.scale (1 / 2) (rgbOps.add X Y)
  let signs : List (ℚ × ℚ) := [(1, 1), (1, -1), (-1, 1), (-1, -1)]
  signs.map fun sg =>
    P.foldl (fun acc p =>
      let pr := (p.r - mid.r) * dir.r
      let pg := (p.g - mid.g) * dir.g
      let pb := (p.b - mid.b) * dir.b
      acc + (pr + sg.1 * pg + sg.2 * pb) ^ 2) 0

/-- Scan for the smallest index whose value is preferred to every earlier one: `better new best` replaces, so ties keep the lower index (R163, R293). -/
def bestFrom {α : Type} (better : α → α → Bool) : Nat → Nat → α → List α → Nat
  | _, kBest, _, [] => kBest
  | k, kBest, best, x :: rest =>
    if better x best then bestFrom better (k + 1) k x rest else bestFrom better (k + 1) kBest best rest

/-- The smallest index of the least value (R293, R424). -/
def argMin (l : List ℚ) : Nat :=
  match l with
  | [] => 0
  | x :: rest => bestFrom (fun a b => decide (a < b)) 1 0 x rest

/-- The smallest index of the greatest value (R163). -/
def argMax (l : List ℚ) : Nat :=
  match l with
  | [] => 0
  | x :: rest => bestFrom (fun a b => decide (b < a)) 1 0 x rest

/-- The sums a Newton step gathers over the pixels (R165). -/
structure NewtonSums where
  d2X : ℚ
  d2Y : ℚ
  dX : Rgb
  dY : Rgb

/-- What one pixel adds to the sums (R165). -/
def newtonAdd (steps : Nat) (X Y dir : Rgb) (acc : NewtonSums) (p : Rgb) : NewtonSums :=
  let k := axisPos steps (dot3 (rgbOps.sub p X) dir)
  let c := coefC steps k
  let d := coefD steps k
  let diff := rgbOps.sub (rgbOps.add (rgbOps.scale c X) (rgbOps.scale d Y)) p
  { d2X := acc.d2X + c ^ 2 / 8
    d2Y := acc.d2Y + d ^ 2 / 8
    dX := rgbOps.add acc.dX (rgbOps.scale (c / 8) diff)
    dY := rgbOps.add acc.dY (rgbOps.scale (d / 8) diff) }

/-- Every squared component is below the bound (R165, R166). -/
def smallGradient (eps : ℚ) (u : Rgb) : Bool := decide (u.r ^ 2 < eps) && decide (u.g ^ 2 < eps) && decide (u.b ^ 2 < eps)

/-- The Newton iterations, at most as many as the first number says (R165); that number is `MAX_ITER`, which the configuration does not bound by the 8 of R7 (DESIGN CHOICE, log 7). -/
def newtonRGB (cfg : Config) (P : List Rgb) (steps : Nat) : Nat → Rgb → Rgb → Rgb × Rgb
  | 0, X, Y => (X, Y)
  | n + 1, X, Y =>
    let axis := rgbOps.sub Y X
    let fLen := dot3 axis axis
    if fLen < 1 / 4096 then (X, Y)
    else
      let dir := rgbOps.scale (((steps - 1 : Nat) : ℚ) / fLen) axis
      let S := P.foldl (newtonAdd steps X Y dir) ⟨0, 0, rgbOps.zero, rgbOps.zero⟩
      let X' := if 0 < S.d2X then rgbOps.sub X (rgbOps.scale (1 / S.d2X) S.dX) else X
      let Y' := if 0 < S.d2Y then rgbOps.sub Y (rgbOps.scale (1 / S.d2Y) S.dY) else Y
      if smallGradient cfg.epsGrad S.dX && smallGradient cfg.epsGrad S.dY then (X', Y')
      else newtonRGB cfg P steps n X' Y'

/-- The optimizer on points of a space whose colour (1,1,1) is `cap` (R161 to R167). A zero diagonal passes the first exit only where `EPS_SINGLE` is 0 or less; the axis selection then swaps nothing (DESIGN CHOICE, log 7). -/
def optimizeAxis (cfg : Config) (cap : Rgb) (P : List Rgb) (steps : Nat) : Rgb × Rgb :=
  let X := cornerMin cap P
  let Y := cornerMax P
  let AB := rgbOps.sub Y X
  let fAB := dot3 AB AB
  if fAB < cfg.epsSingle then (X, Y)
  else
    let j := argMax (axisScores P X Y)
    let swapG := j.testBit 1
    let swapB := j.testBit 0
    let X' : Rgb := ⟨X.r, if swapG then Y.g else X.g, if swapB then Y.b else X.b⟩
    let Y' : Rgb := ⟨Y.r, if swapG then X.g else Y.g, if swapB then X.b else Y.b⟩
    if fAB < cfg.epsTwo then (X', Y') else newtonRGB cfg P steps cfg.maxIter X' Y'

/-- A colour with each channel multiplied by its weight (R8 `WEIGHTS`). -/
def weigh (w c : Rgb) : Rgb := Triple.map₂ (· * ·) w c

/-- A weighed colour with each channel divided by its weight. The spec has no such formula; a weight of 0 makes the channel 0 (DESIGN CHOICE, log 11; at the default no weight is 0). -/
def unweigh (w c : Rgb) : Rgb := Triple.map₂ (fun k x => x / k) w c

/-- `OptimizeRGB(P, steps)` (R160 to R167): the optimizer on the weighed points, its endpoints taken back to colours. With the default weights (1,1,1) no channel weighting is applied (R167); how other weights enter is the model's (DESIGN CHOICE, log 11). -/
def optimizeRGB (cfg : Config) (P : List Rgb) (steps : Nat) : Rgb × Rgb :=
  let w := cfg.weights
  let XY := optimizeAxis cfg w (P.map (weigh w)) steps
  (unweigh w XY.1, unweigh w XY.2)

/-! ### The axis optimizer, one dimension (R170 to R172) -/

/-- The least element of a list, or `dflt` if it is empty. -/
def minOr (dflt : ℚ) : List ℚ → ℚ
  | [] => dflt
  | x :: rest => rest.foldl min x

/-- The greatest element of a list, or `dflt` if it is empty. -/
def maxOr (dflt : ℚ) : List ℚ → ℚ
  | [] => dflt
  | x :: rest => rest.foldl max x

/-- The starting endpoints (R171); the format's upper bound is 1 (R170). -/
def alphaStart (P : List ℚ) (steps : Nat) (lo : ℚ) : ℚ × ℚ :=
  if steps = 8 then (min 1 (minOr 1 P), max lo (maxOr lo P))
  else
    let X := minOr 1 (P.filter fun p => decide (lo < p))
    let Y := maxOr lo (P.filter fun p => decide (p < 1))
    if X = Y then (X, 1) else (X, Y)

/-- The sums a Newton step gathers over the scalars (R172). -/
structure AlphaSums where
  d2X : ℚ
  d2Y : ℚ
  dX : ℚ
  dY : ℚ

/-- The palette position of a scalar: 0 .. steps-1, or with six steps the extremes 6 and 7 (R172). -/
def alphaPos (steps : Nat) (lo X Y scale p : ℚ) : Nat :=
  let dot := (p - X) * scale
  if dot ≤ 0 then (if steps = 6 ∧ p ≤ (X + lo) / 2 then 6 else 0)
  else if (steps - 1 : Nat) ≤ dot then (if steps = 6 ∧ (Y + 1) / 2 ≤ p then 7 else steps - 1)
  else (dot + 1 / 2).floor.toNat

/-- What one scalar adds to the sums; the extremes of a six-step palette add nothing (R172). -/
def alphaAdd (steps : Nat) (lo X Y scale : ℚ) (acc : AlphaSums) (p : ℚ) : AlphaSums :=
  let k := alphaPos steps lo X Y scale p
  if k < steps then
    let c := coefC steps k
    let d := coefD steps k
    let diff := c * X + d * Y - p
    { d2X := acc.d2X + c ^ 2, d2Y := acc.d2Y + d ^ 2, dX := acc.dX + c * diff, dY := acc.dY + d * diff }
  else acc

/-- The iterations, at most as many as the first number says (R172). The spec gives `scale` no value at `X = Y`, which only an `ALPHA_EPS_RANGE` of 0 or less lets reach it; the model takes it as 0, so every scalar has position 0 or, in the six-step palette, the lower extreme (DESIGN CHOICE, log 7; not reached at the default). -/
def newtonAlpha (cfg : Config) (P : List ℚ) (steps : Nat) (lo : ℚ) : Nat → ℚ → ℚ → ℚ × ℚ
  | 0, X, Y => (X, Y)
  | n + 1, X, Y =>
    if Y - X < cfg.alphaEpsRange then (X, Y)
    else
      let scale := ((steps - 1 : Nat) : ℚ) / (Y - X)
      let S := P.foldl (alphaAdd steps lo X Y scale) ⟨0, 0, 0, 0⟩
      let X₁ := if 0 < S.d2X then X - S.dX / S.d2X else X
      let Y₁ := if 0 < S.d2Y then Y - S.dY / S.d2Y else Y
      let X' := if Y₁ < X₁ then Y₁ else X₁
      let Y' := if Y₁ < X₁ then X₁ else Y₁
      if S.dX ^ 2 < cfg.alphaEpsGrad ∧ S.dY ^ 2 < cfg.alphaEpsGrad then (X', Y')
      else newtonAlpha cfg P steps lo n X' Y'

/-- `OptimizeAlpha(P, steps, lo)`: the endpoints, clamped to the format's range (R170 to R172). -/
def optimizeAlpha (cfg : Config) (P : List ℚ) (steps : Nat) (lo : ℚ) : ℚ × ℚ :=
  let start := alphaStart P steps lo
  let XY := newtonAlpha cfg P steps lo cfg.maxIter start.1 start.2
  (clampQ XY.1 lo 1, clampQ XY.2 lo 1)

/-! ### The eight-entry ramp (R199) -/

/-- `Ramp(E0, E1, full, lo, hi)`: the table of a BC3 alpha, BC4 or BC5 channel block (R199). -/
def ramp (E0 E1 : ℚ) (full : Bool) (lo hi : ℚ) : List ℚ :=
  if full then
    [E0, E1, (E0 * 6 + E1) / 7, (E0 * 5 + E1 * 2) / 7, (E0 * 4 + E1 * 3) / 7, (E0 * 3 + E1 * 4) / 7,
      (E0 * 2 + E1 * 5) / 7, (E0 + E1 * 6) / 7]
  else
    [E0, E1, (E0 * 4 + E1) / 5, (E0 * 3 + E1 * 2) / 5, (E0 * 2 + E1 * 3) / 5, (E0 + E1 * 4) / 5, lo, hi]

end Sys2Proof.Machine
end

