-- ==== Sys2Proof/Machine/Bc123.lean ====
section
/-! DEFINITION. DEC.BC1, DEC.BC2, DEC.BC3 (42_bc123_decode.md). Every decoder gives, for a block, the colour of each pixel; the one rounding is at the write to `PIX` (R141). -/

namespace Sys2Proof.Machine

/-! ### The colour block -/

/-- `c0`, the source's `rgb[0]`, of the colour block whose first block bit is `p` (R62, R190). -/
def colour0 (b : Block) (p : Nat) : Nat := fld b p 16

/-- `c1`, the source's `rgb[1]` (R190). -/
def colour1 (b : Block) (p : Nat) : Nat := fld b (p + 16) 16

/-- The colour index of pixel `i`: `(bitmap >> 2i) & 3` (R195). -/
def colourIndex (b : Block) (p i : Nat) : Nat := fld b (p + 32 + 2 * i) 2

/-- An opaque colour. -/
def opaqueRgba (c : Rgb) : Rgba := ⟨c.r, c.g, c.b, 1⟩

/-- Transparent black (R193). -/
def transparentBlack : Rgba := ⟨0, 0, 0, 0⟩

/-- The four-colour palette (R192). -/
def palette4 (e0 e1 : Rgb) : List Rgba :=
  [opaqueRgba e0, opaqueRgba e1, opaqueRgba (lerp e0 e1 (1 / 3)), opaqueRgba (lerp e0 e1 (2 / 3))]

/-- The three-colour palette, entry 3 transparent (R193). -/
def palette3 (e0 e1 : Rgb) : List Rgba :=
  [opaqueRgba e0, opaqueRgba e1, opaqueRgba (lerp e0 e1 (1 / 2)), transparentBlack]

/-- Entry `k` of a table of colours; every index the formats hold is within its table (R503, log 4). -/
def entry (pal : List Rgba) (k : Nat) : Rgba := pal.getD k transparentBlack

/-- The palette of a BC1 block: three colours when `c0 ≤ c1` as words, else four (R194). -/
def bc1Palette (c0 c1 : Nat) : List Rgba :=
  if c0 ≤ c1 then palette3 (dec565 c0) (dec565 c1) else palette4 (dec565 c0) (dec565 c1)

/-- The colour of pixel `i` of a BC1 block (R196). -/
def bc1Pixel (b : Block) (i : Nat) : Rgba := entry (bc1Palette (colour0 b 0) (colour1 b 0)) (colourIndex b 0 i)

/-- The colour part of pixel `i` of a BC2 or BC3 block: always the four-colour palette (R194, C1). -/
def bc23Colour (b : Block) (i : Nat) : Rgba :=
  entry (palette4 (dec565 (colour0 b 64)) (dec565 (colour1 b 64))) (colourIndex b 64 i)

/-- The colour of pixel `i` of a BC2 block (R198). -/
def bc2Pixel (b : Block) (i : Nat) : Rgba := { bc23Colour b i with a := (fld b (4 * i) 4 : ℚ) / 15 }

/-- The alpha of pixel `i` of a BC3 block (R200). -/
def bc3Alpha (b : Block) (i : Nat) : ℚ :=
  let a0 := fld b 0 8
  let a1 := fld b 8 8
  (ramp ((a0 : ℚ) / 255) ((a1 : ℚ) / 255) (decide (a1 < a0)) 0 1).getD (fld b (16 + 3 * i) 3) 0

/-- The colour of pixel `i` of a BC3 block (R200). -/
def bc3Pixel (b : Block) (i : Nat) : Rgba := { bc23Colour b i with a := bc3Alpha b i }

/-! ### The commands -/

/-- A decode command's write to `PIX`: pixel `i` gets the words of its colour (R141, R548). -/
def decodeTo (cfg : Config) (s : State) (px : Nat → Rgba) : State := s.setTile fun i => toPixel cfg (px i)

/-- DEC.BC1 at a configuration (R196). -/
def decBc1In (cfg : Config) (s : State) : Host.Outcome State Fault Refusal :=
  .next (decodeTo cfg s (bc1Pixel (s.formatBlock cfg .bc1)))

/-- DEC.BC2 at a configuration (R198). -/
def decBc2In (cfg : Config) (s : State) : Host.Outcome State Fault Refusal :=
  .next (decodeTo cfg s (bc2Pixel (s.formatBlock cfg .bc2)))

/-- DEC.BC3 at a configuration (R200). -/
def decBc3In (cfg : Config) (s : State) : Host.Outcome State Fault Refusal :=
  .next (decodeTo cfg s (bc3Pixel (s.formatBlock cfg .bc3)))

/-- DEC.BC1 (R196). -/
def execDecBc1 (s : State) : Host.Outcome State Fault Refusal := decBc1In config s

/-- DEC.BC2 (R198). -/
def execDecBc2 (s : State) : Host.Outcome State Fault Refusal := decBc2In config s

/-- DEC.BC3 (R200). -/
def execDecBc3 (s : State) : Host.Outcome State Fault Refusal := decBc3In config s

end Sys2Proof.Machine
end

