-- ==== Sys2Proof/Machine/Bc123Enc.lean ====
section
/-! DEFINITION. ENC.BC1, ENC.BC2, ENC.BC3 (43_bc123_encode.md), in exact rationals. -/

namespace Sys2Proof.Machine

/-! ### The shared colour-block encoder (R221 to R228) -/

/-- A colour block: `c0`, `c1` and the sixteen 2-bit indices, as one 64-bit number (R190, R228). -/
def colourBlock (c0 c1 : Nat) (indices : List Nat) : Nat :=
  packFields ((c0, 16) :: (c1, 16) :: indices.map (·, 2))

/-- The RGB565 grid quantiser of R223, without a clamp. -/
def grid565 (v : Rgb) : Rgb := ⟨(rhu (v.r * 31) : ℚ) / 31, (rhu (v.g * 63) : ℚ) / 63, (rhu (v.b * 31) : ℚ) / 31⟩

/-- The grid pass, with diffusion when `dr` (R223). -/
def gridPass (P : List Rgba) (dr : Bool) : List Rgb :=
  pass rgbOps dr (fun _ v => (grid565 v, some (grid565 v))) (P.map rgbOf)

/-- The pixel is below the colour-key threshold: strictly (R221). -/
def keyed (thr : ℚ) (p : Rgba) : Bool := decide (p.a < thr)

/-- The map from axis position to stored index (R227). -/
def colourPerm (steps : Nat) : List Nat := if steps = 3 then [0, 2, 1] else [0, 2, 3, 1]

/-- The index of a colour on the quantised axis from `S0` along `dir`, a direction of the weighed space (R227). -/
def axisIndex (w : Rgb) (steps : Nat) (S0 dir v : Rgb) : Nat :=
  (colourPerm steps).getD (axisPos steps (dot3 (weigh w (rgbOps.sub v S0)) dir)) 0

/-- The index assignment, with the second diffusion pass when `dr` (R227); the axis is that of the weighed colours. Where weights of 0 make the axis of two different words 0, its direction is taken as 0 (DESIGN CHOICE, log 11; not at the default). -/
def assignIndices (cfg : Config) (P : List Rgba) (dr : Bool) (steps : Nat) (thr : ℚ) (c0 c1 : Nat) (S0 S1 : Rgb) : List Nat :=
  let axis := weigh cfg.weights (rgbOps.sub S1 S0)
  let dir := if c0 = c1 then rgbOps.zero else rgbOps.scale (((steps - 1 : Nat) : ℚ) / dot3 axis axis) axis
  let pal := if steps = 3 then palette3 S0 S1 else palette4 S0 S1
  let quantise (i : Nat) (v : Rgb) : Nat × Option Rgb :=
    if steps = 3 ∧ keyed thr (entry P i) then (3, none)
    else
      let k := axisIndex cfg.weights steps S0 dir v
      (k, some (rgbOf (entry pal k)))
  pass rgbOps dr quantise (P.map rgbOf)

/-- The step count: 3 when the colour key is on and some but not all pixels are below the threshold, else 4 (R222). -/
def colourSteps (P : List Rgba) (ck : Bool) (thr : ℚ) : Nat := if ck ∧ P.any (keyed thr) ∧ ¬ P.all (keyed thr) then 3 else 4

/-- `EncColour` once the step count and the quantised endpoints `wA`, `wB` are known (R225 to R228). -/
def emitColour (cfg : Config) (P : List Rgba) (dr : Bool) (steps : Nat) (thr : ℚ) (wA wB : Nat) : Nat :=
  if steps = 4 ∧ wA = wB then colourBlock wA wB (List.replicate 16 0)
  else if (steps = 3) = (wA ≤ wB) then
    colourBlock wA wB (assignIndices cfg P dr steps thr wA wB (dec565 wA) (dec565 wB))
  else colourBlock wB wA (assignIndices cfg P dr steps thr wB wA (dec565 wB) (dec565 wA))

/-- `EncColour(P, dr, ck, thr)`: the eight bytes of a colour block as one number (R221 to R228). -/
def encColour (cfg : Config) (P : List Rgba) (dr ck : Bool) (thr : ℚ) : Nat :=
  if ck ∧ P.all (keyed thr) then colourBlock 0x0000 0xFFFF (List.replicate 16 3)
  else
    let steps := colourSteps P ck thr
    let AB := optimizeRGB cfg (gridPass P dr) steps
    emitColour cfg P dr steps thr (enc565 AB.1) (enc565 AB.2)

/-! ### Alpha -/

/-- The 4-bit alpha quantiser, clamped to the field (R241). -/
def quantAlpha4 (v : ℚ) : Nat := (clampZ (rhu (v * 15)) 0 15).toNat

/-- `Alpha4Pass(P, da)` as one 64-bit number: pixel `i` in bits `4i .. 4i+3` (R240, R241). -/
def encAlpha4 (P : List Rgba) (da : Bool) : Nat :=
  packFields ((pass scalarOps da (fun _ v => (quantAlpha4 v, some ((quantAlpha4 v : ℚ) / 15))) (P.map (·.a))).map (·, 4))

/-- The 8-bit alpha grid pass (R251). -/
def alphaGrid (P : List Rgba) (da : Bool) : List ℚ :=
  pass scalarOps da (fun _ v => ((rhu (v * 255) : ℚ) / 255, some ((rhu (v * 255) : ℚ) / 255))) (P.map (·.a))

/-- The map from ramp position to stored index (R255). -/
def alphaPerm (steps : Nat) : List Nat := if steps = 6 then [0, 2, 3, 4, 5, 1] else [0, 2, 3, 4, 5, 6, 7, 1]

/-- The stored index of an alpha value for the ramp `rp` (R255). -/
def alphaIndex (steps : Nat) (rp : List ℚ) (v : ℚ) : Nat :=
  let r0 := rp.getD 0 0
  let r1 := rp.getD 1 0
  let scale := if r0 = r1 then 0 else ((steps - 1 : Nat) : ℚ) / (r1 - r0)
  let dot := (v - r0) * scale
  if dot ≤ 0 then (if steps = 6 ∧ v ≤ r0 / 2 then 6 else 0)
  else if (steps - 1 : Nat) ≤ dot then (if steps = 6 ∧ (r1 + 1) / 2 ≤ v then 7 else 1)
  else (alphaPerm steps).getD (dot + 1 / 2).floor.toNat 0

/-- An alpha or channel block: two 8-bit endpoints and sixteen 3-bit indices as one 64-bit number (R200, R255, R280). -/
def rampBlock (e0 e1 : Nat) (indices : List Nat) : Nat := packFields ((e0, 8) :: (e1, 8) :: indices.map (·, 3))

/-- The alpha block for stored endpoints `a0`, `a1` (R255). -/
def emitAlpha (P : List Rgba) (da : Bool) (steps a0 a1 : Nat) : Nat :=
  let rp := ramp ((a0 : ℚ) / 255) ((a1 : ℚ) / 255) (decide (steps = 8)) 0 1
  rampBlock a0 a1 (pass scalarOps da (fun _ v => (alphaIndex steps rp v, some (rp.getD (alphaIndex steps rp v) 0))) (P.map (·.a)))

/-- `EncAlpha8(P, da)`: the eight bytes of a BC3 alpha block as one number (R251 to R255). -/
def encAlpha8 (cfg : Config) (P : List Rgba) (da : Bool) : Nat :=
  let fa := alphaGrid P da
  let mn := minOr 0 fa
  let mx := maxOr 0 fa
  if mn = 1 then rampBlock 255 255 (List.replicate 16 0)
  else
    let steps := if mn = 0 ∨ mx = 1 then 6 else 8
    let AB := optimizeAlpha cfg fa steps 0
    let bA := (rhu (AB.1 * 255)).toNat
    let bB := (rhu (AB.2 * 255)).toNat
    if steps = 8 ∧ bA = bB then rampBlock bA bB (List.replicate 16 0)
    else if steps = 6 then emitAlpha P da 6 bA bB
    else emitAlpha P da 8 bB bA

/-! ### The commands -/

/-- The channels ENC.BC1, ENC.BC2, ENC.BC3 and ENC.BC7 read (R140). -/
def allChans : List Chan := [.r, .g, .b, .a]

/-- An encode command: `NONFINITE_INPUT` when an input it reads is not finite, else the block is written (R500, R503). -/
def encodeOr (finite : Bool) (i : Instr) (s : State) (written : State) : Host.Outcome State Fault Refusal :=
  if finite then .next written else .next (s.raise .nonfiniteInput (encode i))

/-- The two eight-byte halves of a block as one number (R62). -/
def halves (low high : Nat) : Nat := packFields [(low, 64), (high, 64)]

/-- ENC.BC1 [dr] [ck] at a configuration (R230): `BLK[0..7]` only. -/
def encBc1In (cfg : Config) (dr ck : Bool) (s : State) : Host.Outcome State Fault Refusal :=
  encodeOr (s.finiteChans cfg allChans && (!ck || isFiniteIn cfg.chanFmt s.athr)) (.encBc1 dr ck) s
    (s.writeFormat cfg .bc1 (encColour cfg (s.colours cfg) dr ck (valIn cfg.chanFmt s.athr)))

/-- ENC.BC2 [dr] [da] at a configuration (R240). -/
def encBc2In (cfg : Config) (dr da : Bool) (s : State) : Host.Outcome State Fault Refusal :=
  encodeOr (s.finiteChans cfg allChans) (.encBc2 dr da) s
    (s.writeFormat cfg .bc2 (halves (encAlpha4 (s.colours cfg) da) (encColour cfg (s.colours cfg) dr false 0)))

/-- ENC.BC3 [dr] [da] at a configuration (R250). -/
def encBc3In (cfg : Config) (dr da : Bool) (s : State) : Host.Outcome State Fault Refusal :=
  encodeOr (s.finiteChans cfg allChans) (.encBc3 dr da) s
    (s.writeFormat cfg .bc3 (halves (encAlpha8 cfg (s.colours cfg) da) (encColour cfg (s.colours cfg) dr false 0)))

/-- ENC.BC1 [dr] [ck] (R230). -/
def execEncBc1 (dr ck : Bool) (s : State) : Host.Outcome State Fault Refusal := encBc1In config dr ck s

/-- ENC.BC2 [dr] [da] (R240). -/
def execEncBc2 (dr da : Bool) (s : State) : Host.Outcome State Fault Refusal := encBc2In config dr da s

/-- ENC.BC3 [dr] [da] (R250). -/
def execEncBc3 (dr da : Bool) (s : State) : Host.Outcome State Fault Refusal := encBc3In config dr da s

end Sys2Proof.Machine
end

