-- ==== Sys2Proof/Machine/Bc45.lean ====
section
/-! DEFINITION. BC4 and BC5, decode and encode (44_bc45.md). -/

namespace Sys2Proof.Machine

/-! ### The channel block -/

/-- The least value of the format: 0 for UNORM, -1 for SNORM (R281, R282); the greatest is 1. -/
def formatLo (signed : Bool) : ℚ := if signed then -1 else 0

/-- A stored endpoint byte as an integer: unsigned for UNORM, two's complement for SNORM (R281, R282). -/
def storedInt (signed : Bool) (byte : Nat) : Int := if signed ∧ 128 ≤ byte then (byte : Int) - 256 else byte

/-- The value of a stored endpoint: `r/255`, or `max(r, -127)/127` (R281, R282). -/
def endpointValue (signed : Bool) (r : Int) : ℚ := if signed then (max r (-127) : ℚ) / 127 else (r : ℚ) / 255

/-- The decode table of a channel block with stored endpoint bytes `b0`, `b1`; the full ramp is selected on the stored integers (R283). -/
def channelRamp (signed : Bool) (b0 b1 : Nat) : List ℚ :=
  let r0 := storedInt signed b0
  let r1 := storedInt signed b1
  ramp (endpointValue signed r0) (endpointValue signed r1) (decide (r1 < r0)) (formatLo signed) 1

/-- The value of pixel `i` of the channel block whose first block bit is `p` (R280, R283). -/
def channelValue (signed : Bool) (b : Block) (p i : Nat) : ℚ :=
  (channelRamp signed (fld b p 8) (fld b (p + 8) 8)).getD (fld b (p + 16 + 3 * i) 3) 0

/-- Pixel `i` of a BC4 block: red, with green and blue 0 and alpha 1 (R284). -/
def bc4Pixel (signed : Bool) (b : Block) (i : Nat) : Rgba := ⟨channelValue signed b 0 i, 0, 0, 1⟩

/-- Pixel `i` of a BC5 block: red and green, with blue 0 and alpha 1 (R286). -/
def bc5Pixel (signed : Bool) (b : Block) (i : Nat) : Rgba := ⟨channelValue signed b 0 i, channelValue signed b 64 i, 0, 1⟩

/-- DEC.BC4U at a configuration (R284). -/
def decBc4uIn (cfg : Config) (s : State) : Host.Outcome State Fault Refusal :=
  .next (decodeTo cfg s (bc4Pixel false (s.formatBlock cfg .bc4u)))

/-- DEC.BC4S at a configuration (R285). -/
def decBc4sIn (cfg : Config) (s : State) : Host.Outcome State Fault Refusal :=
  .next (decodeTo cfg s (bc4Pixel true (s.formatBlock cfg .bc4s)))

/-- DEC.BC5U at a configuration (R286). -/
def decBc5uIn (cfg : Config) (s : State) : Host.Outcome State Fault Refusal :=
  .next (decodeTo cfg s (bc5Pixel false (s.formatBlock cfg .bc5u)))

/-- DEC.BC5S at a configuration (R287). -/
def decBc5sIn (cfg : Config) (s : State) : Host.Outcome State Fault Refusal :=
  .next (decodeTo cfg s (bc5Pixel true (s.formatBlock cfg .bc5s)))

/-- DEC.BC4U (R284). -/
def execDecBc4u (s : State) : Host.Outcome State Fault Refusal := decBc4uIn config s

/-- DEC.BC4S (R285). -/
def execDecBc4s (s : State) : Host.Outcome State Fault Refusal := decBc4sIn config s

/-- DEC.BC5U (R286). -/
def execDecBc5u (s : State) : Host.Outcome State Fault Refusal := decBc5uIn config s

/-- DEC.BC5S (R287). -/
def execDecBc5s (s : State) : Host.Outcome State Fault Refusal := decBc5sIn config s

/-! ### The channel encoder (R290 to R293) -/

/-- The stored integer of an endpoint value: `QU` or `QS` (R290). -/
def quantEndpoint (signed : Bool) (x : ℚ) : Int := if signed then rha (clampQ x (-1) 1 * 127) else rhu (clampQ x 0 1 * 255)

/-- The 8-bit encoding of a stored integer: itself, or its two's complement (R290). -/
def storedByte (r : Int) : Nat := (r % 256).toNat

/-- The channel's range touches a boundary of the format, so the six-value ramp is used (R291, C3). -/
def touchesBoundary (signed : Bool) (V : List ℚ) : Bool := minOr 0 V = formatLo signed ∨ maxOr 0 V = 1

/-- The stored endpoint bytes (R292). -/
def channelEndpoints (cfg : Config) (signed : Bool) (V : List ℚ) : Nat × Nat :=
  let six := touchesBoundary signed V
  let XY := optimizeAlpha cfg V (if six then 6 else 8) (formatLo signed)
  let qX := storedByte (quantEndpoint signed XY.1)
  let qY := storedByte (quantEndpoint signed XY.2)
  if six then (qX, qY) else (qY, qX)

/-- The smallest index of the table entry nearest to `v` (R293). -/
def nearestEntry (table : List ℚ) (v : ℚ) : Nat := argMin (table.map fun t => |t - v|)

/-- `EncChan(V, signed)`: the eight bytes of a channel block as one number (R290 to R293). -/
def encChan (cfg : Config) (signed : Bool) (V : List ℚ) : Nat :=
  let e := channelEndpoints cfg signed V
  let table := channelRamp signed e.1 e.2
  rampBlock e.1 e.2 (V.map (nearestEntry table))

/-- ENC.BC4U at a configuration (R300): `BLK[0..7]` only. -/
def encBc4uIn (cfg : Config) (s : State) : Host.Outcome State Fault Refusal :=
  encodeOr (s.finiteChans cfg [.r]) .encBc4u s (s.writeFormat cfg .bc4u (encChan cfg false ((s.colours cfg).map (·.r))))

/-- ENC.BC4S at a configuration (R301): `BLK[0..7]` only. -/
def encBc4sIn (cfg : Config) (s : State) : Host.Outcome State Fault Refusal :=
  encodeOr (s.finiteChans cfg [.r]) .encBc4s s (s.writeFormat cfg .bc4s (encChan cfg true ((s.colours cfg).map (·.r))))

/-- ENC.BC5U at a configuration (R302). -/
def encBc5uIn (cfg : Config) (s : State) : Host.Outcome State Fault Refusal :=
  encodeOr (s.finiteChans cfg [.r, .g]) .encBc5u s
    (s.writeFormat cfg .bc5u
      (halves (encChan cfg false ((s.colours cfg).map (·.r))) (encChan cfg false ((s.colours cfg).map (·.g)))))

/-- ENC.BC5S at a configuration (R303). -/
def encBc5sIn (cfg : Config) (s : State) : Host.Outcome State Fault Refusal :=
  encodeOr (s.finiteChans cfg [.r, .g]) .encBc5s s
    (s.writeFormat cfg .bc5s
      (halves (encChan cfg true ((s.colours cfg).map (·.r))) (encChan cfg true ((s.colours cfg).map (·.g)))))

/-- ENC.BC4U (R300). -/
def execEncBc4u (s : State) : Host.Outcome State Fault Refusal := encBc4uIn config s

/-- ENC.BC4S (R301). -/
def execEncBc4s (s : State) : Host.Outcome State Fault Refusal := encBc4sIn config s

/-- ENC.BC5U (R302). -/
def execEncBc5u (s : State) : Host.Outcome State Fault Refusal := encBc5uIn config s

/-- ENC.BC5S (R303). -/
def execEncBc5s (s : State) : Host.Outcome State Fault Refusal := encBc5sIn config s

end Sys2Proof.Machine
end

