-- ==== Sys2Proof/Machine/Bc6hTables.lean ====
section
/-! DEFINITION. The BC6H tables (46_bc6h_tables.md): modes, bit layouts, two-region shapes, fix-up pixels, weights. ROM, never written (10_state.md R32). The numbers are the spec's, which marks them as general knowledge (G9 to G13; log 15). -/

namespace Sys2Proof.Machine

/-- The four endpoints: `w` and `x` are A and B of region 0, `y` and `z` A and B of region 1 (R330). -/
inductive EndpointId where
  | w
  | x
  | y
  | z
deriving DecidableEq, Repr

/-- The components of an endpoint (R330). -/
inductive Comp where
  | r
  | g
  | b
deriving DecidableEq, Repr

/-- A header field: the selector, the shape, or one component of one endpoint (R334). -/
inductive Field6H where
  | m
  | d
  | ep (c : Comp) (e : EndpointId)
deriving DecidableEq, Repr

/-- A run `lo..hi = f[first..last]` of a bit layout: block bit `lo` holds `f[first]`, and so on to block bit `hi`, which holds `f[last]` (R382). -/
structure BitRun where
  lo : Nat
  hi : Nat
  field : Field6H
  first : Nat
  last : Nat
deriving DecidableEq, Repr

/-- The field bit that block bit `p` of the run holds; a run descends where `last < first` (R382). -/
def BitRun.fieldBit (run : BitRun) (p : Nat) : Nat :=
  if run.first ≤ run.last then run.first + (p - run.lo) else run.first - (p - run.lo)

/-- The field `rw`. -/
abbrev rW : Field6H := .ep .r .w

/-- The field `rx`. -/
abbrev rX : Field6H := .ep .r .x

/-- The field `ry`. -/
abbrev rY : Field6H := .ep .r .y

/-- The field `rz`. -/
abbrev rZ : Field6H := .ep .r .z

/-- The field `gw`. -/
abbrev gW : Field6H := .ep .g .w

/-- The field `gx`. -/
abbrev gX : Field6H := .ep .g .x

/-- The field `gy`. -/
abbrev gY : Field6H := .ep .g .y

/-- The field `gz`. -/
abbrev gZ : Field6H := .ep .g .z

/-- The field `bw`. -/
abbrev bW : Field6H := .ep .b .w

/-- The field `bx`. -/
abbrev bX : Field6H := .ep .b .x

/-- The field `by`. -/
abbrev bY : Field6H := .ep .b .y

/-- The field `bz`. -/
abbrev bZ : Field6H := .ep .b .z

/-- A mode record (R330, R380): number, selector, regions minus one, delta-transformed, index precision, precisions of the anchor and of the other endpoints. -/
structure Mode6H where
  num : Nat
  sel : Nat
  parts : Nat
  tr : Bool
  ip : Nat
  precW : Triple Nat
  precX : Triple Nat
  layout : List BitRun
deriving DecidableEq, Repr

/-- The bit layout of mode 1 (R382). -/
def layout1 : List BitRun :=
  [ ⟨0, 1, .m, 0, 1⟩, ⟨2, 2, gY, 4, 4⟩, ⟨3, 3, bY, 4, 4⟩, ⟨4, 4, bZ, 4, 4⟩, ⟨5, 14, rW, 0, 9⟩, ⟨15, 24, gW, 0, 9⟩,
    ⟨25, 34, bW, 0, 9⟩, ⟨35, 39, rX, 0, 4⟩, ⟨40, 40, gZ, 4, 4⟩, ⟨41, 44, gY, 0, 3⟩, ⟨45, 49, gX, 0, 4⟩,
    ⟨50, 50, bZ, 0, 0⟩, ⟨51, 54, gZ, 0, 3⟩, ⟨55, 59, bX, 0, 4⟩, ⟨60, 60, bZ, 1, 1⟩, ⟨61, 64, bY, 0, 3⟩,
    ⟨65, 69, rY, 0, 4⟩, ⟨70, 70, bZ, 2, 2⟩, ⟨71, 75, rZ, 0, 4⟩, ⟨76, 76, bZ, 3, 3⟩, ⟨77, 81, .d, 0, 4⟩ ]

/-- The bit layout of mode 2 (R382). -/
def layout2 : List BitRun :=
  [ ⟨0, 1, .m, 0, 1⟩, ⟨2, 2, gY, 5, 5⟩, ⟨3, 4, gZ, 4, 5⟩, ⟨5, 11, rW, 0, 6⟩, ⟨12, 13, bZ, 0, 1⟩, ⟨14, 14, bY, 4, 4⟩,
    ⟨15, 21, gW, 0, 6⟩, ⟨22, 22, bY, 5, 5⟩, ⟨23, 23, bZ, 2, 2⟩, ⟨24, 24, gY, 4, 4⟩, ⟨25, 31, bW, 0, 6⟩,
    ⟨32, 32, bZ, 3, 3⟩, ⟨33, 34, bZ, 5, 4⟩, ⟨35, 40, rX, 0, 5⟩, ⟨41, 44, gY, 0, 3⟩, ⟨45, 50, gX, 0, 5⟩,
    ⟨51, 54, gZ, 0, 3⟩, ⟨55, 60, bX, 0, 5⟩, ⟨61, 64, bY, 0, 3⟩, ⟨65, 70, rY, 0, 5⟩, ⟨71, 76, rZ, 0, 5⟩,
    ⟨77, 81, .d, 0, 4⟩ ]

/-- The bit layout of mode 3 (R382). -/
def layout3 : List BitRun :=
  [ ⟨0, 4, .m, 0, 4⟩, ⟨5, 14, rW, 0, 9⟩, ⟨15, 24, gW, 0, 9⟩, ⟨25, 34, bW, 0, 9⟩, ⟨35, 39, rX, 0, 4⟩,
    ⟨40, 40, rW, 10, 10⟩, ⟨41, 44, gY, 0, 3⟩, ⟨45, 48, gX, 0, 3⟩, ⟨49, 49, gW, 10, 10⟩, ⟨50, 50, bZ, 0, 0⟩,
    ⟨51, 54, gZ, 0, 3⟩, ⟨55, 58, bX, 0, 3⟩, ⟨59, 59, bW, 10, 10⟩, ⟨60, 60, bZ, 1, 1⟩, ⟨61, 64, bY, 0, 3⟩,
    ⟨65, 69, rY, 0, 4⟩, ⟨70, 70, bZ, 2, 2⟩, ⟨71, 75, rZ, 0, 4⟩, ⟨76, 76, bZ, 3, 3⟩, ⟨77, 81, .d, 0, 4⟩ ]

/-- The bit layout of mode 4 (R382). -/
def layout4 : List BitRun :=
  [ ⟨0, 4, .m, 0, 4⟩, ⟨5, 14, rW, 0, 9⟩, ⟨15, 24, gW, 0, 9⟩, ⟨25, 34, bW, 0, 9⟩, ⟨35, 38, rX, 0, 3⟩,
    ⟨39, 39, rW, 10, 10⟩, ⟨40, 40, gZ, 4, 4⟩, ⟨41, 44, gY, 0, 3⟩, ⟨45, 49, gX, 0, 4⟩, ⟨50, 50, gW, 10, 10⟩,
    ⟨51, 54, gZ, 0, 3⟩, ⟨55, 58, bX, 0, 3⟩, ⟨59, 59, bW, 10, 10⟩, ⟨60, 60, bZ, 1, 1⟩, ⟨61, 64, bY, 0, 3⟩,
    ⟨65, 68, rY, 0, 3⟩, ⟨69, 69, bZ, 0, 0⟩, ⟨70, 70, bZ, 2, 2⟩, ⟨71, 74, rZ, 0, 3⟩, ⟨75, 75, gY, 4, 4⟩,
    ⟨76, 76, bZ, 3, 3⟩, ⟨77, 81, .d, 0, 4⟩ ]

/-- The bit layout of mode 5 (R382). -/
def layout5 : List BitRun :=
  [ ⟨0, 4, .m, 0, 4⟩, ⟨5, 14, rW, 0, 9⟩, ⟨15, 24, gW, 0, 9⟩, ⟨25, 34, bW, 0, 9⟩, ⟨35, 38, rX, 0, 3⟩,
    ⟨39, 39, rW, 10, 10⟩, ⟨40, 40, bY, 4, 4⟩, ⟨41, 44, gY, 0, 3⟩, ⟨45, 48, gX, 0, 3⟩, ⟨49, 49, gW, 10, 10⟩,
    ⟨50, 50, bZ, 0, 0⟩, ⟨51, 54, gZ, 0, 3⟩, ⟨55, 59, bX, 0, 4⟩, ⟨60, 60, bW, 10, 10⟩, ⟨61, 64, bY, 0, 3⟩,
    ⟨65, 68, rY, 0, 3⟩, ⟨69, 70, bZ, 1, 2⟩, ⟨71, 74, rZ, 0, 3⟩, ⟨75, 76, bZ, 4, 3⟩, ⟨77, 81, .d, 0, 4⟩ ]

/-- The bit layout of mode 6 (R382). -/
def layout6 : List BitRun :=
  [ ⟨0, 4, .m, 0, 4⟩, ⟨5, 13, rW, 0, 8⟩, ⟨14, 14, bY, 4, 4⟩, ⟨15, 23, gW, 0, 8⟩, ⟨24, 24, gY, 4, 4⟩,
    ⟨25, 33, bW, 0, 8⟩, ⟨34, 34, bZ, 4, 4⟩, ⟨35, 39, rX, 0, 4⟩, ⟨40, 40, gZ, 4, 4⟩, ⟨41, 44, gY, 0, 3⟩,
    ⟨45, 49, gX, 0, 4⟩, ⟨50, 50, bZ, 0, 0⟩, ⟨51, 54, gZ, 0, 3⟩, ⟨55, 59, bX, 0, 4⟩, ⟨60, 60, bZ, 1, 1⟩,
    ⟨61, 64, bY, 0, 3⟩, ⟨65, 69, rY, 0, 4⟩, ⟨70, 70, bZ, 2, 2⟩, ⟨71, 75, rZ, 0, 4⟩, ⟨76, 76, bZ, 3, 3⟩,
    ⟨77, 81, .d, 0, 4⟩ ]

/-- The bit layout of mode 7 (R382). -/
def layout7 : List BitRun :=
  [ ⟨0, 4, .m, 0, 4⟩, ⟨5, 12, rW, 0, 7⟩, ⟨13, 13, gZ, 4, 4⟩, ⟨14, 14, bY, 4, 4⟩, ⟨15, 22, gW, 0, 7⟩,
    ⟨23, 23, bZ, 2, 2⟩, ⟨24, 24, gY, 4, 4⟩, ⟨25, 32, bW, 0, 7⟩, ⟨33, 34, bZ, 3, 4⟩, ⟨35, 40, rX, 0, 5⟩,
    ⟨41, 44, gY, 0, 3⟩, ⟨45, 49, gX, 0, 4⟩, ⟨50, 50, bZ, 0, 0⟩, ⟨51, 54, gZ, 0, 3⟩, ⟨55, 59, bX, 0, 4⟩,
    ⟨60, 60, bZ, 1, 1⟩, ⟨61, 64, bY, 0, 3⟩, ⟨65, 70, rY, 0, 5⟩, ⟨71, 76, rZ, 0, 5⟩, ⟨77, 81, .d, 0, 4⟩ ]

/-- The bit layout of mode 8 (R382). -/
def layout8 : List BitRun :=
  [ ⟨0, 4, .m, 0, 4⟩, ⟨5, 12, rW, 0, 7⟩, ⟨13, 13, bZ, 0, 0⟩, ⟨14, 14, bY, 4, 4⟩, ⟨15, 22, gW, 0, 7⟩,
    ⟨23, 24, gY, 5, 4⟩, ⟨25, 32, bW, 0, 7⟩, ⟨33, 33, gZ, 5, 5⟩, ⟨34, 34, bZ, 4, 4⟩, ⟨35, 39, rX, 0, 4⟩,
    ⟨40, 40, gZ, 4, 4⟩, ⟨41, 44, gY, 0, 3⟩, ⟨45, 50, gX, 0, 5⟩, ⟨51, 54, gZ, 0, 3⟩, ⟨55, 59, bX, 0, 4⟩,
    ⟨60, 60, bZ, 1, 1⟩, ⟨61, 64, bY, 0, 3⟩, ⟨65, 69, rY, 0, 4⟩, ⟨70, 70, bZ, 2, 2⟩, ⟨71, 75, rZ, 0, 4⟩,
    ⟨76, 76, bZ, 3, 3⟩, ⟨77, 81, .d, 0, 4⟩ ]

/-- The bit layout of mode 9 (R382). -/
def layout9 : List BitRun :=
  [ ⟨0, 4, .m, 0, 4⟩, ⟨5, 12, rW, 0, 7⟩, ⟨13, 13, bZ, 1, 1⟩, ⟨14, 14, bY, 4, 4⟩, ⟨15, 22, gW, 0, 7⟩,
    ⟨23, 23, bY, 5, 5⟩, ⟨24, 24, gY, 4, 4⟩, ⟨25, 32, bW, 0, 7⟩, ⟨33, 34, bZ, 5, 4⟩, ⟨35, 39, rX, 0, 4⟩,
    ⟨40, 40, gZ, 4, 4⟩, ⟨41, 44, gY, 0, 3⟩, ⟨45, 49, gX, 0, 4⟩, ⟨50, 50, bZ, 0, 0⟩, ⟨51, 54, gZ, 0, 3⟩,
    ⟨55, 60, bX, 0, 5⟩, ⟨61, 64, bY, 0, 3⟩, ⟨65, 69, rY, 0, 4⟩, ⟨70, 70, bZ, 2, 2⟩, ⟨71, 75, rZ, 0, 4⟩,
    ⟨76, 76, bZ, 3, 3⟩, ⟨77, 81, .d, 0, 4⟩ ]

/-- The bit layout of mode 10 (R382). -/
def layout10 : List BitRun :=
  [ ⟨0, 4, .m, 0, 4⟩, ⟨5, 10, rW, 0, 5⟩, ⟨11, 11, gZ, 4, 4⟩, ⟨12, 13, bZ, 0, 1⟩, ⟨14, 14, bY, 4, 4⟩,
    ⟨15, 20, gW, 0, 5⟩, ⟨21, 21, gY, 5, 5⟩, ⟨22, 22, bY, 5, 5⟩, ⟨23, 23, bZ, 2, 2⟩, ⟨24, 24, gY, 4, 4⟩,
    ⟨25, 30, bW, 0, 5⟩, ⟨31, 31, gZ, 5, 5⟩, ⟨32, 32, bZ, 3, 3⟩, ⟨33, 34, bZ, 5, 4⟩, ⟨35, 40, rX, 0, 5⟩,
    ⟨41, 44, gY, 0, 3⟩, ⟨45, 50, gX, 0, 5⟩, ⟨51, 54, gZ, 0, 3⟩, ⟨55, 60, bX, 0, 5⟩, ⟨61, 64, bY, 0, 3⟩,
    ⟨65, 70, rY, 0, 5⟩, ⟨71, 76, rZ, 0, 5⟩, ⟨77, 81, .d, 0, 4⟩ ]

/-- The bit layout of mode 11 (R382). -/
def layout11 : List BitRun :=
  [ ⟨0, 4, .m, 0, 4⟩, ⟨5, 14, rW, 0, 9⟩, ⟨15, 24, gW, 0, 9⟩, ⟨25, 34, bW, 0, 9⟩, ⟨35, 44, rX, 0, 9⟩,
    ⟨45, 54, gX, 0, 9⟩, ⟨55, 64, bX, 0, 9⟩ ]

/-- The bit layout of mode 12 (R382). -/
def layout12 : List BitRun :=
  [ ⟨0, 4, .m, 0, 4⟩, ⟨5, 14, rW, 0, 9⟩, ⟨15, 24, gW, 0, 9⟩, ⟨25, 34, bW, 0, 9⟩, ⟨35, 43, rX, 0, 8⟩,
    ⟨44, 44, rW, 10, 10⟩, ⟨45, 53, gX, 0, 8⟩, ⟨54, 54, gW, 10, 10⟩, ⟨55, 63, bX, 0, 8⟩, ⟨64, 64, bW, 10, 10⟩ ]

/-- The bit layout of mode 13 (R382). -/
def layout13 : List BitRun :=
  [ ⟨0, 4, .m, 0, 4⟩, ⟨5, 14, rW, 0, 9⟩, ⟨15, 24, gW, 0, 9⟩, ⟨25, 34, bW, 0, 9⟩, ⟨35, 42, rX, 0, 7⟩,
    ⟨43, 44, rW, 11, 10⟩, ⟨45, 52, gX, 0, 7⟩, ⟨53, 54, gW, 11, 10⟩, ⟨55, 62, bX, 0, 7⟩, ⟨63, 64, bW, 11, 10⟩ ]

/-- The bit layout of mode 14 (R382). -/
def layout14 : List BitRun :=
  [ ⟨0, 4, .m, 0, 4⟩, ⟨5, 14, rW, 0, 9⟩, ⟨15, 24, gW, 0, 9⟩, ⟨25, 34, bW, 0, 9⟩, ⟨35, 38, rX, 0, 3⟩,
    ⟨39, 44, rW, 15, 10⟩, ⟨45, 48, gX, 0, 3⟩, ⟨49, 54, gW, 15, 10⟩, ⟨55, 58, bX, 0, 3⟩, ⟨59, 64, bW, 15, 10⟩ ]

/-- The two-region modes 1 to 10 (R380). -/
def twoRegionModes : List Mode6H :=
  [ ⟨1, 0x00, 1, true, 3, ⟨10, 10, 10⟩, ⟨5, 5, 5⟩, layout1⟩,
    ⟨2, 0x01, 1, true, 3, ⟨7, 7, 7⟩, ⟨6, 6, 6⟩, layout2⟩,
    ⟨3, 0x02, 1, true, 3, ⟨11, 11, 11⟩, ⟨5, 4, 4⟩, layout3⟩,
    ⟨4, 0x06, 1, true, 3, ⟨11, 11, 11⟩, ⟨4, 5, 4⟩, layout4⟩,
    ⟨5, 0x0A, 1, true, 3, ⟨11, 11, 11⟩, ⟨4, 4, 5⟩, layout5⟩,
    ⟨6, 0x0E, 1, true, 3, ⟨9, 9, 9⟩, ⟨5, 5, 5⟩, layout6⟩,
    ⟨7, 0x12, 1, true, 3, ⟨8, 8, 8⟩, ⟨6, 5, 5⟩, layout7⟩,
    ⟨8, 0x16, 1, true, 3, ⟨8, 8, 8⟩, ⟨5, 6, 5⟩, layout8⟩,
    ⟨9, 0x1A, 1, true, 3, ⟨8, 8, 8⟩, ⟨5, 5, 6⟩, layout9⟩,
    ⟨10, 0x1E, 1, false, 3, ⟨6, 6, 6⟩, ⟨6, 6, 6⟩, layout10⟩ ]

/-- The one-region modes 11 to 14 (R380). -/
def oneRegionModes : List Mode6H :=
  [ ⟨11, 0x03, 0, false, 4, ⟨10, 10, 10⟩, ⟨10, 10, 10⟩, layout11⟩,
    ⟨12, 0x07, 0, true, 4, ⟨11, 11, 11⟩, ⟨9, 9, 9⟩, layout12⟩,
    ⟨13, 0x0B, 0, true, 4, ⟨12, 12, 12⟩, ⟨8, 8, 8⟩, layout13⟩,
    ⟨14, 0x0F, 0, true, 4, ⟨16, 16, 16⟩, ⟨4, 4, 4⟩, layout14⟩ ]

/-- The 14 modes (R380). -/
def modes6H : List Mode6H := twoRegionModes ++ oneRegionModes

/-! Each row of the shape tables is written as the spec prints it, pixel 0 first, four pixels to a group, as one number of sixteen decimal digits. -/

/-- Two-region shapes 0 to 15 (R384). -/
def shapes2Part0 : List Nat :=
  [ 0011_0011_0011_0011, 0001_0001_0001_0001, 0111_0111_0111_0111, 0001_0011_0011_0111,
    0000_0001_0001_0011, 0011_0111_0111_1111, 0001_0011_0111_1111, 0000_0001_0011_0111,
    0000_0000_0001_0011, 0011_0111_1111_1111, 0000_0001_0111_1111, 0000_0000_0001_0111,
    0001_0111_1111_1111, 0000_0000_1111_1111, 0000_1111_1111_1111, 0000_0000_0000_1111 ]

/-- Two-region shapes 16 to 31 (R384). -/
def shapes2Part1 : List Nat :=
  [ 0000_1000_1110_1111, 0111_0001_0000_0000, 0000_0000_1000_1110, 0111_0011_0001_0000,
    0011_0001_0000_0000, 0000_1000_1100_1110, 0000_0000_1000_1100, 0111_0011_0011_0001,
    0011_0001_0001_0000, 0000_1000_1000_1100, 0110_0110_0110_0110, 0011_0110_0110_1100,
    0001_0111_1110_1000, 0000_1111_1111_0000, 0111_0001_1000_1110, 0011_1001_1001_1100 ]

/-- Two-region shapes 32 to 47 (R384). -/
def shapes2Part2 : List Nat :=
  [ 0101_0101_0101_0101, 0000_1111_0000_1111, 0101_1010_0101_1010, 0011_0011_1100_1100,
    0011_1100_0011_1100, 0101_0101_1010_1010, 0110_1001_0110_1001, 0101_1010_1010_0101,
    0111_0011_1100_1110, 0001_0011_1100_1000, 0011_0010_0100_1100, 0011_1011_1101_1100,
    0110_1001_1001_0110, 0011_1100_1100_0011, 0110_0110_1001_1001, 0000_0110_0110_0000 ]

/-- Two-region shapes 48 to 63 (R384). -/
def shapes2Part3 : List Nat :=
  [ 0100_1110_0100_0000, 0010_0111_0010_0000, 0000_0010_0111_0010, 0000_0100_1110_0100,
    0110_1100_1001_0011, 0011_0110_1100_1001, 0110_0011_1001_1100, 0011_1001_1100_0110,
    0110_1100_1100_1001, 0110_0011_0011_1001, 0111_1110_1000_0001, 0001_1000_1110_0111,
    0000_1111_0011_0011, 0011_0011_1111_0000, 0010_0010_1110_1110, 0100_0100_0111_0111 ]

/-- `P2`, the 64 two-region shapes (R384). -/
def shapes2 : List Nat := shapes2Part0 ++ shapes2Part1 ++ shapes2Part2 ++ shapes2Part3

/-- Digit `i` of a row of sixteen decimal digits, the first being digit 0. -/
def rowDigit (row i : Nat) : Nat := row / 10 ^ (15 - i) % 10

/-- `P2[shape][i]`: the region of pixel `i` under two-region shape `shape` (R384). -/
def region2 (shape i : Nat) : Nat := rowDigit (shapes2.getD shape 0) i

/-- `A2`, the fix-up pixel of region 1 for each two-region shape (R385). -/
def fixups2 : List Nat :=
  [ 15, 15, 15, 15, 15, 15, 15, 15,
    15, 15, 15, 15, 15, 15, 15, 15,
    15, 2, 8, 2, 2, 8, 8, 15,
    2, 8, 2, 2, 8, 8, 2, 2,
    15, 15, 6, 8, 2, 8, 15, 15,
    2, 8, 2, 2, 2, 15, 15, 6,
    6, 2, 6, 8, 15, 15, 2, 2,
    15, 15, 15, 15, 15, 2, 2, 15 ]

/-- `A2[shape]` (R385). -/
def fixup2 (shape : Nat) : Nat := fixups2.getD shape 0

/-- `W3`, the weights of 3-bit indices (R386). -/
def weights3 : List Nat := [0, 9, 18, 27, 37, 46, 55, 64]

/-- `W4`, the weights of 4-bit indices (R386). -/
def weights4 : List Nat := [0, 4, 9, 13, 17, 21, 26, 30, 34, 38, 43, 47, 51, 55, 60, 64]

/-- `W2`, the weights of 2-bit indices (R494). -/
def weights2 : List Nat := [0, 21, 43, 64]

/-- The weight of index `k` of width `ip` (R386, R494). -/
def weight (ip k : Nat) : Nat := (if ip = 2 then weights2 else if ip = 3 then weights3 else weights4).getD k 0

end Sys2Proof.Machine
end

