-- ==== Sys2Proof/Machine/Bc6h.lean ====
section
/-! DEFINITION. DEC.BC6HU and DEC.BC6HS (45_bc6h_decode.md). Integer arithmetic is exact; division by a positive number is floor division, so `/ 2^k` is the arithmetic shift of R10. -/

namespace Sys2Proof.Machine

/-! ### Mode and header -/

/-- The mode selector: two bits, or five when the first two are 2 or 3 (R331). -/
def selector6H (b : Block) : Nat := if fld b 0 2 < 2 then fld b 0 2 else fld b 0 2 + 4 * fld b 2 3

/-- The mode of a selector; the four reserved selectors have none (R332, R333). -/
def mode6H (sel : Nat) : Option Mode6H := modes6H.find? fun M => M.sel == sel

/-- The number of header bits `H(M)` (R334). -/
def headerBits6H (M : Mode6H) : Nat := if M.parts = 1 then 82 else 65

/-- The value a run contributes to its field: its block bits at their places in the field (R334). -/
def runValue (b : Block) (run : BitRun) : Nat :=
  (List.range' run.lo (run.hi + 1 - run.lo)).foldl (fun acc p => acc ||| (bit b p) <<< run.fieldBit p) 0

/-- The raw integer of a header field: the scatter of R334. -/
def scatter6H (b : Block) (layout : List BitRun) (f : Field6H) : Nat :=
  layout.foldl (fun acc run => if run.field = f then acc ||| runValue b run else acc) 0

/-- The shape: the field `d` in a two-region mode, else 0 (R334). -/
def shape6H (M : Mode6H) (b : Block) : Nat := if M.parts = 1 then scatter6H b M.layout .d else 0

/-! ### Endpoints -/

/-- `sext_n(v)`: the low `n` bits of `v` as a two's-complement number, `n ≥ 1` (R10, R146). -/
def sext (n : Nat) (v : Int) : Int :=
  let low := v % 2 ^ n
  if 2 ^ (n - 1) ≤ low then low - 2 ^ n else low

/-- The component of a triple. -/
def comp {α : Type} (t : Triple α) : Comp → α
  | .r => t.r
  | .g => t.g
  | .b => t.b

/-- The stored precision of component `c` of endpoint `e` (R330, R380). -/
def prec6H (M : Mode6H) (e : EndpointId) (c : Comp) : Nat := if e = .w then comp M.precW c else comp M.precX c

/-- The stored component, sign-extended for the anchor in the signed format, for the others also in a transformed mode (R335, R336). -/
def stored6H (M : Mode6H) (b : Block) (signed : Bool) (e : EndpointId) (c : Comp) : Int :=
  let raw : Int := scatter6H b M.layout (.ep c e)
  if signed ∨ (e ≠ .w ∧ M.tr) then sext (prec6H M e c) raw else raw

/-- The endpoint component after the inverse delta transform (R337). -/
def endpoint6H (M : Mode6H) (b : Block) (signed : Bool) (e : EndpointId) (c : Comp) : Int :=
  if e ≠ .w ∧ M.tr then
    let n := comp M.precW c
    let wrapped := (stored6H M b signed e c + stored6H M b signed .w c) % 2 ^ n
    if signed then sext n wrapped else wrapped
  else stored6H M b signed e c

/-- The endpoints a mode has (R330). -/
def endpointIds (M : Mode6H) : List EndpointId := if M.parts = 1 then [.w, .x, .y, .z] else [.w, .x]

/-! ### Indices -/

/-- The region of pixel `i` (R338, R384). -/
def region6H (parts shape i : Nat) : Nat := if parts = 1 then region2 shape i else 0

/-- Pixel `i` is the fix-up pixel of a region (R338, R385). -/
def isFixup6H (parts shape i : Nat) : Bool := i == 0 || (parts == 1 && i == fixup2 shape)

/-- The width of the index of pixel `i`: one bit less at a fix-up pixel (R338). -/
def indexWidth (ip : Nat) (fix : Nat → Bool) (i : Nat) : Nat := if fix i then ip - 1 else ip

/-- The block bit where the index of pixel `i` starts, the index of pixel 0 starting at `start` (R338). -/
def indexPos (start ip : Nat) (fix : Nat → Bool) : Nat → Nat
  | 0 => start
  | i + 1 => indexPos start ip fix i + indexWidth ip fix i

/-- The index of pixel `i` (R338). -/
def indexAt (b : Block) (start ip : Nat) (fix : Nat → Bool) (i : Nat) : Nat :=
  fld b (indexPos start ip fix i) (indexWidth ip fix i)

/-- The index of pixel `i` of a BC6H block (R338). -/
def index6H (M : Mode6H) (b : Block) (i : Nat) : Nat :=
  indexAt b (headerBits6H M) M.ip (isFixup6H M.parts (shape6H M b)) i

/-! ### From endpoints to halves -/

/-- `UnqU` (R339). -/
def unquantU (v : Int) (n : Nat) : Int :=
  if 15 ≤ n then v
  else if v = 0 then 0
  else if v = 2 ^ n - 1 then 0xFFFF
  else (v * 2 ^ 16 + 0x8000) / 2 ^ n

/-- `UnqS` (R340). -/
def unquantS (v : Int) (n : Nat) : Int :=
  if 16 ≤ n then v
  else
    let a := |v|
    let u : Int := if a = 0 then 0 else if 2 ^ (n - 1) - 1 ≤ a then 0x7FFF else (a * 2 ^ 15 + 0x4000) / 2 ^ (n - 1)
    if v < 0 then -u else u

/-- `Unq` of the format (R345, R346). -/
def unquant (signed : Bool) (v : Int) (n : Nat) : Int := if signed then unquantS v n else unquantU v n

/-- The interpolation (R341); the shift is arithmetic. -/
def interp6H (a b : Int) (wt : Nat) : Int := (a * (64 - wt) + b * wt + 32) / 64

/-- The final rescale: 31/64 unsigned, 31/32 of the magnitude signed (R342). -/
def rescale6H (signed : Bool) (t : Int) : Int :=
  if signed then (if 0 ≤ t then t * 31 / 32 else -(-t * 31 / 32)) else t * 31 / 64

/-- The palette integer of two endpoint components of precision `n` at weight `wt` (R339 to R342). -/
def paletteInt (signed : Bool) (n : Nat) (a b : Int) (wt : Nat) : Int :=
  rescale6H signed (interp6H (unquant signed a n) (unquant signed b n) wt)

/-- The half pattern of a palette integer: sign and magnitude (R343). -/
def halfOfInt (u : Int) : Half := BitVec.ofNat 16 (if 0 ≤ u then u.toNat else 0x8000 + (-u).toNat)

/-- The palette integer of component `c` of pixel `i` (R338, R341, R342). -/
def pixelInt6H (M : Mode6H) (b : Block) (signed : Bool) (i : Nat) (c : Comp) : Int :=
  let second := region6H M.parts (shape6H M b) i = 1
  let A := endpoint6H M b signed (if second then .y else .w) c
  let B := endpoint6H M b signed (if second then .z else .x) c
  paletteInt signed (comp M.precW c) A B (weight M.ip (index6H M b i))

/-- The three palette integers of pixel `i` (R341, R342). -/
def pixelColour6H (M : Mode6H) (b : Block) (signed : Bool) (i : Nat) : IntColor :=
  ⟨pixelInt6H M b signed i .r, pixelInt6H M b signed i .g, pixelInt6H M b signed i .b⟩

/-- The channel words of pixel `i` (R343): the halves widened to binary32, alpha 1. -/
def bc6hPixel (cfg : Config) (M : Mode6H) (b : Block) (signed : Bool) (i : Nat) : Pixel :=
  let u := pixelColour6H M b signed i
  ⟨halfToChan cfg (halfOfInt u.r), halfToChan cfg (halfOfInt u.g), halfToChan cfg (halfOfInt u.b), toChan cfg 1⟩

/-! ### The commands -/

/-- Opaque black (R332). -/
def opaqueBlack : Rgba := ⟨0, 0, 0, 1⟩

/-- A BC6H decode: a reserved selector gives opaque black and one diagnostic, every other selector the pixels of its mode (R332, R345, R346). -/
def decodeBc6h (cfg : Config) (fmt : Format) (signed : Bool) (s : State) : State :=
  let b := s.formatBlock cfg fmt
  match mode6H (selector6H b) with
  | none => (decodeTo cfg s fun _ => opaqueBlack).diag bc6hReservedMode
  | some M => s.setTile (bc6hPixel cfg M b signed)

/-- DEC.BC6HU at a configuration (R345). -/
def decBc6huIn (cfg : Config) (s : State) : Host.Outcome State Fault Refusal := .next (decodeBc6h cfg .bc6hu false s)

/-- DEC.BC6HS at a configuration (R346). -/
def decBc6hsIn (cfg : Config) (s : State) : Host.Outcome State Fault Refusal := .next (decodeBc6h cfg .bc6hs true s)

/-- DEC.BC6HU (R345). -/
def execDecBc6hu (s : State) : Host.Outcome State Fault Refusal := decBc6huIn config s

/-- DEC.BC6HS (R346). -/
def execDecBc6hs (s : State) : Host.Outcome State Fault Refusal := decBc6hsIn config s

end Sys2Proof.Machine
end

