-- ==== Sys2Proof/Machine/Bc6hEnc.lean ====
section
/-! DEFINITION. ENC.BC6HU and ENC.BC6HS (47_bc6h_encode.md). Which candidates the search examines is a free function of the configuration; the steps that make a candidate of endpoints, the choice of the best, the contract of R423 and the witness instance of R424 are defined in full. -/

namespace Sys2Proof.Machine

/-! ### Input conversion -/

/-- `HalfToInt(h, signed)` (R401). -/
def halfToInt (signed : Bool) (h : Half) : Int :=
  let mag : Int := min (h.toNat % 0x8000) 0x7BFF
  if h.getLsbD 15 then (if signed then -mag else 0) else mag

/-- The `IntColor` of a pixel (R401); alpha is not read. -/
def intColour (cfg : Config) (signed : Bool) (px : Pixel) : IntColor :=
  (rgbOf px).map fun w => halfToInt signed (cfg.f32toF16 w)

/-- `V[0..15]` (R401). -/
def State.intColours (s : State) (cfg : Config) (signed : Bool) : List IntColor := s.tile.map (intColour cfg signed)

/-! ### Emission (R413) -/

/-- A candidate of the search: the shape, the endpoint fields as they are stored, and the sixteen indices. -/
structure Cand6H where
  shape : Nat
  stored : EndpointId → Triple Int
  indices : List Nat

/-- The value of a header field of a candidate (R413): an endpoint component in the two's complement of its stored width. -/
def candField (M : Mode6H) (cand : Cand6H) : Field6H → Nat
  | .m => M.sel
  | .d => cand.shape
  | .ep c e => (comp (cand.stored e) c % 2 ^ prec6H M e c).toNat

/-- The header as a field list: block bit `p` holds the field bit the layout gives it (R413). -/
def headerFields (M : Mode6H) (cand : Cand6H) : List (Nat × Nat) :=
  M.layout.flatMap fun run =>
    (List.range' run.lo (run.hi + 1 - run.lo)).map fun p => (candField M cand run.field >>> run.fieldBit p % 2, 1)

/-- The indices as a field list, one bit less at a fix-up pixel (R413). -/
def indexFields (ip : Nat) (fix : Nat → Bool) (indices : List Nat) : List (Nat × Nat) :=
  indices.mapIdx fun i k => (k, indexWidth ip fix i)

/-- The block of a candidate (R413). -/
def emit6H (M : Mode6H) (cand : Cand6H) : Block :=
  BitVec.ofNat 128 (packFields (headerFields M cand ++ indexFields M.ip (isFixup6H M.parts cand.shape) cand.indices))

/-! ### The error metric (R414) -/

/-- The squared distance of two integer colours (R414). -/
def dist6H (u v : IntColor) : Int := (u.r - v.r) ^ 2 + (u.g - v.g) ^ 2 + (u.b - v.b) ^ 2

/-- The error of a block of mode `M` on a tile (R414). -/
def error6H (M : Mode6H) (b : Block) (signed : Bool) (V : List IntColor) : Int :=
  (V.mapIdx fun i v => dist6H (pixelColour6H M b signed i) v).sum

/-! ### A candidate of given quantised endpoints (R404, R407 to R410) -/

/-- The quantiser of R407; `0x7C00 = 31744`. -/
def quant6H (signed : Bool) (v : Int) (n : Nat) : Int :=
  if signed then
    (if 16 ≤ n then v else if v < 0 then -(-v * 2 ^ (n - 1) / 0x7C00) else v * 2 ^ (n - 1) / 0x7C00)
  else (if 15 ≤ n then v else v * 2 ^ n / 0x7C00)

/-- Endpoint A of region `r` (R330). -/
def endA (r : Nat) : EndpointId := if r = 1 then .y else .w

/-- Endpoint B of region `r` (R330). -/
def endB (r : Nat) : EndpointId := if r = 1 then .z else .x

/-- The palette that the decoder makes of the quantised endpoints of region `r` (R408). -/
def palette6H (M : Mode6H) (signed : Bool) (E : EndpointId → IntColor) (r : Nat) : List IntColor :=
  (List.range (2 ^ M.ip)).map fun k =>
    ⟨paletteInt signed M.precW.r (E (endA r)).r (E (endB r)).r (weight M.ip k),
      paletteInt signed M.precW.g (E (endA r)).g (E (endB r)).g (weight M.ip k),
      paletteInt signed M.precW.b (E (endA r)).b (E (endB r)).b (weight M.ip k)⟩

/-- The smallest index of the least integer of a list (R408, R424). -/
def argMinZ (l : List Int) : Nat :=
  match l with
  | [] => 0
  | x :: rest => bestFrom (fun a b => decide (a < b)) 1 0 x rest

/-- Each pixel takes the index of the nearest palette entry of its region, ties to the lowest (R404, R408). -/
def assign6H (M : Mode6H) (signed : Bool) (shape : Nat) (E : EndpointId → IntColor) (V : List IntColor) : List Nat :=
  V.mapIdx fun i v => argMinZ ((palette6H M signed E (region6H M.parts shape i)).map fun u => dist6H u v)

/-- The index of the fix-up pixel of region `r` has its top bit set, so the region's endpoints change places (R409). -/
def flips6H (M : Mode6H) (shape : Nat) (indices : List Nat) (r : Nat) : Bool :=
  decide (2 ^ (M.ip - 1) ≤ indices.getD (if r = 1 then fixup2 shape else 0) 0)

/-- The endpoints after the fix-up step (R409). -/
def fixedEndpoints6H (M : Mode6H) (shape : Nat) (indices : List Nat) (E : EndpointId → IntColor) : EndpointId → IntColor
  | .w => if flips6H M shape indices 0 then E .x else E .w
  | .x => if flips6H M shape indices 0 then E .w else E .x
  | .y => if flips6H M shape indices 1 then E .z else E .y
  | .z => if flips6H M shape indices 1 then E .y else E .z

/-- The indices after the fix-up step (R409). -/
def fixedIndices6H (M : Mode6H) (shape : Nat) (indices : List Nat) : List Nat :=
  indices.mapIdx fun i k => if flips6H M shape indices (region6H M.parts shape i) then 2 ^ M.ip - 1 - k else k

/-- The delta transform: in a transformed mode every endpoint but the anchor is stored as its difference from the anchor (R410). -/
def transform6H (M : Mode6H) (E : EndpointId → IntColor) (e : EndpointId) : IntColor :=
  if e ≠ .w ∧ M.tr then Triple.map₂ (· - ·) (E e) (E .w) else E e

/-- An integer fits a stored field of `n` bits, unsigned or two's complement (R410). -/
def fitsField (twos : Bool) (n : Nat) (v : Int) : Bool :=
  if twos then decide (-2 ^ (n - 1) ≤ v) && decide (v < 2 ^ (n - 1)) else decide (0 ≤ v) && decide (v < 2 ^ n)

/-- The candidate fits the mode's declared widths (R410). -/
def fits6H (M : Mode6H) (signed : Bool) (cand : Cand6H) : Bool :=
  (endpointIds M).all fun e => [Comp.r, .g, .b].all fun c =>
    fitsField (signed || (e != .w && M.tr)) (prec6H M e c) (comp (cand.stored e) c)

/-- The candidate of a mode, a shape and quantised endpoints: indices, fix-up step, transform (R408 to R410). -/
def candidate6H (M : Mode6H) (signed : Bool) (shape : Nat) (E : EndpointId → IntColor) (V : List IntColor) : Cand6H :=
  let indices := assign6H M signed shape E V
  ⟨shape, transform6H M (fixedEndpoints6H M shape indices E), fixedIndices6H M shape indices⟩

/-! ### The witness instance (R424) -/

/-- The least and greatest integer of a list, 0 if it is empty. -/
def minMaxZ : List Int → Int × Int
  | [] => (0, 0)
  | x :: rest => (rest.foldl min x, rest.foldl max x)

/-- The quantised bounding corners of one component (R424). -/
def corner6H (signed : Bool) (V : List Int) : Int × Int :=
  (quant6H signed (minMaxZ V).1 10, quant6H signed (minMaxZ V).2 10)

/-- Mode 11 (R380). -/
def mode11 : Mode6H := ⟨11, 0x03, 0, false, 4, ⟨10, 10, 10⟩, ⟨10, 10, 10⟩, layout11⟩

/-- The candidate of the witness: mode 11 with the quantised bounding corners (R424). -/
def witness6H (V : List IntColor) (signed : Bool) : Cand6H :=
  let cr := corner6H signed (V.map (·.r))
  let cg := corner6H signed (V.map (·.g))
  let cb := corner6H signed (V.map (·.b))
  candidate6H mode11 signed 0 (fun e => if e = .w then ⟨cr.1, cg.1, cb.1⟩ else ⟨cr.2, cg.2, cb.2⟩) V

/-- `Enc6H_base(V, signed)` (R424). -/
def enc6HBase (V : List IntColor) (signed : Bool) : Block := emit6H mode11 (witness6H V signed)

/-! ### The search (R402, R412) and its contract (R423) -/

/-- The best of a sequence of candidates: a later one replaces the best so far only when its error is strictly smaller (R412). -/
def bestSoFar (err : Block → Int) : Block → List Block → Block
  | best, [] => best
  | best, b :: rest => if err b < err best then bestSoFar err b rest else bestSoFar err best rest

/-- The candidate a search keeps of those it examines, the witness examined last; the first candidate is always taken (R412). -/
def keepBest (err : Block → Int) (examined : List Block) (witness : Block) : Block :=
  match examined with
  | [] => witness
  | b :: rest => bestSoFar err b (rest ++ [witness])

/-- The error of a block on a tile, read by the decoder's own rules (R414, R423 item 2); a block without a mode is never kept. -/
def blockError6H (signed : Bool) (V : List IntColor) (b : Block) : Int :=
  match mode6H (selector6H b) with
  | none => 0
  | some M => error6H M b signed V

/-- A block the search may keep: it has a mode (R423 item 1), and in the signed format no decoded endpoint component is -2^15 (item 5). -/
def admissible6H (signed : Bool) (b : Block) : Bool :=
  match mode6H (selector6H b) with
  | none => false
  | some M => !signed || (endpointIds M).all fun e => [Comp.r, .g, .b].all fun c => endpoint6H M b signed e c != -2 ^ 15

/-- `Enc6H(V, signed)`: the best of the candidates that the free search examines and of the witness. Items 1 to 5 of R423 hold by construction, and every function that keeps them is of this form, so nothing more is known of `Enc6H` (D18, log 8). -/
def enc6H (cfg : Config) (V : List IntColor) (signed : Bool) : Block :=
  keepBest (blockError6H signed V) ((cfg.search6H V signed).filter (admissible6H signed)) (enc6HBase V signed)

/-! ### The commands -/

/-- ENC.BC6HU at a configuration (R420). -/
def encBc6huIn (cfg : Config) (s : State) : Host.Outcome State Fault Refusal :=
  encodeOr (s.finiteChans cfg [.r, .g, .b]) .encBc6hu s (s.writeFormat cfg .bc6hu (enc6H cfg (s.intColours cfg false) false).toNat)

/-- ENC.BC6HS at a configuration (R421). -/
def encBc6hsIn (cfg : Config) (s : State) : Host.Outcome State Fault Refusal :=
  encodeOr (s.finiteChans cfg [.r, .g, .b]) .encBc6hs s (s.writeFormat cfg .bc6hs (enc6H cfg (s.intColours cfg true) true).toNat)

/-- ENC.BC6HU (R420). -/
def execEncBc6hu (s : State) : Host.Outcome State Fault Refusal := encBc6huIn config s

/-- ENC.BC6HS (R421). -/
def execEncBc6hs (s : State) : Host.Outcome State Fault Refusal := encBc6hsIn config s

end Sys2Proof.Machine
end

