-- ==== Sys2Proof/Machine/Bc7Tables.lean ====
section
/-! DEFINITION. The BC7 tables (49_bc7_tables.md): modes, three-region shapes, fix-up pixels. ROM, never written (10_state.md R32). The numbers are the spec's, which marks them as general knowledge (G16, G19; log 15). -/

namespace Sys2Proof.Machine

/-- A BC7 mode record (R490): regions, shape bits, rotation bits, index-mode bits, stored endpoint precision per channel, number of P-bits, precision with the P-bit, primary and secondary index bits. -/
structure Mode7 where
  num : Nat
  ns : Nat
  pb : Nat
  rb : Nat
  ib : Nat
  cp : Quad Nat
  np : Nat
  cpp : Quad Nat
  ip : Nat
  ip2 : Nat
deriving DecidableEq, Repr

/-- The eight modes (R490). -/
def modes7 : List Mode7 :=
  [ ⟨0, 3, 4, 0, 0, ⟨4, 4, 4, 0⟩, 6, ⟨5, 5, 5, 0⟩, 3, 0⟩,
    ⟨1, 2, 6, 0, 0, ⟨6, 6, 6, 0⟩, 2, ⟨7, 7, 7, 0⟩, 3, 0⟩,
    ⟨2, 3, 6, 0, 0, ⟨5, 5, 5, 0⟩, 0, ⟨5, 5, 5, 0⟩, 2, 0⟩,
    ⟨3, 2, 6, 0, 0, ⟨7, 7, 7, 0⟩, 4, ⟨8, 8, 8, 0⟩, 2, 0⟩,
    ⟨4, 1, 0, 2, 1, ⟨5, 5, 5, 6⟩, 0, ⟨5, 5, 5, 6⟩, 2, 3⟩,
    ⟨5, 1, 0, 2, 0, ⟨7, 7, 7, 8⟩, 0, ⟨7, 7, 7, 8⟩, 2, 2⟩,
    ⟨6, 1, 0, 0, 0, ⟨7, 7, 7, 7⟩, 2, ⟨8, 8, 8, 8⟩, 4, 0⟩,
    ⟨7, 2, 6, 0, 0, ⟨5, 5, 5, 5⟩, 4, ⟨6, 6, 6, 6⟩, 2, 0⟩ ]

/-- Three-region shapes 0 to 15 (R492), each row sixteen decimal digits, pixel 0 first. -/
def shapes3Part0 : List Nat :=
  [ 0011_0011_0221_2222, 0001_0011_2211_2221, 0000_2001_2211_2211, 0222_0022_0011_0111,
    0000_0000_1122_1122, 0011_0011_0022_0022, 0022_0022_1111_1111, 0011_0011_2211_2211,
    0000_0000_1111_2222, 0000_1111_1111_2222, 0000_1111_2222_2222, 0012_0012_0012_0012,
    0112_0112_0112_0112, 0122_0122_0122_0122, 0011_0112_1122_1222, 0011_2001_2200_2220 ]

/-- Three-region shapes 16 to 31 (R492), each row sixteen decimal digits, pixel 0 first. -/
def shapes3Part1 : List Nat :=
  [ 0001_0011_0112_1122, 0111_0011_2001_2200, 0000_1122_1122_1122, 0022_0022_0022_1111,
    0111_0111_0222_0222, 0001_0001_2221_2221, 0000_0011_0122_0122, 0000_1100_2210_2210,
    0122_0122_0011_0000, 0012_0012_1122_2222, 0110_1221_1221_0110, 0000_0110_1221_1221,
    0022_1102_1102_0022, 0110_0110_2002_2222, 0011_0122_0122_0011, 0000_2000_2211_2221 ]

/-- Three-region shapes 32 to 47 (R492), each row sixteen decimal digits, pixel 0 first. -/
def shapes3Part2 : List Nat :=
  [ 0000_0002_1122_1222, 0222_0022_0012_0011, 0011_0012_0022_0222, 0120_0120_0120_0120,
    0000_1111_2222_0000, 0120_1201_2012_0120, 0120_2012_1201_0120, 0011_2200_1122_0011,
    0011_1122_2200_0011, 0101_0101_2222_2222, 0000_0000_2121_2121, 0022_1122_0022_1122,
    0022_0011_0022_0011, 0220_1221_0220_1221, 0101_2222_2222_0101, 0000_2121_2121_2121 ]

/-- Three-region shapes 48 to 63 (R492), each row sixteen decimal digits, pixel 0 first. -/
def shapes3Part3 : List Nat :=
  [ 0101_0101_0101_2222, 0222_0111_0222_0111, 0002_1112_0002_1112, 0000_2112_2112_2112,
    0222_0111_0111_0222, 0002_1112_1112_0002, 0110_0110_0110_2222, 0000_0000_2112_2112,
    0110_0110_2222_2222, 0022_0011_0011_0022, 0022_1122_1122_0022, 0000_0000_0000_2112,
    0002_0001_0002_0001, 0222_1222_0222_1222, 0101_2222_2222_2222, 0111_2011_2201_2220 ]

/-- `P3`, the 64 three-region shapes (R492). -/
def shapes3 : List Nat := shapes3Part0 ++ shapes3Part1 ++ shapes3Part2 ++ shapes3Part3

/-- `P3[shape][i]`: the region of pixel `i` under three-region shape `shape` (R492). -/
def region3 (shape i : Nat) : Nat := rowDigit (shapes3.getD shape 0) i

/-- `A3a`, the fix-up pixel of region 1 for each three-region shape (R493). -/
def fixups3a : List Nat :=
  [ 3, 3, 15, 15, 8, 3, 15, 15,
    8, 8, 6, 6, 6, 5, 3, 3,
    3, 3, 8, 15, 3, 3, 6, 10,
    5, 8, 8, 6, 8, 5, 15, 15,
    8, 15, 3, 5, 6, 10, 8, 15,
    15, 3, 15, 5, 15, 15, 15, 15,
    3, 15, 5, 5, 5, 8, 5, 10,
    5, 10, 8, 13, 15, 12, 3, 3 ]

/-- `A3b`, the fix-up pixel of region 2 for each three-region shape (R493). -/
def fixups3b : List Nat :=
  [ 15, 8, 8, 3, 15, 15, 3, 8,
    15, 15, 15, 15, 15, 15, 15, 8,
    15, 8, 15, 3, 15, 8, 15, 8,
    3, 15, 6, 10, 15, 15, 10, 8,
    15, 3, 15, 10, 10, 8, 9, 10,
    6, 15, 8, 15, 3, 6, 6, 8,
    15, 3, 15, 15, 15, 15, 15, 15,
    15, 15, 15, 15, 3, 15, 15, 8 ]

end Sys2Proof.Machine
end

