-- ==== Sys2Proof/Machine/Bc7.lean ====
section
/-! DEFINITION. DEC.BC7 (48_bc7.md R440 to R448). -/

namespace Sys2Proof.Machine

/-! ### Mode and fields -/

/-- The least `p` in `k .. k+n-1` whose block bit is 1. -/
def firstBit (b : Block) (k : Nat) : Nat → Option Nat
  | 0 => none
  | n + 1 => if bit b k = 1 then some k else firstBit b (k + 1) n

/-- The mode: the least set bit among block bits 0..7; none when the first byte is 0 (R442). -/
def mode7 (b : Block) : Option Mode7 := (firstBit b 0 8).bind fun p => modes7[p]?

/-- Where the shape field starts: after the `mode + 1` prefix bits (R442, R443). -/
def shapePos7 (M : Mode7) : Nat := M.num + 1

/-- The shape (R443). -/
def shape7 (M : Mode7) (b : Block) : Nat := fld b (shapePos7 M) M.pb

/-- The rotation (R443). -/
def rot7 (M : Mode7) (b : Block) : Nat := fld b (shapePos7 M + M.pb) M.rb

/-- The index mode (R443). -/
def im7 (M : Mode7) (b : Block) : Nat := fld b (shapePos7 M + M.pb + M.rb) M.ib

/-- The number of endpoints, two per region (R443). -/
def ne7 (M : Mode7) : Nat := 2 * M.ns

/-- Where the stored endpoint channels start (R443). -/
def endpointPos7 (M : Mode7) : Nat := shapePos7 M + M.pb + M.rb + M.ib

/-- The stored bits per endpoint of the channels before `ch` (R443: channel-major). -/
def cpBefore (M : Mode7) : Chan → Nat
  | .r => 0
  | .g => M.cp.r
  | .b => M.cp.r + M.cp.g
  | .a => M.cp.r + M.cp.g + M.cp.b

/-- The stored bits per endpoint of all channels. -/
def cpTotal (M : Mode7) : Nat := M.cp.r + M.cp.g + M.cp.b + M.cp.a

/-- `raw[e].ch` as stored (R443). -/
def raw7 (M : Mode7) (b : Block) (e : Nat) (ch : Chan) : Nat :=
  fld b (endpointPos7 M + ne7 M * cpBefore M ch + e * M.cp.get ch) (M.cp.get ch)

/-- `P[j]` (R443). -/
def pBit7 (M : Mode7) (b : Block) (j : Nat) : Nat := bit b (endpointPos7 M + ne7 M * cpTotal M + j)

/-- The endpoint channel with its P-bit appended where the mode has one (R444). -/
def withPBit7 (M : Mode7) (b : Block) (e : Nat) (ch : Chan) : Nat :=
  if 0 < M.np ∧ M.cpp.get ch ≠ M.cp.get ch then 2 * raw7 M b e ch + pBit7 M b (e * M.np / ne7 M) else raw7 M b e ch

/-- `Unq7(v, n)`: bit replication to 8 bits (R445). -/
def unquant7 (v n : Nat) : Nat := (v <<< (8 - n) ||| v <<< (8 - n) >>> n) % 256

/-- The unquantised endpoint channel; 255 for the alpha of a mode without alpha (R445). -/
def endpoint7 (M : Mode7) (b : Block) (e : Nat) (ch : Chan) : Nat :=
  if M.cpp.get ch = 0 then 255 else unquant7 (withPBit7 M b e ch) (M.cpp.get ch)

/-! ### Indices -/

/-- The region of pixel `i` (R446). -/
def region7 (ns shape i : Nat) : Nat := if ns = 2 then region2 shape i else if ns = 3 then region3 shape i else 0

/-- Pixel `i` is a fix-up pixel of the primary indices (R446). -/
def isFixup7 (ns shape i : Nat) : Bool :=
  i == 0 || (ns == 2 && i == fixup2 shape) || (ns == 3 && (i == fixups3a.getD shape 0 || i == fixups3b.getD shape 0))

/-- Where the primary indices start: after the P-bits (R443). -/
def indexStart7 (M : Mode7) : Nat := endpointPos7 M + ne7 M * cpTotal M + M.np

/-- The primary index of pixel `i` (R446). -/
def index7 (M : Mode7) (b : Block) (i : Nat) : Nat := indexAt b (indexStart7 M) M.ip (isFixup7 M.ns (shape7 M b)) i

/-- Where the secondary indices start: after the `16·ip - ns` bits of the primary ones (R446, R491). -/
def indexStart7b (M : Mode7) : Nat := indexStart7 M + 16 * M.ip - M.ns

/-- The secondary index of pixel `i`, whose only fix-up pixel is 0 (R446). -/
def index7b (M : Mode7) (b : Block) (i : Nat) : Nat := indexAt b (indexStart7b M) M.ip2 (fun j => j == 0) i

/-! ### Interpolation and rotation -/

/-- The weights of colour and of alpha for pixel `i` (R447). -/
def weights7 (M : Mode7) (b : Block) (i : Nat) : Nat × Nat :=
  let w1 := weight M.ip (index7 M b i)
  if M.ip2 = 0 then (w1, w1)
  else
    let w2 := weight M.ip2 (index7b M b i)
    if im7 M b = 0 then (w1, w2) else (w2, w1)

/-- The interpolation of two 8-bit channels (R447). -/
def interp7 (A B w : Nat) : Nat := (A * (64 - w) + B * w + 32) / 64

/-- The rotation: which colour channel changes places with alpha (R447). -/
def rotate7 (rot : Nat) (c : LdrColor) : LdrColor :=
  if rot = 1 then { c with r := c.a, a := c.r }
  else if rot = 2 then { c with g := c.a, a := c.g }
  else if rot = 3 then { c with b := c.a, a := c.b }
  else c

/-- The 8-bit colour of pixel `i` of a block of mode `M` (R447). -/
def pixelLdr7 (M : Mode7) (b : Block) (i : Nat) : LdrColor :=
  let e := 2 * region7 M.ns (shape7 M b) i
  let w := weights7 M b i
  let out (ch : Chan) (wt : Nat) : Nat := interp7 (endpoint7 M b e ch) (endpoint7 M b (e + 1) ch) wt
  rotate7 (rot7 M b) ⟨out .r w.1, out .g w.1, out .b w.1, out .a w.2⟩

/-- The 8-bit colour of pixel `i` of any block; the reserved block is transparent black (R442). -/
def bc7Ldr (b : Block) (i : Nat) : LdrColor :=
  match mode7 b with
  | none => ⟨0, 0, 0, 0⟩
  | some M => pixelLdr7 M b i

/-- The colour of pixel `i` of a BC7 block (R441, R448). -/
def bc7Pixel (b : Block) (i : Nat) : Rgba := (bc7Ldr b i).map ldrToReal

/-- DEC.BC7 at a configuration (R448). -/
def decBc7In (cfg : Config) (s : State) : Host.Outcome State Fault Refusal :=
  .next (decodeTo cfg s (bc7Pixel (s.formatBlock cfg .bc7)))

/-- DEC.BC7 (R448). -/
def execDecBc7 (s : State) : Host.Outcome State Fault Refusal := decBc7In config s

end Sys2Proof.Machine
end

