-- ==== Sys2Proof/Machine/Bc7Enc.lean ====
section
/-! DEFINITION. ENC.BC7 (48_bc7.md R449 to R464). Which candidates the search examines is a free function of the configuration; the choice of the best, the contract of R462 and the witness instance of R464 are defined in full. -/

namespace Sys2Proof.Machine

/-- The `LDRColor` of a pixel (R449). -/
def ldrColour (cfg : Config) (px : Pixel) : LdrColor := px.map fun w => realToLdr (valIn cfg.chanFmt w)

/-- `L[0..15]` (R449). -/
def State.ldrColours (s : State) (cfg : Config) : List LdrColor := s.tile.map (ldrColour cfg)

/-! ### The error metric (R462) -/

/-- The squared distance of two 8-bit colours (R462). -/
def dist7 (u v : LdrColor) : Int :=
  ((u.r : Int) - v.r) ^ 2 + ((u.g : Int) - v.g) ^ 2 + ((u.b : Int) - v.b) ^ 2 + ((u.a : Int) - v.a) ^ 2

/-- The error of a block on a tile (R462). -/
def error7 (b : Block) (L : List LdrColor) : Int := (L.mapIdx fun i l => dist7 l (bc7Ldr b i)).sum

/-! ### The witness instance (R464) -/

/-- The least and the greatest number of a list, 0 if it is empty. -/
def minMaxN : List Nat → Nat × Nat
  | [] => (0, 0)
  | x :: rest => (rest.foldl min x, rest.foldl max x)

/-- The endpoint the decoder will see: every channel's low bit is the P-bit, the low bit of alpha (R464). -/
def snap7 (e : LdrColor) : LdrColor := e.map fun c => 2 * (c / 2) + e.a % 2

/-- The mode-6 block of two endpoints and sixteen indices (R464). -/
def emitMode6 (A B : LdrColor) (indices : List Nat) : Block :=
  BitVec.ofNat 128 (packFields
    ([(64, 7), (A.r / 2, 7), (B.r / 2, 7), (A.g / 2, 7), (B.g / 2, 7), (A.b / 2, 7), (B.b / 2, 7), (A.a / 2, 7),
      (B.a / 2, 7), (A.a % 2, 1), (B.a % 2, 1)] ++ indexFields 4 (fun i => i == 0) indices))

/-- The fix-up step of a one-region block with `2^ip` indices: whether the endpoints change places, and the indices (R409, R464). -/
def fixupIndices (ip : Nat) (indices : List Nat) : Bool × List Nat :=
  if 2 ^ (ip - 1) ≤ indices.headD 0 then (true, indices.map fun k => 2 ^ ip - 1 - k) else (false, indices)

/-- `Enc7_base(L)` (R464). -/
def enc7Base (L : List LdrColor) : Block :=
  let cr := minMaxN (L.map (·.r))
  let cg := minMaxN (L.map (·.g))
  let cb := minMaxN (L.map (·.b))
  let ca := minMaxN (L.map (·.a))
  let A := snap7 ⟨cr.1, cg.1, cb.1, ca.1⟩
  let B := snap7 ⟨cr.2, cg.2, cb.2, ca.2⟩
  let pal := (List.range 16).map fun k =>
    (⟨interp7 A.r B.r (weight 4 k), interp7 A.g B.g (weight 4 k), interp7 A.b B.b (weight 4 k),
      interp7 A.a B.a (weight 4 k)⟩ : LdrColor)
  let fx := fixupIndices 4 (L.map fun l => argMinZ (pal.map fun u => dist7 u l))
  if fx.1 then emitMode6 B A fx.2 else emitMode6 A B fx.2

/-! ### The contract (R462) and the command -/

/-- `Enc7(L)`: the best of the candidates that the free search examines and of the witness; a candidate with `BLK[0] = 0` is not kept (R461). Items 1 to 4 of R462 hold by construction, and every function that keeps them is of this form, so nothing more is known of `Enc7` (D18, log 9). -/
def enc7 (cfg : Config) (L : List LdrColor) : Block :=
  keepBest (fun b => error7 b L) ((cfg.search7 L).filter fun b => fld b 0 8 != 0) (enc7Base L)

/-- ENC.BC7 at a configuration (R460). -/
def encBc7In (cfg : Config) (s : State) : Host.Outcome State Fault Refusal :=
  encodeOr (s.finiteChans cfg allChans) .encBc7 s (s.writeFormat cfg .bc7 (enc7 cfg (s.ldrColours cfg)).toNat)

/-- ENC.BC7 (R460). -/
def execEncBc7 (s : State) : Host.Outcome State Fault Refusal := encBc7In config s

end Sys2Proof.Machine
end

