-- ==== Sys2Proof/Machine/BitCursor.lean ====
section
/-! DEFINITION. GETBIT, GETBITS, SETBIT, SETBITS (40_bitcursor.md). The fault checks come first, in the order of R509. -/

namespace Sys2Proof.Machine

/-- `CUR + n` passes the end of the block, computed without wrap (R120 to R123). -/
def State.overruns (s : State) (n : Nat) : Bool := 128 < s.cur.toNat + n

/-- A bit count that GETBITS and SETBITS refuse: 0 or above 8 (R121, R123). -/
def badWidth (n : Nat) : Bool := n == 0 || 8 < n

/-- `CUR <- CUR + n` (R120 to R123). -/
def State.advance (s : State) (n : Nat) : State := { s with cur := BitVec.ofNat 8 (s.cur.toNat + n) }

/-- `RES <- fld(CUR, n)`, `CUR <- CUR + n` (R120, R121). -/
def State.readBits (s : State) (n : Nat) : State :=
  { s with res := BitVec.ofNat 8 (fld s.block s.cur.toNat n) }.advance n

/-- The `n` bits from `CUR` get the low bits of `v`, `CUR <- CUR + n` (R122, R123). -/
def State.writeBits (s : State) (n v : Nat) : State :=
  { s with blk := s.blk.setBits s.cur.toNat n v }.advance n

/-- GETBIT (R120). -/
def execGetbit (s : State) : Host.Outcome State Fault Refusal :=
  if s.overruns 1 then .next (s.raise .cursorOverrun (encode .getbit)) else .next (s.readBits 1)

/-- GETBITS n (R121). -/
def execGetbits (n : Nat) (s : State) : Host.Outcome State Fault Refusal :=
  if badWidth n then .next (s.raise .badWidth (encode (.getbits n)))
  else if s.overruns n then .next (s.raise .cursorOverrun (encode (.getbits n)))
  else .next (s.readBits n)

/-- SETBIT v (R122). -/
def execSetbit (v : Bool) (s : State) : Host.Outcome State Fault Refusal :=
  if s.overruns 1 then .next (s.raise .cursorOverrun (encode (.setbit v)))
  else .next (s.writeBits 1 v.toNat)

/-- SETBITS n, v (R123). -/
def execSetbits (n : Nat) (val : Byte) (s : State) : Host.Outcome State Fault Refusal :=
  if badWidth n then .next (s.raise .badWidth (encode (.setbits n val)))
  else if s.overruns n then .next (s.raise .cursorOverrun (encode (.setbits n val)))
  else .next (s.writeBits n val.toNat)

end Sys2Proof.Machine
end

