-- ==== Sys2Proof/Machine/Dispatch.lean ====
section
/-! DEFINITION. The meaning of every command (30_encoding.md R94): one arm per constructor. -/

namespace Sys2Proof.Machine

/-- What a command does when it is executed; whether it is executed at all (R505) is `issue`'s to say. -/
def exec (i : Instr) (s : State) : Host.Outcome State Fault Refusal :=
  match i with
  | .getbit => Sys2Proof.Machine.execGetbit s
  | .getbits n => Sys2Proof.Machine.execGetbits n s
  | .setbit v => Sys2Proof.Machine.execSetbit v s
  | .setbits n val => Sys2Proof.Machine.execSetbits n val s
  | .decBc1 => Sys2Proof.Machine.execDecBc1 s
  | .decBc2 => Sys2Proof.Machine.execDecBc2 s
  | .decBc3 => Sys2Proof.Machine.execDecBc3 s
  | .decBc4u => Sys2Proof.Machine.execDecBc4u s
  | .decBc4s => Sys2Proof.Machine.execDecBc4s s
  | .decBc5u => Sys2Proof.Machine.execDecBc5u s
  | .decBc5s => Sys2Proof.Machine.execDecBc5s s
  | .decBc6hu => Sys2Proof.Machine.execDecBc6hu s
  | .decBc6hs => Sys2Proof.Machine.execDecBc6hs s
  | .decBc7 => Sys2Proof.Machine.execDecBc7 s
  | .encBc1 dr ck => Sys2Proof.Machine.execEncBc1 dr ck s
  | .encBc2 dr da => Sys2Proof.Machine.execEncBc2 dr da s
  | .encBc3 dr da => Sys2Proof.Machine.execEncBc3 dr da s
  | .encBc4u => Sys2Proof.Machine.execEncBc4u s
  | .encBc4s => Sys2Proof.Machine.execEncBc4s s
  | .encBc5u => Sys2Proof.Machine.execEncBc5u s
  | .encBc5s => Sys2Proof.Machine.execEncBc5s s
  | .encBc6hu => Sys2Proof.Machine.execEncBc6hu s
  | .encBc6hs => Sys2Proof.Machine.execEncBc6hs s
  | .encBc7 => Sys2Proof.Machine.execEncBc7 s

end Sys2Proof.Machine
end

