-- ==== Sys2Proof/Machine/Issue.lean ====
section
/-! DEFINITION. Issuing a command word and performing a host action (60_exceptions.md R505, R509; 70_reset_and_hazards.md R543, R546). -/

namespace Sys2Proof.Machine

/-- A command word is issued to a unit whose commands do what `run` says. In the order of R509: while `STATUS.FAULT` is 1 it is refused by the unit and changes no state at all (R505); a word that selects no row faults with `ILLEGAL_CMD` (R91, R95); else its command is executed. -/
def issueBy (run : Instr → State → Host.Outcome State Fault Refusal) (w : Word) (s : State) : Host.Outcome State Fault Refusal :=
  if s.faulted then .next s
  else
    match decode w with
    | none => .next (s.raise .illegalCmd w)
    | some i => run i s

/-- A command word is issued (R505, R509). -/
def issue (w : Word) (s : State) : Host.Outcome State Fault Refusal := issueBy exec w s

/-- A host write of one byte of `BLK`; an address outside 0..15 does not exist and is refused (R69, R546). -/
def hostWriteBlk (k : Nat) (v : Byte) (s : State) : Host.Outcome State Fault Refusal :=
  if k < 16 then .next { s with blk := s.blk.write k v } else .refused (.noBlkAddress k)

/-- A host read: no register of the unit changes (R546); what it returned is kept for the host (log 2). -/
def hostRead (reg : RegName) (s : State) : Host.Outcome State Fault Refusal :=
  match s.readReg reg with
  | some v => .next { s with hostRd := some v }
  | none =>
    match reg with
    | .blk k => .refused (.noBlkAddress k)
    | _ => .next s

/-- One host action on a unit whose commands do what `run` says (R543). Accesses are permitted while `STATUS.FAULT` is 1 (R546). -/
def performBy (run : Instr → State → Host.Outcome State Fault Refusal) (act : HostAction) (s : State) :
    Host.Outcome State Fault Refusal :=
  match act with
  | .reset => .next s.doReset
  | .wrBlk k v => hostWriteBlk k v s
  | .wrCur v => .next { s with cur := v }
  | .wrPix i c v => .next (s.setPix i c v)
  | .wrAthr v => .next { s with athr := v }
  | .rd reg => hostRead reg s
  | .command w => issueBy run w s

/-- One host action (R543). -/
def perform (act : HostAction) (s : State) : Host.Outcome State Fault Refusal := performBy exec act s

/-- What one step of a unit whose commands do what `run` says does: the oldest pending action of the host is taken from the queue and performed; with nothing pending the unit is idle and holds its state (R516, log 1). -/
def stepBy (run : Instr → State → Host.Outcome State Fault Refusal) (s : State) : Host.Outcome State Fault Refusal :=
  match s.queue with
  | [] => .next s
  | act :: rest => performBy run act { s with queue := rest }

end Sys2Proof.Machine
end

