-- ==== Sys2Proof/Machine/Step.lean ====
section
/-! DEFINITION. One step of the machine, and how an instruction is placed where the next step takes it. -/

namespace Sys2Proof.Machine

/-- One step: one action of the host (R543), each command one atomic step (R71). -/
def step : State → Host.Outcome State Fault Refusal := stepBy exec

/-- The state with the command word of an opcode-table row as the host's next action: the unit has no program counter and no instruction memory, so this is all that the next step's "fetch" needs (R31, log 1). -/
def State.withFetchWord (s : State) (nbits w : Nat) : State :=
  { s with queue := .command (tableWord nbits w) :: s.queue }

end Sys2Proof.Machine
end

