-- ==== Sys2Proof/Machine/Configured.lean ====
section
/-! DEFINITION. The machine with its configuration as an argument (00_scope.md R8, R12): `RN32`, `F32toF16`, the searches and every other parameter of R8 are what the caller says. `exec` and `step` are `execIn config` and `stepIn config`. -/

namespace Sys2Proof.Machine

/-- What a command does at a configuration: one arm per command (30_encoding.md R94). -/
def execIn (cfg : Config) (i : Instr) (s : State) : Host.Outcome State Fault Refusal :=
  match i with
  | .getbit => execGetbit s
  | .getbits n => execGetbits n s
  | .setbit v => execSetbit v s
  | .setbits n val => execSetbits n val s
  | .decBc1 => decBc1In cfg s
  | .decBc2 => decBc2In cfg s
  | .decBc3 => decBc3In cfg s
  | .decBc4u => decBc4uIn cfg s
  | .decBc4s => decBc4sIn cfg s
  | .decBc5u => decBc5uIn cfg s
  | .decBc5s => decBc5sIn cfg s
  | .decBc6hu => decBc6huIn cfg s
  | .decBc6hs => decBc6hsIn cfg s
  | .decBc7 => decBc7In cfg s
  | .encBc1 dr ck => encBc1In cfg dr ck s
  | .encBc2 dr da => encBc2In cfg dr da s
  | .encBc3 dr da => encBc3In cfg dr da s
  | .encBc4u => encBc4uIn cfg s
  | .encBc4s => encBc4sIn cfg s
  | .encBc5u => encBc5uIn cfg s
  | .encBc5s => encBc5sIn cfg s
  | .encBc6hu => encBc6huIn cfg s
  | .encBc6hs => encBc6hsIn cfg s
  | .encBc7 => encBc7In cfg s

/-- One step of the machine at a configuration (R543). -/
def stepIn (cfg : Config) : State → Host.Outcome State Fault Refusal := stepBy (execIn cfg)

end Sys2Proof.Machine
end

