-- ==== Sys2Proof/Safety.lean ====
section
/-! DEFINITION. What the claims call a safe state: the machine invariant, and a step that does not stop. -/

namespace Sys2Proof.Machine

/-- The codes that `FCAUSE` can hold once a fault is recorded: every cause of R503 but `TABLE_RANGE`, which no command raises. -/
abbrev raisedCodes : List Byte := [1#8, 2#8, 3#8, 5#8]

/-- The invariant that every step keeps: the block register is canonical; bits 7:2 of `STATUS` are 0 (R28); `FCAUSE` and `FINFO` read 0 while `FAULT` is 0 (R30), and with `FAULT` set `FCAUSE` names a cause that can be raised (R503); no diagnostic is recorded while `DIAG` is 0, and with it set the code is 1 and the count is not 0 (R29, R507). -/
structure State.Inv (s : State) : Prop where
  blk_wf : s.blk.wf
  status_reserved : s.status &&& 0xFC#8 = 0#8
  no_fault : s.faulted = false → s.fcause = 0#8 ∧ s.finfo = 0#32
  fault : s.faulted = true → s.fcause ∈ raisedCodes
  no_diag : s.diagged = false → s.diagcode = 0#8 ∧ s.diagcnt = 0#32
  diag : s.diagged = true → s.diagcode = 1#8 ∧ s.diagcnt ≠ 0#32

/-- The step gives a next state. -/
def State.goesOn (s : State) : Prop := ∃ s', step s = .next s'

/-- The next action, if any, does not name a `BLK` address that does not exist (R69): the one action that stops the machine. -/
def State.nextActionValid (s : State) : Prop :=
  match s.queue.head? with
  | some (.wrBlk k _) => k < 16
  | some (.rd (.blk k)) => k < 16
  | _ => True

end Sys2Proof.Machine
end

