-- ==== Sys2Proof/Certificates/Slice0/Obligations.lean ====
section
/-! DEFINITION. The statements for the provers, and the few notions they are stated in. -/

namespace Sys2Proof.Claims

open Sys2Proof.Machine

/-- Block bit `p` of the block register: bit `p mod 8` of byte `p div 8` (R9). -/
def blkBit (m : Memory) (p : Nat) : Bool := (m.read (p / 8)).getLsbD (p % 8)

/-- The four BitCursor commands. -/
def isBitCursor : Instr → Bool
  | .getbit => true
  | .getbits _ => true
  | .setbit _ => true
  | .setbits _ _ => true
  | _ => false

/-- The ten decode commands. -/
def decoders : List Instr :=
  [.decBc1, .decBc2, .decBc3, .decBc4u, .decBc4s, .decBc5u, .decBc5s, .decBc6hu, .decBc6hs, .decBc7]

/-- The ten encode commands, with the number of bytes of `BLK` each writes (R8) and the channels each reads (R140). -/
def encoders (dr f : Bool) : List (Instr × Nat × List Chan) :=
  [(.encBc1 dr f, 8, [.r, .g, .b, .a]), (.encBc2 dr f, 16, [.r, .g, .b, .a]), (.encBc3 dr f, 16, [.r, .g, .b, .a]),
    (.encBc4u, 8, [.r]), (.encBc4s, 8, [.r]), (.encBc5u, 16, [.r, .g]), (.encBc5s, 16, [.r, .g]),
    (.encBc6hu, 16, [.r, .g, .b]), (.encBc6hs, 16, [.r, .g, .b]), (.encBc7, 16, [.r, .g, .b, .a])]

/-- Every named channel of every pixel is finite: its exponent field is not all ones. -/
def tileFinite (s : State) (cs : List Chan) : Prop :=
  ∀ i : Fin 16, ∀ c ∈ cs, ((s.pix[i.val]).get c).extractLsb' 23 8 ≠ 0xFF#8

/-- The threshold register is finite. -/
def athrFinite (s : State) : Prop := s.athr.extractLsb' 23 8 ≠ 0xFF#8

/-- Every input the command reads is finite: its channels, and `ATHR` for ENC.BC1 with the colour key on (R140, R503). -/
def inputsFinite (i : Instr) (cs : List Chan) (s : State) : Prop :=
  tileFinite s cs ∧ ∀ dr, i = .encBc1 dr true → athrFinite s

/-- When a command faults (R504): the condition of each command, in the words of R503. -/
def faultsWhen (s : State) : Instr → Prop
  | .getbit => 128 ≤ s.cur.toNat
  | .setbit _ => 128 ≤ s.cur.toNat
  | .getbits n => n = 0 ∨ 8 < n ∨ 128 < s.cur.toNat + n
  | .setbits n _ => n = 0 ∨ 8 < n ∨ 128 < s.cur.toNat + n
  | .encBc1 _ ck => ¬ tileFinite s [.r, .g, .b, .a] ∨ (ck = true ∧ ¬ athrFinite s)
  | .encBc2 _ _ => ¬ tileFinite s [.r, .g, .b, .a]
  | .encBc3 _ _ => ¬ tileFinite s [.r, .g, .b, .a]
  | .encBc4u => ¬ tileFinite s [.r]
  | .encBc4s => ¬ tileFinite s [.r]
  | .encBc5u => ¬ tileFinite s [.r, .g]
  | .encBc5s => ¬ tileFinite s [.r, .g]
  | .encBc6hu => ¬ tileFinite s [.r, .g, .b]
  | .encBc6hs => ¬ tileFinite s [.r, .g, .b]
  | .encBc7 => ¬ tileFinite s [.r, .g, .b, .a]
  | _ => False

/-- The state after fault entry with cause code `code` for the command word `cmd` (R502), written out field by field. -/
def faultEntered (s : State) (code : Byte) (cmd : Word) : State :=
  { s with status := s.status ||| 1#8, fcause := code, finfo := cmd }

/-- The colour of index `k` in a colour block with words `c0`, `c1`, in the four-colour or the three-colour mode (R192, R193). -/
def paletteColour (threeColour : Bool) (c0 c1 k : Nat) : Rgba :=
  let e0 : Rgb := ⟨(c0 / 2048 : Nat) / 31, (c0 / 32 % 64 : Nat) / 63, (c0 % 32 : Nat) / 31⟩
  let e1 : Rgb := ⟨(c1 / 2048 : Nat) / 31, (c1 / 32 % 64 : Nat) / 63, (c1 % 32 : Nat) / 31⟩
  if k = 0 then ⟨e0.r, e0.g, e0.b, 1⟩
  else if k = 1 then ⟨e1.r, e1.g, e1.b, 1⟩
  else if threeColour then
    (if k = 2 then ⟨(e0.r + e1.r) / 2, (e0.g + e1.g) / 2, (e0.b + e1.b) / 2, 1⟩ else ⟨0, 0, 0, 0⟩)
  else if k = 2 then ⟨(2 * e0.r + e1.r) / 3, (2 * e0.g + e1.g) / 3, (2 * e0.b + e1.b) / 3, 1⟩
  else ⟨(e0.r + 2 * e1.r) / 3, (e0.g + 2 * e1.g) / 3, (e0.b + 2 * e1.b) / 3, 1⟩

/-- A 16-bit little-endian word of `BLK` at byte `o` (R66). -/
def word16 (s : State) (o : Nat) : Nat := (s.blk.read o).toNat + 256 * (s.blk.read (o + 1)).toNat

/-- The 2-bit colour index of pixel `i` in a colour block at byte `o`: bits `2i` and `2i+1` of its bitmap (R190, R195). -/
def bitmapIndex (s : State) (o i : Nat) : Nat := (s.blk.read (o + 4 + i / 4)).toNat / 4 ^ (i % 4) % 4

/-- The 3-bit index of pixel `i` in an alpha or channel block at byte `o` (R200, R280). -/
def rampIndex (s : State) (o i : Nat) : Nat :=
  ((s.blk.read (o + 2)).toNat + 2 ^ 8 * (s.blk.read (o + 3)).toNat + 2 ^ 16 * (s.blk.read (o + 4)).toNat
    + 2 ^ 24 * (s.blk.read (o + 5)).toNat + 2 ^ 32 * (s.blk.read (o + 6)).toNat + 2 ^ 40 * (s.blk.read (o + 7)).toNat)
    / 8 ^ i % 8

/-- Entry `k` of `Ramp(E0, E1, full, lo, hi)` (R199). -/
def rampEntry (E0 E1 : ℚ) (full : Bool) (lo hi : ℚ) (k : Nat) : ℚ :=
  if k = 0 then E0
  else if k = 1 then E1
  else if full then (E0 * (8 - k) + E1 * (k - 1)) / 7
  else if k < 6 then (E0 * (6 - k) + E1 * (k - 1)) / 5
  else if k = 6 then lo
  else hi

/-- The UNORM value of the channel block at byte `o` for pixel `i` (R281, R283). -/
def unormValue (s : State) (o i : Nat) : ℚ :=
  let b0 := (s.blk.read o).toNat
  let b1 := (s.blk.read (o + 1)).toNat
  rampEntry (b0 / 255) (b1 / 255) (decide (b1 < b0)) 0 1 (rampIndex s o i)

/-- The SNORM value of the channel block at byte `o` for pixel `i` (R282, R283). -/
def snormValue (s : State) (o i : Nat) : ℚ :=
  let r0 := (s.blk.read o).toInt
  let r1 := (s.blk.read (o + 1)).toInt
  rampEntry ((max r0 (-127) : ℤ) / 127) ((max r1 (-127) : ℤ) / 127) (decide (r1 < r0)) (-1) 1 (rampIndex s o i)

/-- The value a channel word stands for is `q`, rounded as R141 says: `RN32(q)`, with `q = 0` stored as +0.0. -/
def stores (w : Word) (q : ℚ) : Prop := w = if q = 0 then 0#32 else config.rn32 q

/-- Pixel `i` of the tile holds the colour `q`, each channel rounded as R141 says. -/
def pixelHolds (t : State) (i : Fin 16) (q : Rgba) : Prop :=
  stores (t.pix[i.val]).r q.r ∧ stores (t.pix[i.val]).g q.g ∧ stores (t.pix[i.val]).b q.b ∧ stores (t.pix[i.val]).a q.a

/-! Dithering (R150, R151), said from the side of the pixel that receives. -/

/-- What the residuals `d` of the earlier pixels add to pixel `i`: 7/16 of its left neighbour's, 1/16, 5/16 and 3/16 of its upper-left, upper and upper-right neighbours', each where that neighbour is inside the tile. -/
def received (d : Nat → ℚ) (i : Nat) : ℚ :=
  (if i % 4 ≠ 0 then 7 / 16 * d (i - 1) else 0) + (if 4 ≤ i ∧ i % 4 ≠ 0 then 1 / 16 * d (i - 5) else 0)
    + (if 4 ≤ i then 5 / 16 * d (i - 4) else 0) + (if 4 ≤ i ∧ i % 4 ≠ 3 then 3 / 16 * d (i - 3) else 0)

/-- `v` are the running values of a pass over the inputs `a` whose residuals are `d`. -/
def runsWith (dither : Bool) (a v d : Nat → ℚ) : Prop :=
  ∀ i, i < 16 → v i = a i + if dither then received d i else 0

/-- The same for RGB triples, component by component. -/
def runsWithRgb (dither : Bool) (a v d : Nat → Rgb) : Prop :=
  runsWith dither (fun i => (a i).r) (fun i => (v i).r) (fun i => (d i).r)
    ∧ runsWith dither (fun i => (a i).g) (fun i => (v i).g) (fun i => (d i).g)
    ∧ runsWith dither (fun i => (a i).b) (fun i => (v i).b) (fun i => (d i).b)

/-- The value of channel `c` of pixel `i` (R140). -/
def chanValue (s : State) (c : Chan) (i : Nat) : ℚ := val ((s.tile.getD i zeroPixel).get c)

/-- `rhu(v·255)` (R251). -/
def grid255 (v : ℚ) : Int := ⌊v * 255 + 1 / 2⌋

/-- `v` are the running values of the 8-bit alpha grid pass (R251). -/
def alphaGridRuns (s : State) (da : Bool) (v : Nat → ℚ) : Prop := runsWith da (chanValue s .a) v (fun j => v j - grid255 (v j) / 255)

/-- `m` is the least of the sixteen numbers. -/
def leastIs (f : Nat → Int) (m : Int) : Prop := (∀ i, i < 16 → m ≤ f i) ∧ ∃ i, i < 16 ∧ f i = m

/-- `m` is the greatest of the sixteen numbers. -/
def greatestIs (f : Nat → Int) (m : Int) : Prop := (∀ i, i < 16 → f i ≤ m) ∧ ∃ i, i < 16 ∧ f i = m

/-- The stored index of an axis or ramp position: the two ends are stored as 0 and 1, what lies between them as 2, 3 and so on (R227, R255). -/
def indexOfPosition (steps pos : Nat) : Nat := if pos = 0 then 0 else if pos = steps - 1 then 1 else pos + 1

/-- The position `floor(dot + 1/2)`, held between the ends (R227). -/
def positionOf (steps : Nat) (dot : ℚ) : Nat :=
  if dot ≤ 0 then 0 else if (steps : ℚ) - 1 ≤ dot then steps - 1 else ⌊dot + 1 / 2⌋.toNat

/-- The colour index of `v` on the axis from the colour of `c0` to that of `c1` (R227). -/
def axisIndexFor (steps c0 c1 : Nat) (v : Rgb) : Nat :=
  let S := paletteColour false c0 c1 0
  let T := paletteColour false c0 c1 1
  let L := (T.r - S.r) ^ 2 + (T.g - S.g) ^ 2 + (T.b - S.b) ^ 2
  let dot := ((v.r - S.r) * (T.r - S.r) + (v.g - S.g) * (T.g - S.g) + (v.b - S.b) * (T.b - S.b)) * (steps - 1) / L
  if c0 = c1 then 0 else indexOfPosition steps (positionOf steps dot)

/-- The colour block at byte `o` of `t` holds the indices of R227 for the tile of `s`; `keyed` says that the three-step palette is used, with the pixels below the threshold transparent. -/
def colourIndicesHold (s t : State) (o : Nat) (dr keyed : Bool) : Prop :=
  let steps := if keyed then 3 else 4
  let k := bitmapIndex t o
  let transparent (i : Nat) : Prop := keyed = true ∧ chanValue s .a i < val s.athr
  ∃ v d : Nat → Rgb, runsWithRgb dr (fun i => ⟨chanValue s .r i, chanValue s .g i, chanValue s .b i⟩) v d
    ∧ ∀ i, i < 16 →
        (transparent i → k i = 3 ∧ d i = ⟨0, 0, 0⟩)
        ∧ (¬ transparent i → k i = axisIndexFor steps (word16 t o) (word16 t (o + 2)) (v i)
            ∧ (let q := paletteColour keyed (word16 t o) (word16 t (o + 2)) (k i)
               d i = ⟨(v i).r - q.r, (v i).g - q.g, (v i).b - q.b⟩))

/-- The alpha index of `v` on the ramp from `E0` to `E1` (R255). -/
def rampIndexFor (steps : Nat) (E0 E1 v : ℚ) : Nat :=
  let dot := if E0 = E1 then 0 else (v - E0) * (steps - 1) / (E1 - E0)
  if steps = 6 ∧ dot ≤ 0 ∧ v ≤ E0 / 2 then 6
  else if steps = 6 ∧ 5 ≤ dot ∧ (E1 + 1) / 2 ≤ v then 7
  else indexOfPosition steps (positionOf steps dot)

/-! The bits of the block register, and the BC6H and BC7 decodes written from them. The mode records, bit layouts, shapes and fix-up pixels are the tables of 46_bc6h_tables.md and 49_bc7_tables.md (log 15). -/

/-- `fld(p, n)`: the sum of the block bits from `p` on, each at its weight (R11). -/
def bitsAt (s : State) (p n : Nat) : Nat := ((List.range n).map fun k => (blkBit s.blk (p + k)).toNat * 2 ^ k).sum

/-- The weight tables (46_bc6h_tables.md R386, 49_bc7_tables.md R494). -/
def weightFor (bits k : Nat) : Nat :=
  (if bits = 2 then [0, 21, 43, 64]
    else if bits = 3 then [0, 9, 18, 27, 37, 46, 55, 64]
    else [0, 4, 9, 13, 17, 21, 26, 30, 34, 38, 43, 47, 51, 55, 60, 64]).getD k 0

/-- The selector: the low two bits of the first byte when they are 0 or 1, else its low five (R331). -/
def bc6Selector (s : State) : Nat :=
  if (s.blk.read 0).toNat % 4 < 2 then (s.blk.read 0).toNat % 4 else (s.blk.read 0).toNat % 32

/-- A header field: each block bit of the runs that hold it, at the field bit the layout gives it (R334, R382). -/
def bc6Field (s : State) (M : Mode6H) (f : Field6H) : Nat :=
  (M.layout.map fun run =>
    if run.field = f then
      ((List.range (run.hi + 1 - run.lo)).map fun k =>
        (blkBit s.blk (run.lo + k)).toNat * 2 ^ (if run.first ≤ run.last then run.first + k else run.first - k)).sum
    else 0).sum

/-- The shape (R334). -/
def bc6Shape (s : State) (M : Mode6H) : Nat := if M.parts = 1 then bc6Field s M .d else 0

/-- The number in `-2^(n-1) .. 2^(n-1)-1` that agrees with `v` modulo `2^n` (R146). -/
def wrapSigned (n : Nat) (v : Int) : Int := (v + 2 ^ (n - 1)) % 2 ^ n - 2 ^ (n - 1)

/-- The stored endpoint component, sign-extended from its own width in the signed format and where it is a difference (R336). -/
def bc6Stored (s : State) (M : Mode6H) (signed : Bool) (e : EndpointId) (c : Comp) : Int :=
  if signed = true ∨ (e ≠ .w ∧ M.tr = true) then
    wrapSigned (comp (if e = .w then M.precW else M.precX) c) (bc6Field s M (.ep c e))
  else bc6Field s M (.ep c e)

/-- The endpoint component: in a transformed mode the anchor is added to the others, modulo the anchor's width (R337). -/
def bc6Endpoint (s : State) (M : Mode6H) (signed : Bool) (e : EndpointId) (c : Comp) : Int :=
  if e ≠ .w ∧ M.tr = true then
    let sum := bc6Stored s M signed e c + bc6Stored s M signed .w c
    if signed then wrapSigned (comp M.precW c) sum else sum % 2 ^ comp M.precW c
  else bc6Stored s M signed e c

/-- The index of pixel `i`: `ip` bits, one less at a fix-up pixel, after the 65 or 82 header bits and the indices before it (R338). -/
def bc6Index (s : State) (M : Mode6H) (i : Nat) : Nat :=
  let second := fixup2 (bc6Shape s M)
  let start := (if M.parts = 1 then 82 else 65) + M.ip * i - (if 0 < i then 1 else 0)
    - (if M.parts = 1 ∧ second < i then 1 else 0)
  bitsAt s start (if i = 0 ∨ (M.parts = 1 ∧ i = second) then M.ip - 1 else M.ip)

/-- Unquantise to 16 bits (R339, R340). -/
def bc6Unquantise (signed : Bool) (v : Int) (n : Nat) : Int :=
  if signed then
    (if 16 ≤ n then v
      else v.sign * (if v = 0 then 0 else if 2 ^ (n - 1) ≤ |v| + 1 then 32767 else (|v| * 32768 + 16384) / 2 ^ (n - 1)))
  else if 15 ≤ n then v
  else if v = 0 then 0
  else if v + 1 = 2 ^ n then 65535
  else (v * 65536 + 32768) / 2 ^ n

/-- The palette integer of component `c` of pixel `i`: interpolation between the unquantised endpoints of its region, and the rescale by 31/64, or by 31/32 of the magnitude (R338 to R342). -/
def bc6Integer (s : State) (M : Mode6H) (signed : Bool) (i : Nat) (c : Comp) : Int :=
  let second := M.parts = 1 ∧ region2 (bc6Shape s M) i = 1
  let n := comp M.precW c
  let a := bc6Unquantise signed (bc6Endpoint s M signed (if second then .y else .w) c) n
  let b := bc6Unquantise signed (bc6Endpoint s M signed (if second then .z else .x) c) n
  let w : Int := weightFor M.ip (bc6Index s M i)
  let t := (a * (64 - w) + b * w + 32) / 64
  if signed then t.sign * (|t| * 31 / 32) else t * 31 / 64

/-- The value of the half whose sign and magnitude are those of `u`, `|u|` below `0x7C00` (R148, R343). -/
def halfValue (u : Int) : ℚ :=
  let m := u.natAbs
  u.sign * (if m < 1024 then (m : ℚ) / 2 ^ 24 else (((1024 + m % 1024) * 2 ^ (m / 1024) : Nat) : ℚ) / 2 ^ 25)

/-- The channel word holds the half that is the integer `u`: `-0x7C00` is minus infinity, every other integer the value of its half (R343). -/
def holdsHalf (w : Word) (u : Int) : Prop := if u = -0x7C00 then w = 0xFF800000#32 else stores w (halfValue u)

/-- The numbers that fields of the given widths hold, read one after the other from block bit `p` on (R443). -/
def readFields (s : State) : Nat → List Nat → List Nat
  | _, [] => []
  | p, n :: rest => bitsAt s p n :: readFields s (p + n) rest

/-- Pixel `i` is a fix-up pixel of the primary indices (R446). -/
def bc7Fixup (M : Mode7) (shape i : Nat) : Bool :=
  decide (i = 0 ∨ (M.ns = 2 ∧ i = fixup2 shape) ∨ (M.ns = 3 ∧ (i = fixups3a.getD shape 0 ∨ i = fixups3b.getD shape 0)))

/-- The widths of the fields of a BC7 block in the order they are read: prefix, shape, rotation, index mode; the endpoints channel by channel; the P-bits; the primary and the secondary indices (R442, R443, R446). -/
def bc7Widths (M : Mode7) (shape : Nat) : List Nat :=
  [M.num + 1, M.pb, M.rb, M.ib]
    ++ List.replicate (2 * M.ns) M.cp.r ++ List.replicate (2 * M.ns) M.cp.g ++ List.replicate (2 * M.ns) M.cp.b
    ++ List.replicate (2 * M.ns) M.cp.a ++ List.replicate M.np 1
    ++ (List.range 16).map (fun i => if bc7Fixup M shape i then M.ip - 1 else M.ip)
    ++ if M.ip2 = 0 then [] else (List.range 16).map (fun i => if i = 0 then M.ip2 - 1 else M.ip2)

/-- Field number `k` of a BC7 block of mode `M`: 1, 2 and 3 are shape, rotation and index mode, then come the endpoint channels, the P-bits and the indices. -/
def bc7Field (s : State) (M : Mode7) (k : Nat) : Nat := (readFields s 0 (bc7Widths M (bitsAt s (M.num + 1) M.pb))).getD k 0

/-- The place of a channel in the order r, g, b, a. -/
def chanNumber : Chan → Nat
  | .r => 0
  | .g => 1
  | .b => 2
  | .a => 3

/-- The 8-bit value of channel `ch` of endpoint `e`: the stored bits, the endpoint's P-bit below them where the mode has one for that channel, the high bits repeated below (R444, R445). -/
def bc7Endpoint (s : State) (M : Mode7) (e : Nat) (ch : Chan) : Nat :=
  let ne := 2 * M.ns
  let n := M.cpp.get ch
  let raw := bc7Field s M (4 + ne * chanNumber ch + e)
  let v := if n = M.cp.get ch then raw else 2 * raw + bc7Field s M (4 + 4 * ne + e * M.np / ne)
  if n = 0 then 255 else v * 2 ^ (8 - n) + v * 2 ^ (8 - n) / 2 ^ n

/-- The 8-bit colour of pixel `i` (R446, R447). -/
def bc7Colour (s : State) (M : Mode7) (i : Nat) : LdrColor :=
  let shape := bc7Field s M 1
  let rot := bc7Field s M 2
  let region := if M.ns = 2 then region2 shape i else if M.ns = 3 then region3 shape i else 0
  let first := 4 + 8 * M.ns + M.np
  let w1 := weightFor M.ip (bc7Field s M (first + i))
  let w2 := if M.ip2 = 0 then w1 else weightFor M.ip2 (bc7Field s M (first + 16 + i))
  let swapped := bc7Field s M 3 = 1
  let mix (ch : Chan) (w : Nat) : Nat :=
    (bc7Endpoint s M (2 * region) ch * (64 - w) + bc7Endpoint s M (2 * region + 1) ch * w + 32) / 64
  let r := mix .r (if swapped then w2 else w1)
  let g := mix .g (if swapped then w2 else w1)
  let b := mix .b (if swapped then w2 else w1)
  let a := mix .a (if swapped then w1 else w2)
  ⟨if rot = 1 then a else r, if rot = 2 then a else g, if rot = 3 then a else b,
    if rot = 1 then r else if rot = 2 then g else if rot = 3 then b else a⟩

/-- The two configurations agree on the parameters that the spec gives the encode command (R8): the optimizer's for BC1 to BC5, the weights for the colour blocks, `F32toF16` and `Enc6H` for BC6H, `Enc7` for BC7. -/
def parametersAgree (i : Instr) (cfg cfg' : Config) : Prop :=
  let colour := cfg.epsSingle = cfg'.epsSingle ∧ cfg.epsTwo = cfg'.epsTwo ∧ cfg.epsGrad = cfg'.epsGrad
    ∧ cfg.maxIter = cfg'.maxIter ∧ cfg.weights = cfg'.weights
  let scalar := cfg.maxIter = cfg'.maxIter ∧ cfg.alphaEpsRange = cfg'.alphaEpsRange ∧ cfg.alphaEpsGrad = cfg'.alphaEpsGrad
  match i with
  | .encBc1 _ _ => colour
  | .encBc2 _ _ => colour
  | .encBc3 _ _ => colour ∧ scalar
  | .encBc4u => scalar
  | .encBc4s => scalar
  | .encBc5u => scalar
  | .encBc5s => scalar
  | .encBc6hu => cfg.f32toF16 = cfg'.f32toF16 ∧ cfg.search6H = cfg'.search6H
  | .encBc6hs => cfg.f32toF16 = cfg'.f32toF16 ∧ cfg.search6H = cfg'.search6H
  | .encBc7 => cfg.search7 = cfg'.search7
  | _ => True

/-- `exec` on a list of commands, one after the other; none where a command does not give a next state. -/
def execAll : List Instr → State → Option State
  | [], s => some s
  | i :: rest, s =>
    match exec i s with
    | .next t => execAll rest t
    | .fault _ => none
    | .refused _ => none

/-- The four reserved BC6H selectors (R332). -/
def reservedSelectors : List Nat := [0x13, 0x17, 0x1B, 0x1F]

/-- The opcode of each assigned command word's low byte (R94). -/
def assignedOpcodes : List Nat :=
  [0x01, 0x02, 0x03, 0x04, 0x11, 0x12, 0x13, 0x14, 0x15, 0x16, 0x17, 0x18, 0x19, 0x1A,
    0x21, 0x22, 0x23, 0x24, 0x25, 0x26, 0x27, 0x28, 0x29, 0x2A]

/-- A row of the opcode map: its match, its mask, and the command of a word that selects it, the operands taken from the word as a number (R90, R92, R94). -/
abbrev Row := Word × Word × (Nat → Instr)

/-- The four BitCursor rows (R94). -/
def cursorTable : List Row :=
  [(0x00000001#32, 0xFFFFFFFF#32, fun _ => .getbit), (0x00000002#32, 0xFFFFF0FF#32, fun w => .getbits (w / 2 ^ 8 % 16)),
    (0x00000003#32, 0xFFFEFFFF#32, fun w => .setbit (w / 2 ^ 16 % 2 == 1)),
    (0x00000004#32, 0xFF00F0FF#32, fun w => .setbits (w / 2 ^ 8 % 16) (BitVec.ofNat 8 (w / 2 ^ 16)))]

/-- The ten decode rows (R94). -/
def decodeTable : List Row :=
  [(0x00000011#32, 0xFFFFFFFF#32, fun _ => .decBc1), (0x00000012#32, 0xFFFFFFFF#32, fun _ => .decBc2),
    (0x00000013#32, 0xFFFFFFFF#32, fun _ => .decBc3), (0x00000014#32, 0xFFFFFFFF#32, fun _ => .decBc4u),
    (0x00000015#32, 0xFFFFFFFF#32, fun _ => .decBc4s), (0x00000016#32, 0xFFFFFFFF#32, fun _ => .decBc5u),
    (0x00000017#32, 0xFFFFFFFF#32, fun _ => .decBc5s), (0x00000018#32, 0xFFFFFFFF#32, fun _ => .decBc6hu),
    (0x00000019#32, 0xFFFFFFFF#32, fun _ => .decBc6hs), (0x0000001A#32, 0xFFFFFFFF#32, fun _ => .decBc7)]

/-- The ten encode rows, `DR` in bit 24, `DA` in bit 25, `CK` in bit 26 (R90, R94). -/
def encodeTable : List Row :=
  [(0x00000021#32, 0xFAFFFFFF#32, fun w => .encBc1 (w / 2 ^ 24 % 2 == 1) (w / 2 ^ 26 % 2 == 1)),
    (0x00000022#32, 0xFCFFFFFF#32, fun w => .encBc2 (w / 2 ^ 24 % 2 == 1) (w / 2 ^ 25 % 2 == 1)),
    (0x00000023#32, 0xFCFFFFFF#32, fun w => .encBc3 (w / 2 ^ 24 % 2 == 1) (w / 2 ^ 25 % 2 == 1)),
    (0x00000024#32, 0xFFFFFFFF#32, fun _ => .encBc4u), (0x00000025#32, 0xFFFFFFFF#32, fun _ => .encBc4s),
    (0x00000026#32, 0xFFFFFFFF#32, fun _ => .encBc5u), (0x00000027#32, 0xFFFFFFFF#32, fun _ => .encBc5s),
    (0x00000028#32, 0xFFFFFFFF#32, fun _ => .encBc6hu), (0x00000029#32, 0xFFFFFFFF#32, fun _ => .encBc6hs),
    (0x0000002A#32, 0xFFFFFFFF#32, fun _ => .encBc7)]

/-- The 24 rows of the opcode map (R94). -/
def opcodeTable : List Row := cursorTable ++ decodeTable ++ encodeTable

/-- The word selects the row (R94). -/
def selects (w : Word) (row : Row) : Bool := w &&& row.2.1 == row.1

/-- The channel block at byte `o` of `t` holds, for each pixel, the smallest index whose decode-table entry is nearest to that pixel's value of channel `c` in `s` (R293). -/
def nearestIndices (s t : State) (signed : Bool) (o : Nat) (c : Chan) : Prop :=
  let e (k : Nat) : ℚ := (channelRamp signed (t.blk.read o).toNat (t.blk.read (o + 1)).toNat).getD k 0
  ∀ i : Fin 16,
    let v := val ((s.pix[i.val]).get c)
    ∀ k, k < 8 → |e (rampIndex t o i) - v| ≤ |e k - v| ∧ (k < rampIndex t o i → |e (rampIndex t o i) - v| < |e k - v|)

/-- The candidate a BC6H block of mode `M` holds: its shape, its raw endpoint fields and its indices (R334, R338). -/
def heldCandidate (M : Mode6H) (b : Block) : Cand6H :=
  ⟨shape6H M b,
    fun e => ⟨scatter6H b M.layout (.ep .r e), scatter6H b M.layout (.ep .g e), scatter6H b M.layout (.ep .b e)⟩,
    (List.range 16).map (index6H M b)⟩

end Sys2Proof.Claims

open Sys2Proof Sys2Proof.Machine Sys2Proof.Claims

/-! ### Encoding -/

/-- Every well-formed command's word decodes to that command (30_encoding.md sections 1 to 3). -/
def Obligations.DecodeOfEncodeIsTheCommand : Prop := ∀ i : Instr, i.wf = true → decode (encode i) = some i

/-- A word that decodes is the encoding of what it decodes to, which is well formed: no bit of a legal word is dropped. -/
def Obligations.EncodeOfDecodeIsTheWord : Prop := ∀ (w : Word) (i : Instr), decode w = some i → encode i = w ∧ i.wf = true

/-- R91: the decoder is total; every word matches exactly one row of R94, decodes to the command of that row and is executed, or matches none and raises `ILLEGAL_CMD`. -/
def Obligations.EveryWordMatchesOneRowOrIsIllegal : Prop :=
  ∀ (w : Word) (s : State), s.faulted = false →
    ((∃ row, opcodeTable.filter (selects w) = [row] ∧ decode w = some (row.2.2 w.toNat)
        ∧ issue w s = exec (row.2.2 w.toNat) s)
      ∨ (opcodeTable.filter (selects w) = [] ∧ decode w = none ∧ issue w s = .next (faultEntered s 3#8 w)))

/-- R95: a word whose opcode byte is not assigned is illegal and raises `ILLEGAL_CMD`. -/
def Obligations.UnassignedOpcodeIsIllegal : Prop :=
  ∀ (w : Word) (s : State), s.faulted = false → w.toNat % 256 ∉ assignedOpcodes →
    issue w s = .next (faultEntered s 3#8 w)

/-- Words written out from the tables of R90 and R94 decode to the commands they stand for, and near misses to none. -/
def Obligations.SpecWordsDecode : Prop :=
  decode 0x00000001#32 = some .getbit ∧ decode 0x00000802#32 = some (.getbits 8)
    ∧ decode 0x00010003#32 = some (.setbit true) ∧ decode 0x00350404#32 = some (.setbits 4 0x35#8)
    ∧ decode 0x0000001A#32 = some .decBc7 ∧ decode 0x04000021#32 = some (.encBc1 false true)
    ∧ decode 0x03000023#32 = some (.encBc3 true true) ∧ decode 0x00000121#32 = none
    ∧ decode 0x02000021#32 = none ∧ decode 0x00020003#32 = none ∧ decode 0x00000000#32 = none

/-! ### Steps and the host -/

/-- A step whose action is a legal command word, on a unit that is not faulted, is `exec` of the decoded command after the action is taken from the queue. -/
def Obligations.StepRunsTheDecodedCommand : Prop :=
  ∀ (s : State) (w : Word) (rest : List HostAction) (i : Instr),
    s.queue = .command w :: rest → s.faulted = false → decode w = some i → step s = exec i { s with queue := rest }

/-- A well-formed command placed by `withFetchWord` is run by the very next step, and the rest of the queue is left. -/
def Obligations.PlacedWordRunsNext : Prop :=
  ∀ (s : State) (i : Instr), s.faulted = false → i.wf = true → step (s.withFetchWord 32 (encode i).toNat) = exec i s

/-- R35: after reset every register has the value R35 gives it; reset is one of the host's actions (log 1). -/
def Obligations.ResetGivesEveryRegisterItsValue : Prop :=
  ∀ (s : State) (rest : List HostAction), s.queue = .reset :: rest →
    ∃ t, step s = .next t ∧ (∀ k, t.blk.read k = 0#8) ∧ t.cur = 0#8
      ∧ (∀ (i : Fin 16) (c : Chan), (t.pix[i.val]).get c = 0#32) ∧ t.athr = 0#32 ∧ t.res = 0#8 ∧ t.status = 0#8
      ∧ t.fcause = 0#8 ∧ t.finfo = 0#32 ∧ t.diagcode = 0#8 ∧ t.diagcnt = 0#32

/-- R505: while `STATUS.FAULT` is 1 a command word, legal or not, changes no state (it is only taken from the queue), reads and writes of the host still take effect, and no action but reset changes `STATUS`, `FCAUSE` or `FINFO`; reset clears `FAULT`. That an action is taken from a queue and that a read is kept are the model's choices (logs 1, 2). -/
def Obligations.FaultedUnitRefusesCommands : Prop :=
  ∀ (s : State) (act : HostAction) (rest : List HostAction), s.faulted = true → s.queue = act :: rest →
    (∀ w, act = .command w → step s = .next { s with queue := rest })
      ∧ (∀ reg v, act = .rd reg → s.readReg reg = some v → step s = .next { s with queue := rest, hostRd := some v })
      ∧ (∀ v, act = .wrCur v → step s = .next { s with queue := rest, cur := v })
      ∧ (∀ v, act = .wrAthr v → step s = .next { s with queue := rest, athr := v })
      ∧ (∀ k v, act = .wrBlk k v → k < 16 → s.blk.wf → ∃ t, step s = .next t ∧ t.blk.read k = v)
      ∧ (∀ i c v, act = .wrPix i c v → ∃ t, step s = .next t ∧ (t.pix[i.val]).get c = v)
      ∧ (∀ t, act ≠ .reset → step s = .next t → t.status = s.status ∧ t.fcause = s.fcause ∧ t.finfo = s.finfo)
      ∧ (act = .reset → ∃ t, step s = .next t ∧ t.faulted = false)

/-- R546: a host read returns the whole element it names and changes no register; a host write replaces the whole element it names and nothing else; R69: a `BLK` address outside 0..15 does not exist, and the model refuses an access to it. That an action is taken from a queue and that the value read is kept are the model's choices (logs 1, 2). -/
def Obligations.HostAccessesAreWholeElements : Prop :=
  ∀ (s : State) (rest : List HostAction),
    (∀ (reg : RegName) (v : RegVal), s.queue = .rd reg :: rest →
      (match reg with
        | .blk k => k < 16 ∧ v = .byte (s.blk.read k)
        | .cur => v = .byte s.cur
        | .pix i c => v = .word ((s.pix[i.val]).get c)
        | .athr => v = .word s.athr
        | .res => v = .byte s.res
        | .status => v = .byte s.status
        | .fcause => v = .byte s.fcause
        | .finfo => v = .word s.finfo
        | .diagcode => v = .byte s.diagcode
        | .diagcnt => v = .word s.diagcnt) →
      step s = .next { s with queue := rest, hostRd := some v })
    ∧ (∀ v, s.queue = .wrCur v :: rest → step s = .next { s with queue := rest, cur := v })
    ∧ (∀ v, s.queue = .wrAthr v :: rest → step s = .next { s with queue := rest, athr := v })
    ∧ (∀ k v, s.blk.wf → k < 16 → s.queue = .wrBlk k v :: rest →
        ∃ t, step s = .next t ∧ t = { s with queue := rest, blk := t.blk } ∧ t.blk.wf
          ∧ ∀ j, t.blk.read j = if j = k then v else s.blk.read j)
    ∧ (∀ (i : Fin 16) (c : Chan) (v : Word), s.queue = .wrPix i c v :: rest →
        ∃ t, step s = .next t ∧ t = { s with queue := rest, pix := t.pix }
          ∧ ∀ (j : Fin 16) (d : Chan), (t.pix[j.val]).get d = if j = i ∧ d = c then v else (s.pix[j.val]).get d)
    ∧ ∀ k, 16 ≤ k →
        (∀ v, s.queue = .wrBlk k v :: rest → step s = .refused (.noBlkAddress k))
          ∧ (s.queue = .rd (.blk k) :: rest → step s = .refused (.noBlkAddress k))

/-- A step of the model gives a next state unless its action names a `BLK` address that does not exist (R69, R546). That a fault is a next state, with every later command refused until reset (R501, R505), is log 3, DEDUCED; that a step with nothing pending leaves the state as it is, is log 1, DESIGN CHOICE. -/
def Obligations.StepStopsOnlyAtAbsentAddress : Prop := ∀ s : State, s.nextActionValid → s.goesOn

/-! ### Invariants -/

/-- The invariant holds right after reset. -/
def Obligations.ResetMeetsInvariant : Prop := State.reset.Inv

/-- Every step keeps the invariant: canonical block register, reserved `STATUS` bits 0, fault and diagnostic registers consistent with the flags. -/
def Obligations.StepKeepsInvariant : Prop := ∀ s t : State, s.Inv → step s = .next t → t.Inv

/-- `STATUS.FAULT` with its record, and `STATUS.DIAG`, are cleared by nothing but a reset action; `DIAGCNT` never counts down and goes up by at most 1 a step (R28, R29, R508). -/
def Obligations.FlagsAreStickyUntilReset : Prop :=
  ∀ (s t : State), s.queue.head? ≠ some .reset → step s = .next t →
    (s.faulted = true → t.faulted = true ∧ t.fcause = s.fcause ∧ t.finfo = s.finfo)
      ∧ (s.diagged = true → t.diagged = true)
      ∧ (s.diagcode = 1#8 → t.diagcode = 1#8)
      ∧ s.diagcnt.toNat ≤ t.diagcnt.toNat ∧ t.diagcnt.toNat ≤ s.diagcnt.toNat + 1

/-- Which commands write which register (the table of 10_state.md section 1; R21 to R24, R27 to R30): `BLK` is written only by SETBIT, SETBITS and the encoders, `CUR` only by the four BitCursor commands, `PIX` only by the decoders, `RES` only by GETBIT and GETBITS, `ATHR` by no command, the diagnostic registers only by DEC.BC6HU and DEC.BC6HS, and `FAULT`, `FCAUSE` and `FINFO` only by fault entry with the command's own word, which no decoder enters; bits 7:2 of `STATUS` are written by none. That no command changes the queue or the host's read port, the model's own fields, is logs 1 and 2. -/
def Obligations.EachRegisterHasItsOwnWriters : Prop :=
  ∀ (i : Instr) (s t : State), exec i s = .next t →
    (isBitCursor i = false → t.cur = s.cur)
      ∧ ((∀ n, i ≠ .getbits n) → i ≠ .getbit → t.res = s.res)
      ∧ (i ≠ .decBc6hu → i ≠ .decBc6hs → t.diagged = s.diagged ∧ t.diagcode = s.diagcode ∧ t.diagcnt = s.diagcnt)
      ∧ (i ∉ decoders → t.pix = s.pix)
      ∧ (i ∈ decoders ∨ i = .getbit ∨ (∃ n, i = .getbits n) → t.blk = s.blk)
      ∧ ((t.faulted = s.faulted ∧ t.fcause = s.fcause ∧ t.finfo = s.finfo)
          ∨ (i ∉ decoders ∧ ∃ code, code ∈ raisedCodes ∧ t = faultEntered s code (encode i)))
      ∧ t.status &&& 0xFC#8 = s.status &&& 0xFC#8
      ∧ t.athr = s.athr ∧ t.queue = s.queue ∧ t.hostRd = s.hostRd

/-! ### BitCursor -/

/-- R120: GETBIT returns block bit `CUR` and advances by 1; at or past the end it faults with `CURSOR_OVERRUN`. -/
def Obligations.GetbitReadsTheBitAtCur : Prop :=
  decode 0x00000001#32 = some .getbit ∧ ∀ s : State,
    (s.cur.toNat < 128 →
      exec .getbit s = .next { s with
        res := (s.blk.read (s.cur.toNat / 8) >>> (s.cur.toNat % 8)) &&& 1#8
        cur := s.cur + 1#8 })
      ∧ (128 ≤ s.cur.toNat → exec .getbit s = .next (faultEntered s 1#8 0x00000001#32))

/-- R121: GETBITS returns the `n` bits from `CUR`, the low part from the current byte and the high part from the next where the range straddles, and advances by `n`; a width of 0 or above 8 faults with `BAD_WIDTH`, then a range past the end with `CURSOR_OVERRUN`. -/
def Obligations.GetbitsReadsTheFieldAtCur : Prop :=
  ∀ (s : State) (n : Nat), n < 16 →
    let k := s.cur.toNat / 8
    let sh := s.cur.toNat % 8
    let cmd := 0x00000002#32 ||| BitVec.ofNat 32 n <<< 8
    decode cmd = some (.getbits n)
      ∧ (1 ≤ n → n ≤ 8 → s.cur.toNat + n ≤ 128 →
      ∃ t, exec (.getbits n) s = .next t ∧ t = { s with res := t.res, cur := t.cur }
        ∧ t.cur.toNat = s.cur.toNat + n
        ∧ t.res.toNat = ((List.range n).map fun i => if blkBit s.blk (s.cur.toNat + i) then 2 ^ i else 0).sum
        ∧ (sh + n ≤ 8 → t.res.toNat = (s.blk.read k).toNat / 2 ^ sh % 2 ^ n)
        ∧ (8 < sh + n →
            t.res.toNat = (s.blk.read k).toNat / 2 ^ sh + (s.blk.read (k + 1)).toNat % 2 ^ (sh + n - 8) * 2 ^ (8 - sh)))
      ∧ (n = 0 ∨ 8 < n → exec (.getbits n) s = .next (faultEntered s 2#8 cmd))
      ∧ (1 ≤ n → n ≤ 8 → 128 < s.cur.toNat + n → exec (.getbits n) s = .next (faultEntered s 1#8 cmd))

/-- R122: SETBIT writes block bit `CUR`, leaves every other bit, and advances by 1; at or past the end it faults. -/
def Obligations.SetbitWritesTheBitAtCur : Prop :=
  ∀ (s : State) (v : Bool),
    let cmd := if v then 0x00010003#32 else 0x00000003#32
    decode cmd = some (.setbit v)
      ∧ (s.blk.wf → s.cur.toNat < 128 →
      ∃ t, exec (.setbit v) s = .next t ∧ t = { s with blk := t.blk, cur := s.cur + 1#8 }
        ∧ (∀ p, p < 128 → blkBit t.blk p = if p = s.cur.toNat then v else blkBit s.blk p)
        ∧ ∀ j, j ≠ s.cur.toNat / 8 → t.blk.read j = s.blk.read j)
      ∧ (128 ≤ s.cur.toNat → exec (.setbit v) s = .next (faultEntered s 1#8 cmd))

/-- R123: SETBITS writes the low `n` bits of `VAL` to the block bits from `CUR`, leaves every other bit, and advances by `n`; `BAD_WIDTH`, then `CURSOR_OVERRUN`. -/
def Obligations.SetbitsWritesTheFieldAtCur : Prop :=
  ∀ (s : State) (n : Nat) (val : Byte), n < 16 →
    let cmd := 0x00000004#32 ||| BitVec.ofNat 32 n <<< 8 ||| val.setWidth 32 <<< 16
    decode cmd = some (.setbits n val)
      ∧ (s.blk.wf → 1 ≤ n → n ≤ 8 → s.cur.toNat + n ≤ 128 →
      ∃ t, exec (.setbits n val) s = .next t ∧ t = { s with blk := t.blk, cur := t.cur }
        ∧ t.cur.toNat = s.cur.toNat + n
        ∧ (∀ p, p < 128 → blkBit t.blk p =
            if s.cur.toNat ≤ p ∧ p < s.cur.toNat + n then val.getLsbD (p - s.cur.toNat) else blkBit s.blk p)
        ∧ ∀ j, 16 ≤ j → t.blk.read j = s.blk.read j)
      ∧ (n = 0 ∨ 8 < n → exec (.setbits n val) s = .next (faultEntered s 2#8 cmd))
      ∧ (1 ≤ n → n ≤ 8 → 128 < s.cur.toNat + n → exec (.setbits n val) s = .next (faultEntered s 1#8 cmd))

/-- R124: for every `p` and `w` in 1..8 with `p + w ≤ 128`, SETBITS at `p` then GETBITS at `p` returns `v & (2^w - 1)` and leaves `CUR = p + w`. -/
def Obligations.WriteThenReadReturnsTheValue : Prop :=
  ∀ (s : State) (p w : Nat) (v : Byte), s.blk.wf → 1 ≤ w → w ≤ 8 → p + w ≤ 128 →
    ∃ t u, exec (.setbits w v) { s with cur := BitVec.ofNat 8 p } = .next t
      ∧ exec (.getbits w) { t with cur := BitVec.ofNat 8 p } = .next u
      ∧ u.res.toNat = v.toNat % 2 ^ w ∧ u.cur.toNat = p + w ∧ u.status = s.status

/-- R125: from `CUR = 0`, 128 SETBIT commands lay down any pattern, and from `CUR = 0` again each GETBIT returns its bit in order. -/
def Obligations.SequentialWriteThenReadReproducesThePattern : Prop :=
  ∀ (s : State) (f : Nat → Bool), s.blk.wf → s.cur = 0#8 →
    ∃ t, execAll ((List.range 128).map fun i => .setbit (f i)) s = some t ∧ t.cur = 128#8
      ∧ (∀ p, p < 128 → blkBit t.blk p = f p)
      ∧ ∀ n, n < 128 → ∃ u, execAll (List.replicate (n + 1) .getbit) { t with cur := 0#8 } = some u
          ∧ u.res = (if f n then 1#8 else 0#8) ∧ u.blk = t.blk

/-! ### Faults -/

/-- R502: a command that faults writes `STATUS.FAULT`, `FCAUSE` and `FINFO`, the last with the command word, and changes nothing else. -/
def Obligations.FaultEntryIsPrecise : Prop :=
  ∀ (w : Word) (s t : State), s.faulted = false → issue w s = .next t → t.faulted = true →
    ∃ code, code ∈ raisedCodes ∧ t = faultEntered s code w

/-- R504: every command gives a next state, and which commands fault, the complete list; no DEC faults. -/
def Obligations.CommandsFaultExactlyWhen : Prop :=
  ∀ (i : Instr) (s : State), s.faulted = false → ∃ t, exec i s = .next t ∧ (t.faulted = true ↔ faultsWhen s i)

/-- R509: the order of checks. -/
def Obligations.FaultPriority : Prop :=
  ∀ (s : State) (w : Word),
    (s.faulted = true → issue w s = .next s)
      ∧ (s.faulted = false → decode w = none → issue w s = .next (faultEntered s 3#8 w))
      ∧ (∀ n, s.faulted = false → decode w = some (.getbits n) →
          (n = 0 ∨ 8 < n → issue w s = .next (faultEntered s 2#8 w))
            ∧ (1 ≤ n → n ≤ 8 → 128 < s.cur.toNat + n → issue w s = .next (faultEntered s 1#8 w)))
      ∧ (∀ n v, s.faulted = false → decode w = some (.setbits n v) →
          (n = 0 ∨ 8 < n → issue w s = .next (faultEntered s 2#8 w))
            ∧ (1 ≤ n → n ≤ 8 → 128 < s.cur.toNat + n → issue w s = .next (faultEntered s 1#8 w)))
      ∧ (s.faulted = false → decode w = some .getbit → 128 ≤ s.cur.toNat → issue w s = .next (faultEntered s 1#8 w))
      ∧ (∀ v, s.faulted = false → decode w = some (.setbit v) → 128 ≤ s.cur.toNat →
          issue w s = .next (faultEntered s 1#8 w))
      ∧ (∀ dr f e, e ∈ encoders dr f → s.faulted = false → decode w = some e.1 → ¬ inputsFinite e.1 e.2.2 s →
          issue w s = .next (faultEntered s 5#8 w))
      ∧ (∀ t, s.faulted = false → issue w s = .next t → t.faulted = true →
          t.diagged = s.diagged ∧ t.diagcode = s.diagcode ∧ t.diagcnt = s.diagcnt)

/-! ### BC1, BC2, BC3 decode -/

/-- R196: DEC.BC1. The three-colour palette when `c0 ≤ c1` as words, else the four-colour one; nothing but `PIX` changes. -/
def Obligations.DecBc1SelectsFromThePalette : Prop :=
  decode 0x00000011#32 = some .decBc1 ∧ ∀ s : State, ∃ t, exec .decBc1 s = .next t ∧ t = { s with pix := t.pix }
    ∧ ∀ i : Fin 16, pixelHolds t i
        (paletteColour (decide (word16 s 0 ≤ word16 s 2)) (word16 s 0) (word16 s 2) (bitmapIndex s 0 i))

/-- R198: DEC.BC2. Always the four-colour palette; alpha is nibble `i`, divided by 15. -/
def Obligations.DecBc2ReadsDirectAlpha : Prop :=
  decode 0x00000012#32 = some .decBc2 ∧ ∀ s : State, ∃ t, exec .decBc2 s = .next t ∧ t = { s with pix := t.pix }
    ∧ ∀ i : Fin 16, pixelHolds t i
        { paletteColour false (word16 s 8) (word16 s 10) (bitmapIndex s 8 i) with
          a := ((s.blk.read (i / 2)).toNat / 16 ^ (i.val % 2) % 16 : Nat) / 15 }

/-- R200: DEC.BC3. Always the four-colour palette; alpha is the ramp entry of the 3-bit index, eight steps when `a0 > a1`. -/
def Obligations.DecBc3ReadsTheAlphaRamp : Prop :=
  decode 0x00000013#32 = some .decBc3 ∧ ∀ s : State, ∃ t, exec .decBc3 s = .next t ∧ t = { s with pix := t.pix }
    ∧ ∀ i : Fin 16, pixelHolds t i
        { paletteColour false (word16 s 8) (word16 s 10) (bitmapIndex s 8 i) with a := unormValue s 0 i }

/-! ### BC4, BC5 -/

/-- R284, R285: DEC.BC4U and DEC.BC4S. Red is the channel value, green and blue 0, alpha 1; nothing but `PIX` changes. -/
def Obligations.DecBc4WritesRedAndConstants : Prop :=
  decode 0x00000014#32 = some .decBc4u ∧ decode 0x00000015#32 = some .decBc4s ∧ ∀ s : State,
    (∃ t, exec .decBc4u s = .next t ∧ t = { s with pix := t.pix }
      ∧ ∀ i : Fin 16, pixelHolds t i ⟨unormValue s 0 i, 0, 0, 1⟩)
    ∧ ∃ t, exec .decBc4s s = .next t ∧ t = { s with pix := t.pix }
      ∧ ∀ i : Fin 16, pixelHolds t i ⟨snormValue s 0 i, 0, 0, 1⟩

/-- R286, R287: DEC.BC5U and DEC.BC5S. Red and green are two independent channel blocks, blue 0, alpha 1. -/
def Obligations.DecBc5WritesRedAndGreen : Prop :=
  decode 0x00000016#32 = some .decBc5u ∧ decode 0x00000017#32 = some .decBc5s ∧ ∀ s : State,
    (∃ t, exec .decBc5u s = .next t ∧ t = { s with pix := t.pix }
      ∧ ∀ i : Fin 16, pixelHolds t i ⟨unormValue s 0 i, unormValue s 8 i, 0, 1⟩)
    ∧ ∃ t, exec .decBc5s s = .next t ∧ t = { s with pix := t.pix }
      ∧ ∀ i : Fin 16, pixelHolds t i ⟨snormValue s 0 i, snormValue s 8 i, 0, 1⟩

/-- R310: with `r0 > r1` and unequal endpoint values the decode table runs strictly down through entries 0, 2, 3, .., 7, 1; with `r0 ≤ r1` entries 6 and 7 are the format's extremes, and with `E0 < E1` entries 0, 2, 3, 4, 5, 1 run strictly up. -/
def Obligations.ChannelRampIsMonotone : Prop :=
  ∀ (signed : Bool) (b0 b1 : Nat), b0 < 256 → b1 < 256 →
    let e (k : Nat) : ℚ := (channelRamp signed b0 b1).getD k 0
    (storedInt signed b1 < storedInt signed b0 → e 0 ≠ e 1 →
      e 2 < e 0 ∧ e 3 < e 2 ∧ e 4 < e 3 ∧ e 5 < e 4 ∧ e 6 < e 5 ∧ e 7 < e 6 ∧ e 1 < e 7)
    ∧ (storedInt signed b0 ≤ storedInt signed b1 →
      e 6 = (if signed then -1 else 0) ∧ e 7 = 1
        ∧ (e 0 < e 1 → e 0 < e 2 ∧ e 2 < e 3 ∧ e 3 < e 4 ∧ e 4 < e 5 ∧ e 5 < e 1))

/-! ### BC6H decode -/

/-- R332: the selectors without a mode are exactly the four reserved ones; one of them gives sixteen opaque black pixels and exactly one diagnostic, and is no fault. -/
def Obligations.ReservedBc6hGivesBlackAndOneDiagnostic : Prop :=
  (∀ b : Block, mode6H (selector6H b) = none ↔ selector6H b ∈ reservedSelectors) ∧ ∀ (s : State) (i : Instr), i = .decBc6hu ∨ i = .decBc6hs → selector6H s.block ∈ reservedSelectors →
    ∃ t, exec i s = .next t
      ∧ t = { s with pix := t.pix, status := s.status ||| 2#8, diagcode := 1#8, diagcnt := t.diagcnt }
      ∧ t.diagcnt.toNat = min (s.diagcnt.toNat + 1) (2 ^ 32 - 1)
      ∧ t.faulted = s.faulted
      ∧ ∀ k : Fin 16, pixelHolds t k ⟨0, 0, 0, 1⟩

/-- R345, R346: a selector that is not reserved has a mode, and both decoders write, for every pixel, the words of the halves that R334 to R343 compute from the bits of `BLK`, alpha 1, and nothing else. The last clause says that the model's palette integer and endpoint, which other statements speak of, are these. -/
def Obligations.AssignedBc6hSelectorDecodes : Prop :=
  ∀ s : State, bc6Selector s ∉ reservedSelectors →
    ∃ M ∈ modes6H, M.sel = bc6Selector s
      ∧ ∀ signed : Bool, ∃ t, exec (if signed then .decBc6hs else .decBc6hu) s = .next t ∧ t = { s with pix := t.pix }
        ∧ ∀ i : Fin 16,
            holdsHalf (t.pix[i.val]).r (bc6Integer s M signed i .r) ∧ holdsHalf (t.pix[i.val]).g (bc6Integer s M signed i .g)
            ∧ holdsHalf (t.pix[i.val]).b (bc6Integer s M signed i .b) ∧ stores (t.pix[i.val]).a 1
            ∧ ∀ c : Comp, pixelInt6H M s.block signed i c = bc6Integer s M signed i c
                ∧ ∀ e ∈ endpointIds M, endpoint6H M s.block signed e c = bc6Endpoint s M signed e c

/-- R344: which halves can arise. Unsigned: 0 to 0x7BFF. Signed: magnitude at most 0x7BFF, but for 0xFC00, which only mode 14 gives and only where that component of an endpoint is -2^15. -/
def Obligations.Bc6hHalvesAreInRange : Prop :=
  ∀ (M : Mode6H) (b : Block) (i : Fin 16) (c : Comp), mode6H (selector6H b) = some M →
    (0 ≤ pixelInt6H M b false i c ∧ pixelInt6H M b false i c ≤ 0x7BFF)
    ∧ pixelInt6H M b true i c ≤ 0x7BFF ∧ -0x7C00 ≤ pixelInt6H M b true i c
    ∧ (pixelInt6H M b true i c = -0x7C00 → M.num = 14 ∧ ∃ e ∈ endpointIds M, endpoint6H M b true e c = -2 ^ 15)

/-- R383: header and indices read every block bit exactly once; a block of an assigned selector is the emission of the candidate it holds (R413). -/
def Obligations.Bc6hEmissionInvertsDecoding : Prop :=
  ∀ (M : Mode6H) (b : Block), mode6H (selector6H b) = some M → emit6H M (heldCandidate M b) = b

/-- R413, R423 item 2: the decoder reads back from an emitted block what the emission was given. `E` are the quantised endpoints, in the range of the anchor's width, `shape` is one of the mode's, every index fits its width (so a fix-up index is below `2^(ip-1)`), and the endpoints fit as R410 says, the others as differences from the anchor in a transformed mode. -/
def Obligations.Bc6hDecodingInvertsEmission : Prop :=
  ∀ (M : Mode6H) (sg : Bool) (shape : Nat) (E : EndpointId → IntColor) (idx : List Nat), M ∈ modes6H →
    (if M.parts = 1 then shape < 32 else shape = 0) → idx.length = 16 →
    (∀ i, i < 16 → idx.getD i 0 < if i = 0 ∨ (M.parts = 1 ∧ i = fixup2 shape) then 2 ^ (M.ip - 1) else 2 ^ M.ip) →
    (∀ e ∈ endpointIds M, ∀ c : Comp,
      if sg then -2 ^ (comp M.precW c - 1) ≤ comp (E e) c ∧ comp (E e) c < 2 ^ (comp M.precW c - 1)
      else 0 ≤ comp (E e) c ∧ comp (E e) c < 2 ^ comp M.precW c) →
    fits6H M sg ⟨shape, transform6H M E, idx⟩ = true →
    let b := emit6H M ⟨shape, transform6H M E, idx⟩
    mode6H (selector6H b) = some M ∧ shape6H M b = shape ∧ (∀ i, i < 16 → index6H M b i = idx.getD i 0)
      ∧ ∀ e ∈ endpointIds M, ∀ c : Comp,
          stored6H M b sg e c = (if e ≠ .w ∧ M.tr then comp (E e) c - comp (E .w) c else comp (E e) c)
          ∧ endpoint6H M b sg e c = comp (E e) c

/-- R386, R409: exchanging the endpoints and complementing the index leaves the decoded integer unchanged, in both formats. -/
def Obligations.EndpointSwapWithComplementIsNeutral : Prop :=
  ∀ (signed : Bool) (n ip k : Nat) (a b : Int), ip = 3 ∨ ip = 4 → k < 2 ^ ip →
    paletteInt signed n a b (weight ip k) = paletteInt signed n b a (weight ip (2 ^ ip - 1 - k))

/-! ### BC7 decode -/

/-- R442: the mode is the least set bit of block bits 0..7; with none set the block is reserved and decodes to sixteen transparent black pixels, with no diagnostic and no fault. -/
def Obligations.Bc7ModeIsTheUnaryPrefix : Prop :=
  (∀ (b : Block) (p : Nat), p < 8 → (∀ q, q < p → b.getLsbD q = false) → b.getLsbD p = true → ∃ M, mode7 b = some M ∧ M.num = p)
    ∧ ∀ s : State, s.blk.read 0 = 0#8 →
        ∃ t, exec .decBc7 s = .next t ∧ t = { s with pix := t.pix } ∧ ∀ i : Fin 16, pixelHolds t i ⟨0, 0, 0, 0⟩

/-- R441 to R448: DEC.BC7 changes nothing but `PIX`. Where the first byte has a set bit the mode is its least set bit and every pixel gets `u/255` for the 8-bit colour `u` that R443 to R447 compute from the bits of `BLK`; the zero byte gives transparent black. In each case the colour is the one the model calls `bc7Ldr`, which other statements speak of, and its channels are in 0..255. -/
def Obligations.Bc7PixelsAreInterpolatedAndRotated : Prop :=
  ∀ s : State, ∃ t, exec .decBc7 s = .next t ∧ t = { s with pix := t.pix }
    ∧ ((s.blk.read 0 = 0#8 ∧ ∀ i : Fin 16, pixelHolds t i ⟨0, 0, 0, 0⟩ ∧ bc7Ldr s.block i = ⟨0, 0, 0, 0⟩)
      ∨ ∃ M ∈ modes7, (s.blk.read 0).toNat % 2 ^ (M.num + 1) = 2 ^ M.num
          ∧ (bc7Widths M (bitsAt s (M.num + 1) M.pb)).sum = 128
          ∧ ∀ i : Fin 16, ∃ u : LdrColor, u = bc7Colour s M i ∧ bc7Ldr s.block i = u
              ∧ u.r ≤ 255 ∧ u.g ≤ 255 ∧ u.b ≤ 255 ∧ u.a ≤ 255
              ∧ pixelHolds t i ⟨u.r / 255, u.g / 255, u.b / 255, u.a / 255⟩)

/-- R443 to R447: in a mode without alpha and without rotation every pixel is opaque. -/
def Obligations.Bc7ModesWithoutAlphaAreOpaque : Prop :=
  ∀ (M : Mode7) (b : Block) (i : Fin 16), mode7 b = some M → M.num < 4 → (bc7Ldr b i).a = 255

/-! ### All decoders -/

/-- R21, R12, R548, R549: a decoder's tile depends on the bytes of `BLK` its format uses (R8: eight for BC1, BC4U and BC4S, which do not read `BLK[8..15]`) and, of the configuration, on `RN32`, `CHAN_FMT` and `BLOCK_BYTES` alone; nothing of the old tile, and nothing of any other register, survives in it. The machine that `exec` gives is the configured one at the defaults. But for BC6H, the exact colours of the pixels depend on the block alone, and every configuration stores `RN32` of them, whatever function `RN32` is (R12, R141). -/
def Obligations.DecodedTileDependsOnBlkOnly : Prop :=
  (∀ (i : Instr) (s : State), exec i s = execIn config i s)
    ∧ (∀ (i : Instr) (s s' : State) (cfg cfg' : Config), i ∈ decoders → cfg.blockBytes = config.blockBytes →
        cfg'.blockBytes = config.blockBytes → cfg'.chanFmt = cfg.chanFmt → cfg'.rn32 = cfg.rn32 →
        (∀ k, k < (if i ∈ [Instr.decBc1, .decBc4u, .decBc4s] then 8 else 16) → s.blk.read k = s'.blk.read k) →
        ∃ t t', execIn cfg i s = .next t ∧ execIn cfg' i s' = .next t' ∧ t.pix = t'.pix)
    ∧ ∀ (i : Instr) (s : State), i ∈ decoders → i ≠ .decBc6hu → i ≠ .decBc6hs →
        ∃ q : Fin 16 → Rgba, ∀ cfg : Config, cfg.blockBytes = config.blockBytes →
          ∃ t, execIn cfg i s = .next t ∧ ∀ (k : Fin 16) (c : Chan),
            (t.pix[k.val]).get c = if (q k).get c = 0 then 0#32 else cfg.rn32 ((q k).get c)

/-! ### All encoders -/

/-- Every encoder, with finite inputs, completes: it writes the bytes of `BLK` its format has and changes no other byte and no other register; with a non-finite input it faults with `NONFINITE_INPUT`. -/
def Obligations.EncodersWriteTheirBytesOnly : Prop :=
  ∀ (dr f : Bool) (e : Instr × Nat × List Chan) (s : State), e ∈ encoders dr f →
    (s.blk.wf → inputsFinite e.1 e.2.2 s →
      ∃ t, exec e.1 s = .next t ∧ t = { s with blk := t.blk } ∧ ∀ k, e.2.1 ≤ k → t.blk.read k = s.blk.read k)
    ∧ (¬ inputsFinite e.1 e.2.2 s → exec e.1 s = .next (faultEntered s 5#8 (encode e.1)))

/-- What each encoder writes, as the encoding functions of the spec give it: the results of R230, R240, R250, R300 to R303, R420, R421 and R460 on the exact values of `PIX`. -/
def Obligations.EncodersWriteTheEncodedBlock : Prop :=
  ∀ (dr f : Bool) (s : State), s.blk.wf →
    (inputsFinite (.encBc1 dr f) [.r, .g, .b, .a] s →
      ∃ t, exec (.encBc1 dr f) s = .next t ∧ t.blk.readBytes 0 8 = encColour config (s.colours config) dr f (val s.athr))
    ∧ (tileFinite s [.r, .g, .b, .a] →
      (∃ t, exec (.encBc2 dr f) s = .next t ∧ t.blk.readBytes 0 8 = encAlpha4 (s.colours config) f
          ∧ t.blk.readBytes 8 8 = encColour config (s.colours config) dr false 0)
      ∧ (∃ t, exec (.encBc3 dr f) s = .next t ∧ t.blk.readBytes 0 8 = encAlpha8 config (s.colours config) f
          ∧ t.blk.readBytes 8 8 = encColour config (s.colours config) dr false 0)
      ∧ ∃ t, exec .encBc7 s = .next t ∧ t.block = enc7 config (s.ldrColours config))
    ∧ (tileFinite s [.r] → ∀ sg : Bool,
      ∃ t, exec (if sg then .encBc4s else .encBc4u) s = .next t
        ∧ t.blk.readBytes 0 8 = encChan config sg ((s.colours config).map (·.r)))
    ∧ (tileFinite s [.r, .g] → ∀ sg : Bool,
      ∃ t, exec (if sg then .encBc5s else .encBc5u) s = .next t
        ∧ t.blk.readBytes 0 8 = encChan config sg ((s.colours config).map (·.r))
        ∧ t.blk.readBytes 8 8 = encChan config sg ((s.colours config).map (·.g)))
    ∧ (tileFinite s [.r, .g, .b] → ∀ sg : Bool,
      ∃ t, exec (if sg then .encBc6hs else .encBc6hu) s = .next t ∧ t.block = enc6H config (s.intColours config sg) sg)

/-- R553, R12: with the port and the block sizes at their defaults, two states with the same `PIX` and `ATHR` get the same bytes from an encoder at any two configurations that agree on the parameters that command has; `RN32` is a parameter of none, `F32toF16` of BC6H alone. -/
def Obligations.EncodedBytesDependOnPixAndAthrOnly : Prop :=
  ∀ (dr f : Bool) (e : Instr × Nat × List Chan) (s s' : State) (cfg cfg' : Config), e ∈ encoders dr f →
    s.blk.wf → s'.blk.wf → s.pix = s'.pix → s.athr = s'.athr → inputsFinite e.1 e.2.2 s →
    cfg.chanFmt = config.chanFmt → cfg'.chanFmt = config.chanFmt → cfg.blockBytes = config.blockBytes →
    cfg'.blockBytes = config.blockBytes → parametersAgree e.1 cfg cfg' →
    ∃ t t', execIn cfg e.1 s = .next t ∧ execIn cfg' e.1 s' = .next t' ∧ ∀ k, k < e.2.1 → t.blk.read k = t'.blk.read k

/-! ### Dithering -/

/-- R150 to R152: a pass over sixteen scalars or RGB triples, for any quantiser. The running value of a pixel is its input plus, with dithering, 7/16, 1/16, 5/16 and 3/16 of the residuals of its left, upper-left, upper and upper-right neighbours inside the tile, and of nothing else; the result is the quantiser's of each running value. A quantiser that names no value for a pixel (R227's transparent ones) leaves it without a residual. -/
def Obligations.DitheringGathersTheNeighboursResiduals : Prop :=
  ∀ (β : Type) (dither : Bool),
    (∀ (Q : Nat → ℚ → β × Option ℚ) (input : List ℚ), input.length = 16 →
      ∃ v d : Nat → ℚ, runsWith dither (fun i => input.getD i 0) v d
        ∧ (∀ i, i < 16 → d i = match (Q i (v i)).2 with | some w => v i - w | none => 0)
        ∧ pass scalarOps dither Q input = (List.range 16).map fun i => (Q i (v i)).1)
    ∧ ∀ (Q : Nat → Rgb → β × Option Rgb) (input : List Rgb), input.length = 16 →
      ∃ v d : Nat → Rgb, runsWithRgb dither (fun i => input.getD i ⟨0, 0, 0⟩) v d
        ∧ (∀ i, i < 16 → d i = match (Q i (v i)).2 with
            | some w => ⟨(v i).r - w.r, (v i).g - w.g, (v i).b - w.b⟩
            | none => ⟨0, 0, 0⟩)
        ∧ pass rgbOps dither Q input = (List.range 16).map fun i => (Q i (v i)).1

/-! ### BC1, BC2, BC3 encode -/

/-- R221: with the colour key on and every alpha strictly below the threshold, the block is the fixed transparent block, whatever the colours and `DR`; it decodes to sixteen transparent black pixels, and those, encoded again with the key and a positive threshold, give the same eight bytes (R263). -/
def Obligations.AllKeyedTileGivesTheTransparentBlock : Prop :=
  ∀ (s : State) (dr : Bool), s.blk.wf → tileFinite s [.r, .g, .b, .a] → athrFinite s →
    (∀ i : Fin 16, val (s.pix[i.val]).a < val s.athr) →
    ∃ t u, exec (.encBc1 dr true) s = .next t ∧ t.blk.read 0 = 0x00#8 ∧ t.blk.read 1 = 0x00#8
      ∧ (∀ k, 2 ≤ k → k < 8 → t.blk.read k = 0xFF#8)
      ∧ exec .decBc1 t = .next u ∧ (∀ (i : Fin 16) (c : Chan), (u.pix[i.val]).get c = 0#32)
      ∧ (0 < val s.athr → ∀ dr' : Bool, ∃ v, exec (.encBc1 dr' true) u = .next v ∧ ∀ k, v.blk.read k = t.blk.read k)

/-- R262: sixteen identical pixels with channels in 0..1 and no key. Without dithering they give the degenerate block, which decodes to sixteen equal opaque pixels, each within half a step of the 5-6-5 grid (1/62 for red and blue, 1/126 for green) before the rounding of the port. With dithering every colour of the grid pass stays on one of the two grid points around the input; where every channel is 0 or 1, and so lies on the grid, no error arises and the block is degenerate and decodes to the very colour, whatever `DR`. -/
def Obligations.SolidTileRoundTrip : Prop :=
  ∀ (s : State) (px : Pixel), s.blk.wf → tileFinite s [.r, .g, .b, .a] → (∀ i : Fin 16, s.pix[i.val] = px) →
    0 ≤ val px.r → val px.r ≤ 1 → 0 ≤ val px.g → val px.g ≤ 1 → 0 ≤ val px.b → val px.b ≤ 1 →
    (∃ t u, exec (.encBc1 false false) s = .next t ∧ exec .decBc1 t = .next u
      ∧ word16 t 0 = word16 t 2 ∧ (∀ k, 4 ≤ k → k < 8 → t.blk.read k = 0#8)
      ∧ ∃ q : Rgba, (∀ i : Fin 16, pixelHolds u i q) ∧ q.a = 1
          ∧ |q.r - val px.r| ≤ 1 / 62 ∧ |q.g - val px.g| ≤ 1 / 126 ∧ |q.b - val px.b| ≤ 1 / 62)
    ∧ ∀ dr : Bool,
      (∀ g ∈ gridPass (s.colours config) dr,
        (g.r * 31 = ⌊val px.r * 31⌋ ∨ g.r * 31 = ⌈val px.r * 31⌉) ∧ (g.g * 63 = ⌊val px.g * 63⌋ ∨ g.g * 63 = ⌈val px.g * 63⌉)
          ∧ (g.b * 31 = ⌊val px.b * 31⌋ ∨ g.b * 31 = ⌈val px.b * 31⌉))
      ∧ ((∀ c ∈ [Chan.r, .g, .b], val (px.get c) = 0 ∨ val (px.get c) = 1) →
          ∃ t u, exec (.encBc1 dr false) s = .next t ∧ exec .decBc1 t = .next u
            ∧ word16 t 0 = word16 t 2 ∧ (∀ k, 4 ≤ k → k < 8 → t.blk.read k = 0#8)
            ∧ ∀ i : Fin 16, pixelHolds u i ⟨val px.r, val px.g, val px.b, 1⟩)

/-- R226, R229: the stored order selects the decode mode. Without a key, with a key that no pixel is below, and always in BC2 and BC3, the block has `c0 > c1` or is degenerate; with a key that some but not all pixels are below, `c0 ≤ c1`. (A key that every pixel is below gives the block of R221.) -/
def Obligations.EncodedEndpointOrderSelectsTheMode : Prop :=
  ∀ (s : State) (dr f : Bool), s.blk.wf → tileFinite s [.r, .g, .b, .a] →
    (∃ t, exec (.encBc1 dr false) s = .next t
      ∧ (word16 t 2 < word16 t 0 ∨ (word16 t 0 = word16 t 2 ∧ t.blk.readBytes 4 4 = 0)))
    ∧ (∃ t, exec (.encBc2 dr f) s = .next t
      ∧ (word16 t 10 < word16 t 8 ∨ (word16 t 8 = word16 t 10 ∧ t.blk.readBytes 12 4 = 0)))
    ∧ (∃ t, exec (.encBc3 dr f) s = .next t
      ∧ (word16 t 10 < word16 t 8 ∨ (word16 t 8 = word16 t 10 ∧ t.blk.readBytes 12 4 = 0)))
    ∧ (athrFinite s → (∃ i : Fin 16, val (s.pix[i.val]).a < val s.athr) →
        (∃ i : Fin 16, ¬ val (s.pix[i.val]).a < val s.athr) →
        ∃ t, exec (.encBc1 dr true) s = .next t ∧ word16 t 0 ≤ word16 t 2)
    ∧ (athrFinite s → (∀ i : Fin 16, ¬ val (s.pix[i.val]).a < val s.athr) →
        ∃ t, exec (.encBc1 dr true) s = .next t
          ∧ (word16 t 2 < word16 t 0 ∨ (word16 t 0 = word16 t 2 ∧ t.blk.readBytes 4 4 = 0)))

/-- R222, R227: with the colour key on and some but not all pixels below the threshold, exactly the pixels below it get index 3, which the three-colour mode shows as transparent. -/
def Obligations.KeyedPixelsGetTheTransparentIndex : Prop :=
  ∀ (s : State) (dr : Bool), s.blk.wf → tileFinite s [.r, .g, .b, .a] → athrFinite s →
    (∃ i : Fin 16, val (s.pix[i.val]).a < val s.athr) → (∃ i : Fin 16, ¬ val (s.pix[i.val]).a < val s.athr) →
    ∃ t, exec (.encBc1 dr true) s = .next t
      ∧ ∀ i : Fin 16, bitmapIndex t 0 i = 3 ↔ val (s.pix[i.val]).a < val s.athr

/-- R227: the 2-bit indices of a colour block that ENC.BC1, ENC.BC2 or ENC.BC3 writes, as a function of the stored endpoints: a pixel below the threshold of a partly keyed tile gets 3, every other pixel the index of the axis position nearest to its running value, which with `DR` holds the residuals of the pixels before it (R150). The tile that is keyed throughout is R221's. -/
def Obligations.ColourIndicesFollowTheAxis : Prop :=
  ∀ (s : State) (dr f : Bool), s.blk.wf → tileFinite s [.r, .g, .b, .a] →
    (∃ t, exec (.encBc1 dr false) s = .next t ∧ colourIndicesHold s t 0 dr false)
    ∧ (athrFinite s → (∃ i : Fin 16, ¬ val (s.pix[i.val]).a < val s.athr) →
        ∃ t, exec (.encBc1 dr true) s = .next t
          ∧ colourIndicesHold s t 0 dr (decide (∃ i : Fin 16, val (s.pix[i.val]).a < val s.athr)))
    ∧ (∃ t, exec (.encBc2 dr f) s = .next t ∧ colourIndicesHold s t 8 dr false)
    ∧ ∃ t, exec (.encBc3 dr f) s = .next t ∧ colourIndicesHold s t 8 dr false

/-- R240, R241: ENC.BC2 stores for each pixel the 4-bit alpha `clamp(rhu(15·v), 0, 15)` of its running value `v`, which without `DA` is its alpha and with `DA` holds the residuals of the pixels before it as well. -/
def Obligations.EncBc2StoresTheAlphaNibbles : Prop :=
  ∀ (s : State) (dr da : Bool), s.blk.wf → tileFinite s [.r, .g, .b, .a] →
    ∃ (t : State) (v : Nat → ℚ), exec (.encBc2 dr da) s = .next t
      ∧ runsWith da (chanValue s .a) v (fun j => v j - (min (max ⌊v j * 15 + 1 / 2⌋ 0) 15 : Int) / 15)
      ∧ ∀ i : Fin 16, (((t.blk.read (i / 2)).toNat / 16 ^ (i.val % 2) % 16 : Nat) : Int)
          = min (max ⌊v i * 15 + 1 / 2⌋ 0) 15

/-- R251, R252: when every quantised alpha of the grid pass is at least 1, and the least is 1, the alpha block of ENC.BC3 is `FF FF 00 00 00 00 00 00`. -/
def Obligations.OpaqueTileGivesTheOpaqueAlphaBlock : Prop :=
  ∀ (s : State) (dr da : Bool), s.blk.wf → tileFinite s [.r, .g, .b, .a] →
    ∃ v : Nat → ℚ, alphaGridRuns s da v
      ∧ (leastIs (fun i => grid255 (v i)) 255 →
          ∃ t, exec (.encBc3 dr da) s = .next t ∧ t.blk.read 0 = 0xFF#8 ∧ t.blk.read 1 = 0xFF#8
            ∧ ∀ k, 2 ≤ k → k < 8 → t.blk.read k = 0x00#8)

/-- R253, R255: the 3-bit alpha indices of ENC.BC3 but for the opaque block of R252. The ramp has six steps and the extremes 0 and 1 when the least quantised alpha is 0 or the greatest is 1, else eight; every pixel gets the index of the ramp position nearest to its running value, or 6 or 7 where a six-step ramp's extreme is nearer than its endpoint. -/
def Obligations.AlphaIndicesFollowTheRamp : Prop :=
  ∀ (s : State) (dr da : Bool), s.blk.wf → tileFinite s [.r, .g, .b, .a] →
    ∃ g : Nat → ℚ, alphaGridRuns s da g
      ∧ (¬ leastIs (fun i => grid255 (g i)) 255 →
          ∃ (t : State) (v : Nat → ℚ) (steps : Nat), exec (.encBc3 dr da) s = .next t
            ∧ (steps = 6 ∨ steps = 8)
            ∧ (steps = 6 ↔ leastIs (fun i => grid255 (g i)) 0 ∨ greatestIs (fun i => grid255 (g i)) 255)
            ∧ (let E0 : ℚ := (t.blk.read 0).toNat / 255
               let E1 : ℚ := (t.blk.read 1).toNat / 255
               runsWith da (chanValue s .a) v (fun j => v j - rampEntry E0 E1 (decide (steps = 8)) 0 1 (rampIndex t 0 j))
                 ∧ ∀ i, i < 16 → rampIndex t 0 i = rampIndexFor steps E0 E1 (v i)))

/-! ### BC4, BC5 encode -/

/-- R293: each index of an encoded channel block is the smallest one whose entry of the decode table is nearest to the pixel's value. -/
def Obligations.ChannelIndicesAreNearest : Prop :=
  ∀ (s : State) (sg : Bool), s.blk.wf →
    (tileFinite s [.r] → ∃ t, exec (if sg then .encBc4s else .encBc4u) s = .next t ∧ nearestIndices s t sg 0 .r)
    ∧ (tileFinite s [.r, .g] → ∃ t, exec (if sg then .encBc5s else .encBc5u) s = .next t
        ∧ nearestIndices s t sg 0 .r ∧ nearestIndices s t sg 8 .g)

/-- R290: the SNORM encoders never emit the endpoint -128. -/
def Obligations.SnormEndpointNeverMinus128 : Prop :=
  ∀ s : State, s.blk.wf →
    (tileFinite s [.r] → ∃ t, exec .encBc4s s = .next t ∧ t.blk.read 0 ≠ 0x80#8 ∧ t.blk.read 1 ≠ 0x80#8)
    ∧ (tileFinite s [.r, .g] → ∃ t, exec .encBc5s s = .next t
        ∧ t.blk.read 0 ≠ 0x80#8 ∧ t.blk.read 1 ≠ 0x80#8 ∧ t.blk.read 8 ≠ 0x80#8 ∧ t.blk.read 9 ≠ 0x80#8)

/-! ### BC6H and BC7 encode -/

/-- R423: the block of ENC.BC6HU and ENC.BC6HS has an assigned mode, an error no larger than the witness instance's and than that of any admissible candidate the search examines, and in the signed format no decoded endpoint component equal to -2^15. It holds for every value of the free search (log 8). -/
def Obligations.Bc6hEncoderKeepsItsContract : Prop :=
  ∀ (s : State) (sg : Bool), s.blk.wf → tileFinite s [.r, .g, .b] →
    ∃ t, exec (if sg then .encBc6hs else .encBc6hu) s = .next t
      ∧ ∃ M, mode6H (selector6H t.block) = some M
        ∧ error6H M t.block sg (s.intColours config sg) ≤ error6H mode11 (enc6HBase (s.intColours config sg) sg) sg (s.intColours config sg)
        ∧ (sg = true → ∀ e ∈ endpointIds M, ∀ c : Comp, endpoint6H M t.block true e c ≠ -2 ^ 15)
        ∧ ∀ b ∈ config.search6H (s.intColours config sg) sg, admissible6H sg b = true →
            error6H M t.block sg (s.intColours config sg) ≤ blockError6H sg (s.intColours config sg) b

/-- R422: a decode of an encoder's result raises no diagnostic, whichever of the two formats encodes and decodes. -/
def Obligations.EncodedBc6hNeverRaisesTheDiagnostic : Prop :=
  ∀ (s : State) (i j : Instr), i ∈ [Instr.encBc6hu, .encBc6hs] → j ∈ [Instr.decBc6hu, .decBc6hs] → s.blk.wf →
    tileFinite s [.r, .g, .b] →
    ∃ t u, exec i s = .next t ∧ exec j t = .next u ∧ u = { t with pix := u.pix }
      ∧ u.status = s.status ∧ u.diagcode = s.diagcode ∧ u.diagcnt = s.diagcnt

/-- R461, R462: the block of ENC.BC7 is not the reserved pattern and its error is no larger than the witness instance's and than that of any candidate the search examines that is not the reserved pattern. It holds for every value of the free search (log 9). -/
def Obligations.Bc7EncoderKeepsItsContract : Prop :=
  ∀ s : State, s.blk.wf → tileFinite s [.r, .g, .b, .a] →
    ∃ t, exec .encBc7 s = .next t ∧ t.blk.read 0 ≠ 0#8
      ∧ error7 t.block (s.ldrColours config) ≤ error7 (enc7Base (s.ldrColours config)) (s.ldrColours config)
      ∧ ∀ b ∈ config.search7 (s.ldrColours config), fld b 0 8 ≠ 0 → error7 t.block (s.ldrColours config) ≤ error7 b (s.ldrColours config)

/-- R401, R415, R424: the integers the BC6H encoders work on are in range, 0..0x7BFF unsigned and -0x7BFF..0x7BFF signed, so the witness instance's candidate always fits its mode: an output always exists. -/
def Obligations.Bc6hWitnessAlwaysFits : Prop :=
  ∀ (s : State) (sg : Bool),
    (∀ v ∈ s.intColours config sg, ∀ c : Comp, (if sg then -0x7BFF else 0) ≤ comp v c ∧ comp v c ≤ 0x7BFF)
    ∧ fits6H mode11 sg (witness6H (s.intColours config sg) sg) = true
    ∧ (witness6H (s.intColours config sg) sg).indices.headD 0 < 8

/-! ### Numbers -/

/-- The default `RN32` of R8 (log 5) is the nearest binary32: no finite pattern is nearer to `q`. -/
def Obligations.RoundingIsToTheNearest : Prop :=
  ∀ (q : ℚ) (w : Word), |q| ≤ 65536 → isFinite32 w = true → |val (rn32Default q) - q| ≤ |val w - q|

/-- R148: every finite half is exactly representable in binary32, so the widening of R343 is exact. -/
def Obligations.HalfWideningIsExact : Prop :=
  ∀ h : Half, h.extractLsb' 10 5 ≠ 0x1F#5 →
    isFinite32 (halfToChan config h) = true ∧ val (halfToChan config h) = halfVal h
end

