-- ==== Sys2Proof/Laws/Decode.lean ====
section
/-! SUPPORT. The opcode map: no word selects two rows, so what a row says is what the decoder answers (30_encoding.md R91, R94). -/

namespace Sys2Proof

/-- Two rows differ in a bit that both fix. -/
def OpRow.apart (x y : OpRow) : Bool := (x.mask &&& y.mask) &&& (x.code ^^^ y.code) != 0#32

theorem opRows_apart : opRows.Pairwise fun x y => x.apart y = true := by decide

/-- No word selects two rows that are apart. -/
theorem OpRow.not_both_hit {x y : OpRow} (h : x.apart y = true) (w : Word) (hx : x.hit w = true) : y.hit w = false := by
  by_contra hy
  simp only [Bool.not_eq_false, OpRow.hit, beq_iff_eq, OpRow.apart, bne_iff_ne, ne_eq] at h hx hy
  apply h
  apply BitVec.eq_of_getLsbD_eq
  intro i _
  rw [← hx, ← hy]
  simp only [BitVec.getLsbD_and, BitVec.getLsbD_xor, BitVec.getLsbD_zero]
  cases x.mask.getLsbD i <;> cases y.mask.getLsbD i <;> cases w.getLsbD i <;> rfl

/-- Of rows that are pairwise apart a word selects at most one: the rows it selects are the first it selects. -/
theorem filter_hit_of_mem {rows : List OpRow} (hp : rows.Pairwise fun x y => x.apart y = true) {row : OpRow}
    (hr : row ∈ rows) {w : Word} (hw : row.hit w = true) :
    rows.filter (·.hit w) = [row] ∧ rows.find? (·.hit w) = some row := by
  induction rows with
  | nil => simp at hr
  | cons x rest ih =>
    rw [List.pairwise_cons] at hp
    rcases List.mem_cons.1 hr with rfl | hr'
    · refine ⟨?_, by simp [hw]⟩
      simp only [List.filter_cons, hw, if_true]
      congr 1
      rw [List.filter_eq_nil_iff]
      intro y hy
      simp [OpRow.not_both_hit (hp.1 y hy) w hw]
    · have hx : x.hit w = false := by
        by_contra hx
        have := OpRow.not_both_hit (hp.1 row hr') w (by simpa using hx)
        simp [this] at hw
      obtain ⟨h1, h2⟩ := ih hp.2 hr'
      exact ⟨by simp [hx, h1], by simp [hx, h2]⟩

/-- A word that selects a row decodes to that row's command (R91, R94). -/
theorem decode_of_hit {row : OpRow} (hr : row ∈ opRows) {w : Word} (hw : row.hit w = true) :
    decode w = some (row.make w) := by simp [decode, (filter_hit_of_mem opRows_apart hr hw).2]

/-- A word decodes only by a row it selects, and to that row's command. -/
theorem row_of_decode {w : Word} {i : Instr} (h : decode w = some i) :
    ∃ row ∈ opRows, row.hit w = true ∧ row.make w = i := by
  simp only [decode, Option.map_eq_some_iff] at h
  obtain ⟨row, h1, h2⟩ := h
  exact ⟨row, List.mem_of_find?_eq_some h1, by simpa using List.find?_some h1, h2⟩

theorem decode_eq_none {w : Word} : decode w = none ↔ ∀ row ∈ opRows, row.hit w = false := by
  simp [decode, List.find?_eq_none]

/-! ### The bits of a flag in the command word -/

theorem flagAt_getLsbD (v : Bool) (k i : Nat) (hk : k < 32) : (flagAt v k).getLsbD i = (decide (i = k) && v) := by
  rw [flagAt, BitVec.getLsbD_shiftLeft, BitVec.getLsbD_setWidth]
  cases v
  · simp
  · by_cases h : i = k
    · subst h; simp [hk]
    · by_cases h2 : i < k
      · simp [h, h2]
      · simp only [h, BitVec.ofBool_true]
        simp
        omega

end Sys2Proof
end

