-- ==== Sys2Proof/Laws/State.lean ====
section
/-! SUPPORT. One lemma per field per update of the state, true by unfolding, so that no later proof unfolds a record update. -/

namespace Sys2Proof.Machine

/-! ### `State.raise` -/

@[simp] theorem State.raise_blk (s : State) (c : Cause) (cmd : Word) : (s.raise c cmd).blk = s.blk := rfl
@[simp] theorem State.raise_cur (s : State) (c : Cause) (cmd : Word) : (s.raise c cmd).cur = s.cur := rfl
@[simp] theorem State.raise_pix (s : State) (c : Cause) (cmd : Word) : (s.raise c cmd).pix = s.pix := rfl
@[simp] theorem State.raise_athr (s : State) (c : Cause) (cmd : Word) : (s.raise c cmd).athr = s.athr := rfl
@[simp] theorem State.raise_res (s : State) (c : Cause) (cmd : Word) : (s.raise c cmd).res = s.res := rfl
@[simp] theorem State.raise_status (s : State) (c : Cause) (cmd : Word) : (s.raise c cmd).status = withFault s.status := rfl
@[simp] theorem State.raise_fcause (s : State) (c : Cause) (cmd : Word) : (s.raise c cmd).fcause = causeCode c := rfl
@[simp] theorem State.raise_finfo (s : State) (c : Cause) (cmd : Word) : (s.raise c cmd).finfo = cmd := rfl
@[simp] theorem State.raise_diagcode (s : State) (c : Cause) (cmd : Word) : (s.raise c cmd).diagcode = s.diagcode := rfl
@[simp] theorem State.raise_diagcnt (s : State) (c : Cause) (cmd : Word) : (s.raise c cmd).diagcnt = s.diagcnt := rfl
@[simp] theorem State.raise_queue (s : State) (c : Cause) (cmd : Word) : (s.raise c cmd).queue = s.queue := rfl
@[simp] theorem State.raise_hostRd (s : State) (c : Cause) (cmd : Word) : (s.raise c cmd).hostRd = s.hostRd := rfl

/-! ### `State.diag` -/

@[simp] theorem State.diag_blk (s : State) (code : Byte) : (s.diag code).blk = s.blk := rfl
@[simp] theorem State.diag_cur (s : State) (code : Byte) : (s.diag code).cur = s.cur := rfl
@[simp] theorem State.diag_pix (s : State) (code : Byte) : (s.diag code).pix = s.pix := rfl
@[simp] theorem State.diag_athr (s : State) (code : Byte) : (s.diag code).athr = s.athr := rfl
@[simp] theorem State.diag_res (s : State) (code : Byte) : (s.diag code).res = s.res := rfl
@[simp] theorem State.diag_status (s : State) (code : Byte) : (s.diag code).status = withDiag s.status := rfl
@[simp] theorem State.diag_fcause (s : State) (code : Byte) : (s.diag code).fcause = s.fcause := rfl
@[simp] theorem State.diag_finfo (s : State) (code : Byte) : (s.diag code).finfo = s.finfo := rfl
@[simp] theorem State.diag_diagcode (s : State) (code : Byte) : (s.diag code).diagcode = code := rfl
@[simp] theorem State.diag_diagcnt (s : State) (code : Byte) : (s.diag code).diagcnt = countUp s.diagcnt := rfl
@[simp] theorem State.diag_queue (s : State) (code : Byte) : (s.diag code).queue = s.queue := rfl
@[simp] theorem State.diag_hostRd (s : State) (code : Byte) : (s.diag code).hostRd = s.hostRd := rfl

/-! ### `State.setBytes` -/

@[simp] theorem State.setBytes_blk (s : State) (k n v : Nat) : (s.setBytes k n v).blk = s.blk.writeBytes k n v := rfl
@[simp] theorem State.setBytes_cur (s : State) (k n v : Nat) : (s.setBytes k n v).cur = s.cur := rfl
@[simp] theorem State.setBytes_pix (s : State) (k n v : Nat) : (s.setBytes k n v).pix = s.pix := rfl
@[simp] theorem State.setBytes_athr (s : State) (k n v : Nat) : (s.setBytes k n v).athr = s.athr := rfl
@[simp] theorem State.setBytes_res (s : State) (k n v : Nat) : (s.setBytes k n v).res = s.res := rfl
@[simp] theorem State.setBytes_status (s : State) (k n v : Nat) : (s.setBytes k n v).status = s.status := rfl
@[simp] theorem State.setBytes_fcause (s : State) (k n v : Nat) : (s.setBytes k n v).fcause = s.fcause := rfl
@[simp] theorem State.setBytes_finfo (s : State) (k n v : Nat) : (s.setBytes k n v).finfo = s.finfo := rfl
@[simp] theorem State.setBytes_diagcode (s : State) (k n v : Nat) : (s.setBytes k n v).diagcode = s.diagcode := rfl
@[simp] theorem State.setBytes_diagcnt (s : State) (k n v : Nat) : (s.setBytes k n v).diagcnt = s.diagcnt := rfl
@[simp] theorem State.setBytes_queue (s : State) (k n v : Nat) : (s.setBytes k n v).queue = s.queue := rfl
@[simp] theorem State.setBytes_hostRd (s : State) (k n v : Nat) : (s.setBytes k n v).hostRd = s.hostRd := rfl

/-! ### `State.writeFormat` -/

@[simp] theorem State.writeFormat_blk (s : State) (cfg : Config) (fmt : Format) (v : Nat) :
    (s.writeFormat cfg fmt v).blk = s.blk.writeBytes 0 (cfg.blockBytes fmt).val v := rfl
@[simp] theorem State.writeFormat_cur (s : State) (cfg : Config) (fmt : Format) (v : Nat) : (s.writeFormat cfg fmt v).cur = s.cur := rfl
@[simp] theorem State.writeFormat_pix (s : State) (cfg : Config) (fmt : Format) (v : Nat) : (s.writeFormat cfg fmt v).pix = s.pix := rfl
@[simp] theorem State.writeFormat_athr (s : State) (cfg : Config) (fmt : Format) (v : Nat) : (s.writeFormat cfg fmt v).athr = s.athr := rfl
@[simp] theorem State.writeFormat_res (s : State) (cfg : Config) (fmt : Format) (v : Nat) : (s.writeFormat cfg fmt v).res = s.res := rfl
@[simp] theorem State.writeFormat_status (s : State) (cfg : Config) (fmt : Format) (v : Nat) : (s.writeFormat cfg fmt v).status = s.status := rfl
@[simp] theorem State.writeFormat_fcause (s : State) (cfg : Config) (fmt : Format) (v : Nat) : (s.writeFormat cfg fmt v).fcause = s.fcause := rfl
@[simp] theorem State.writeFormat_finfo (s : State) (cfg : Config) (fmt : Format) (v : Nat) : (s.writeFormat cfg fmt v).finfo = s.finfo := rfl
@[simp] theorem State.writeFormat_diagcode (s : State) (cfg : Config) (fmt : Format) (v : Nat) : (s.writeFormat cfg fmt v).diagcode = s.diagcode := rfl
@[simp] theorem State.writeFormat_diagcnt (s : State) (cfg : Config) (fmt : Format) (v : Nat) : (s.writeFormat cfg fmt v).diagcnt = s.diagcnt := rfl
@[simp] theorem State.writeFormat_queue (s : State) (cfg : Config) (fmt : Format) (v : Nat) : (s.writeFormat cfg fmt v).queue = s.queue := rfl
@[simp] theorem State.writeFormat_hostRd (s : State) (cfg : Config) (fmt : Format) (v : Nat) : (s.writeFormat cfg fmt v).hostRd = s.hostRd := rfl

/-! ### `State.setTile` -/

@[simp] theorem State.setTile_blk (s : State) (f : Nat → Pixel) : (s.setTile f).blk = s.blk := by rw [State.setTile]
@[simp] theorem State.setTile_cur (s : State) (f : Nat → Pixel) : (s.setTile f).cur = s.cur := by rw [State.setTile]
@[simp] theorem State.setTile_pix (s : State) (f : Nat → Pixel) : (s.setTile f).pix = Vector.ofFn fun i : Fin 16 => f i.val := rfl
@[simp] theorem State.setTile_athr (s : State) (f : Nat → Pixel) : (s.setTile f).athr = s.athr := by rw [State.setTile]
@[simp] theorem State.setTile_res (s : State) (f : Nat → Pixel) : (s.setTile f).res = s.res := by rw [State.setTile]
@[simp] theorem State.setTile_status (s : State) (f : Nat → Pixel) : (s.setTile f).status = s.status := by rw [State.setTile]
@[simp] theorem State.setTile_fcause (s : State) (f : Nat → Pixel) : (s.setTile f).fcause = s.fcause := by rw [State.setTile]
@[simp] theorem State.setTile_finfo (s : State) (f : Nat → Pixel) : (s.setTile f).finfo = s.finfo := by rw [State.setTile]
@[simp] theorem State.setTile_diagcode (s : State) (f : Nat → Pixel) : (s.setTile f).diagcode = s.diagcode := by rw [State.setTile]
@[simp] theorem State.setTile_diagcnt (s : State) (f : Nat → Pixel) : (s.setTile f).diagcnt = s.diagcnt := by rw [State.setTile]
@[simp] theorem State.setTile_queue (s : State) (f : Nat → Pixel) : (s.setTile f).queue = s.queue := by rw [State.setTile]
@[simp] theorem State.setTile_hostRd (s : State) (f : Nat → Pixel) : (s.setTile f).hostRd = s.hostRd := by rw [State.setTile]

/-! ### `State.setPix` -/

@[simp] theorem State.setPix_blk (s : State) (i : Fin 16) (c : Chan) (v : Word) : (s.setPix i c v).blk = s.blk := rfl
@[simp] theorem State.setPix_cur (s : State) (i : Fin 16) (c : Chan) (v : Word) : (s.setPix i c v).cur = s.cur := rfl
@[simp] theorem State.setPix_pix (s : State) (i : Fin 16) (c : Chan) (v : Word) : (s.setPix i c v).pix = s.pix.set i.val ((s.pix[i.val]).set c v) := rfl
@[simp] theorem State.setPix_athr (s : State) (i : Fin 16) (c : Chan) (v : Word) : (s.setPix i c v).athr = s.athr := rfl
@[simp] theorem State.setPix_res (s : State) (i : Fin 16) (c : Chan) (v : Word) : (s.setPix i c v).res = s.res := rfl
@[simp] theorem State.setPix_status (s : State) (i : Fin 16) (c : Chan) (v : Word) : (s.setPix i c v).status = s.status := rfl
@[simp] theorem State.setPix_fcause (s : State) (i : Fin 16) (c : Chan) (v : Word) : (s.setPix i c v).fcause = s.fcause := rfl
@[simp] theorem State.setPix_finfo (s : State) (i : Fin 16) (c : Chan) (v : Word) : (s.setPix i c v).finfo = s.finfo := rfl
@[simp] theorem State.setPix_diagcode (s : State) (i : Fin 16) (c : Chan) (v : Word) : (s.setPix i c v).diagcode = s.diagcode := rfl
@[simp] theorem State.setPix_diagcnt (s : State) (i : Fin 16) (c : Chan) (v : Word) : (s.setPix i c v).diagcnt = s.diagcnt := rfl
@[simp] theorem State.setPix_queue (s : State) (i : Fin 16) (c : Chan) (v : Word) : (s.setPix i c v).queue = s.queue := rfl
@[simp] theorem State.setPix_hostRd (s : State) (i : Fin 16) (c : Chan) (v : Word) : (s.setPix i c v).hostRd = s.hostRd := rfl

/-! ### `State.advance` -/

@[simp] theorem State.advance_blk (s : State) (n : Nat) : (s.advance n).blk = s.blk := rfl
@[simp] theorem State.advance_cur (s : State) (n : Nat) : (s.advance n).cur = BitVec.ofNat 8 (s.cur.toNat + n) := rfl
@[simp] theorem State.advance_pix (s : State) (n : Nat) : (s.advance n).pix = s.pix := rfl
@[simp] theorem State.advance_athr (s : State) (n : Nat) : (s.advance n).athr = s.athr := rfl
@[simp] theorem State.advance_res (s : State) (n : Nat) : (s.advance n).res = s.res := rfl
@[simp] theorem State.advance_status (s : State) (n : Nat) : (s.advance n).status = s.status := rfl
@[simp] theorem State.advance_fcause (s : State) (n : Nat) : (s.advance n).fcause = s.fcause := rfl
@[simp] theorem State.advance_finfo (s : State) (n : Nat) : (s.advance n).finfo = s.finfo := rfl
@[simp] theorem State.advance_diagcode (s : State) (n : Nat) : (s.advance n).diagcode = s.diagcode := rfl
@[simp] theorem State.advance_diagcnt (s : State) (n : Nat) : (s.advance n).diagcnt = s.diagcnt := rfl
@[simp] theorem State.advance_queue (s : State) (n : Nat) : (s.advance n).queue = s.queue := rfl
@[simp] theorem State.advance_hostRd (s : State) (n : Nat) : (s.advance n).hostRd = s.hostRd := rfl

/-! ### `State.readBits` -/

@[simp] theorem State.readBits_blk (s : State) (n : Nat) : (s.readBits n).blk = s.blk := rfl
@[simp] theorem State.readBits_cur (s : State) (n : Nat) : (s.readBits n).cur = BitVec.ofNat 8 (s.cur.toNat + n) := rfl
@[simp] theorem State.readBits_pix (s : State) (n : Nat) : (s.readBits n).pix = s.pix := rfl
@[simp] theorem State.readBits_athr (s : State) (n : Nat) : (s.readBits n).athr = s.athr := rfl
@[simp] theorem State.readBits_res (s : State) (n : Nat) : (s.readBits n).res = BitVec.ofNat 8 (fld s.block s.cur.toNat n) := rfl
@[simp] theorem State.readBits_status (s : State) (n : Nat) : (s.readBits n).status = s.status := rfl
@[simp] theorem State.readBits_fcause (s : State) (n : Nat) : (s.readBits n).fcause = s.fcause := rfl
@[simp] theorem State.readBits_finfo (s : State) (n : Nat) : (s.readBits n).finfo = s.finfo := rfl
@[simp] theorem State.readBits_diagcode (s : State) (n : Nat) : (s.readBits n).diagcode = s.diagcode := rfl
@[simp] theorem State.readBits_diagcnt (s : State) (n : Nat) : (s.readBits n).diagcnt = s.diagcnt := rfl
@[simp] theorem State.readBits_queue (s : State) (n : Nat) : (s.readBits n).queue = s.queue := rfl
@[simp] theorem State.readBits_hostRd (s : State) (n : Nat) : (s.readBits n).hostRd = s.hostRd := rfl

/-! ### `State.writeBits` -/

@[simp] theorem State.writeBits_blk (s : State) (n v : Nat) : (s.writeBits n v).blk = s.blk.setBits s.cur.toNat n v := rfl
@[simp] theorem State.writeBits_cur (s : State) (n v : Nat) : (s.writeBits n v).cur = BitVec.ofNat 8 (s.cur.toNat + n) := rfl
@[simp] theorem State.writeBits_pix (s : State) (n v : Nat) : (s.writeBits n v).pix = s.pix := rfl
@[simp] theorem State.writeBits_athr (s : State) (n v : Nat) : (s.writeBits n v).athr = s.athr := rfl
@[simp] theorem State.writeBits_res (s : State) (n v : Nat) : (s.writeBits n v).res = s.res := rfl
@[simp] theorem State.writeBits_status (s : State) (n v : Nat) : (s.writeBits n v).status = s.status := rfl
@[simp] theorem State.writeBits_fcause (s : State) (n v : Nat) : (s.writeBits n v).fcause = s.fcause := rfl
@[simp] theorem State.writeBits_finfo (s : State) (n v : Nat) : (s.writeBits n v).finfo = s.finfo := rfl
@[simp] theorem State.writeBits_diagcode (s : State) (n v : Nat) : (s.writeBits n v).diagcode = s.diagcode := rfl
@[simp] theorem State.writeBits_diagcnt (s : State) (n v : Nat) : (s.writeBits n v).diagcnt = s.diagcnt := rfl
@[simp] theorem State.writeBits_queue (s : State) (n v : Nat) : (s.writeBits n v).queue = s.queue := rfl
@[simp] theorem State.writeBits_hostRd (s : State) (n v : Nat) : (s.writeBits n v).hostRd = s.hostRd := rfl

/-! ### `State.doReset` -/

@[simp] theorem State.doReset_blk (s : State) : s.doReset.blk = State.reset.blk := rfl
@[simp] theorem State.doReset_cur (s : State) : s.doReset.cur = State.reset.cur := rfl
@[simp] theorem State.doReset_pix (s : State) : s.doReset.pix = State.reset.pix := rfl
@[simp] theorem State.doReset_athr (s : State) : s.doReset.athr = State.reset.athr := rfl
@[simp] theorem State.doReset_res (s : State) : s.doReset.res = State.reset.res := rfl
@[simp] theorem State.doReset_status (s : State) : s.doReset.status = State.reset.status := rfl
@[simp] theorem State.doReset_fcause (s : State) : s.doReset.fcause = State.reset.fcause := rfl
@[simp] theorem State.doReset_finfo (s : State) : s.doReset.finfo = State.reset.finfo := rfl
@[simp] theorem State.doReset_diagcode (s : State) : s.doReset.diagcode = State.reset.diagcode := rfl
@[simp] theorem State.doReset_diagcnt (s : State) : s.doReset.diagcnt = State.reset.diagcnt := rfl
@[simp] theorem State.doReset_queue (s : State) : s.doReset.queue = s.queue := rfl
@[simp] theorem State.doReset_hostRd (s : State) : s.doReset.hostRd = s.hostRd := rfl

/-! ### `decodeTo` -/

@[simp] theorem decodeTo_blk (cfg : Config) (s : State) (px : Nat → Rgba) : (decodeTo cfg s px).blk = s.blk := by rw [decodeTo, State.setTile]
@[simp] theorem decodeTo_cur (cfg : Config) (s : State) (px : Nat → Rgba) : (decodeTo cfg s px).cur = s.cur := by rw [decodeTo, State.setTile]
@[simp] theorem decodeTo_pix (cfg : Config) (s : State) (px : Nat → Rgba) :
    (decodeTo cfg s px).pix = Vector.ofFn fun i : Fin 16 => toPixel cfg (px i.val) := rfl
@[simp] theorem decodeTo_athr (cfg : Config) (s : State) (px : Nat → Rgba) : (decodeTo cfg s px).athr = s.athr := by rw [decodeTo, State.setTile]
@[simp] theorem decodeTo_res (cfg : Config) (s : State) (px : Nat → Rgba) : (decodeTo cfg s px).res = s.res := by rw [decodeTo, State.setTile]
@[simp] theorem decodeTo_status (cfg : Config) (s : State) (px : Nat → Rgba) : (decodeTo cfg s px).status = s.status := by rw [decodeTo, State.setTile]
@[simp] theorem decodeTo_fcause (cfg : Config) (s : State) (px : Nat → Rgba) : (decodeTo cfg s px).fcause = s.fcause := by rw [decodeTo, State.setTile]
@[simp] theorem decodeTo_finfo (cfg : Config) (s : State) (px : Nat → Rgba) : (decodeTo cfg s px).finfo = s.finfo := by rw [decodeTo, State.setTile]
@[simp] theorem decodeTo_diagcode (cfg : Config) (s : State) (px : Nat → Rgba) : (decodeTo cfg s px).diagcode = s.diagcode := by rw [decodeTo, State.setTile]
@[simp] theorem decodeTo_diagcnt (cfg : Config) (s : State) (px : Nat → Rgba) : (decodeTo cfg s px).diagcnt = s.diagcnt := by rw [decodeTo, State.setTile]
@[simp] theorem decodeTo_queue (cfg : Config) (s : State) (px : Nat → Rgba) : (decodeTo cfg s px).queue = s.queue := by rw [decodeTo, State.setTile]
@[simp] theorem decodeTo_hostRd (cfg : Config) (s : State) (px : Nat → Rgba) : (decodeTo cfg s px).hostRd = s.hostRd := by rw [decodeTo, State.setTile]

end Sys2Proof.Machine
end

