-- ==== Sys2Proof/Laws/Memory.lean ====
section
/-! SUPPORT. The laws of the block register: read after write, the canonical form, bytes and bits. -/

namespace Sys2Proof.Machine

/-! ### One byte -/

theorem Memory.read_eq_zero_of_lt {m : Memory} {k : Nat} (h : ∀ c ∈ m, k < c.1) : Memory.read m k = 0#8 := by
  induction m with
  | nil => rfl
  | cons c rest ih =>
    have hc := h c (by simp)
    rw [Memory.read, if_neg (by omega), ih fun d hd => h d (by simp [hd])]

/-- A write of one byte to a canonical memory: that address reads the value written, every other address reads as before. -/
theorem Memory.read_write {m : Memory} (hs : m.Pairwise fun x y => x.1 < y.1) (k j : Nat) (v : Byte) :
    Memory.read (Memory.write m k v) j = if j = k then v else Memory.read m j := by
  induction m with
  | nil =>
    by_cases hv : v = 0#8 <;> simp [Memory.write, Memory.read, hv, eq_comm]
  | cons c rest ih =>
    obtain ⟨hc, hrest⟩ := List.pairwise_cons.mp hs
    have ih := ih hrest
    rw [Memory.write]
    split
    · rename_i hlt
      have hz : k ≠ c.1 := by omega
      have hrd : Memory.read rest k = 0#8 := Memory.read_eq_zero_of_lt fun d hd => by have := hc d hd; omega
      by_cases hv : v = 0#8
      · by_cases hj : j = k
        · subst hj; simp [Memory.read, hv, hrd, Ne.symm hz]
        · simp [hv, hj]
      · by_cases hj : j = k
        · subst hj; simp [Memory.read, hv]
        · simp [Memory.read, hv, hj, Ne.symm hj]
    · split
      · rename_i _ heq
        have hrd : Memory.read rest c.1 = 0#8 := Memory.read_eq_zero_of_lt hc
        by_cases hv : v = 0#8
        · by_cases hj : j = k
          · subst hj; rw [if_pos hv, if_pos rfl, heq, hrd, hv]
          · rw [if_pos hv, if_neg hj, Memory.read, if_neg (by omega)]
        · by_cases hj : j = k
          · subst hj; simp [Memory.read, hv]
          · rw [if_neg hv, if_neg hj, Memory.read, if_neg (by simpa using Ne.symm hj), Memory.read,
              if_neg (by omega)]
      · rename_i h1 h2
        rw [Memory.read, ih, Memory.read]
        by_cases hj : j = k
        · subst hj; simp [Ne.symm h2]
        · simp [hj]

/-- Every entry of a written memory is an entry of the old one or the one written. -/
theorem Memory.mem_write {m : Memory} {k : Nat} {v : Byte} {c : Host.Cell} (h : c ∈ Memory.write m k v) :
    c ∈ m ∨ (c = (k, v) ∧ v ≠ 0#8) := by
  induction m with
  | nil =>
    rw [Memory.write] at h
    split at h
    · simp at h
    · exact Or.inr ⟨by simpa using h, ‹_›⟩
  | cons d rest ih =>
    rw [Memory.write] at h
    split at h
    · split at h
      · exact Or.inl h
      · rcases List.mem_cons.mp h with h | h
        · exact Or.inr ⟨h, ‹_›⟩
        · exact Or.inl h
    · split at h
      · split at h
        · exact Or.inl (by simp [h])
        · rcases List.mem_cons.mp h with h | h
          · exact Or.inr ⟨h, ‹_›⟩
          · exact Or.inl (by simp [h])
      · rcases List.mem_cons.mp h with h | h
        · exact Or.inl (by simp [h])
        · rcases ih h with h | h
          · exact Or.inl (by simp [h])
          · exact Or.inr h

theorem Memory.pairwise_write {m : Memory} (hs : m.Pairwise fun x y => x.1 < y.1) (k : Nat) (v : Byte) :
    (Memory.write m k v).Pairwise fun x y => x.1 < y.1 := by
  induction m with
  | nil => rw [Memory.write]; split <;> simp
  | cons c rest ih =>
    obtain ⟨hc, hrest⟩ := List.pairwise_cons.mp hs
    rw [Memory.write]
    split
    · split
      · exact hs
      · refine List.pairwise_cons.mpr ⟨fun d hd => ?_, hs⟩
        rcases List.mem_cons.mp hd with rfl | hd
        · simpa
        · have := hc d hd; simp only; omega
    · split
      · split
        · exact hrest
        · refine List.pairwise_cons.mpr ⟨fun d hd => ?_, hrest⟩
          have := hc d hd; simp only; omega
      · refine List.pairwise_cons.mpr ⟨fun d hd => ?_, ih hrest⟩
        rcases Memory.mem_write hd with hd | ⟨rfl, _⟩
        · exact hc d hd
        · simp only; omega

/-- A write within 0..15 keeps the canonical form. -/
theorem Memory.wf_write {m : Memory} (h : m.wf) {k : Nat} (hk : k < 16) (v : Byte) : (Memory.write m k v).wf := by
  refine ⟨Memory.pairwise_write h.1 k v, fun c hc => ?_⟩
  rcases Memory.mem_write hc with hc | ⟨rfl, hv⟩
  · exact h.2 c hc
  · exact ⟨hk, hv⟩

/-! ### Several bytes -/

theorem Memory.wf_writeBytes {m : Memory} (h : m.wf) {k n : Nat} (hk : k + n ≤ 16) (v : Nat) :
    (Memory.writeBytes m k n v).wf := by
  induction n generalizing m k v with
  | zero => exact h
  | succ n ih => exact ih (Memory.wf_write h (by omega) _) (by omega) _

/-- A write of `n` bytes: byte `j` of the range reads byte `j - k` of the value, every other address reads as before. -/
theorem Memory.read_writeBytes {m : Memory} (hs : m.Pairwise fun x y => x.1 < y.1) (k n v j : Nat) :
    Memory.read (Memory.writeBytes m k n v) j =
      if k ≤ j ∧ j < k + n then BitVec.ofNat 8 (v / 256 ^ (j - k)) else Memory.read m j := by
  induction n generalizing m k v with
  | zero => rw [Memory.writeBytes, if_neg (by omega)]
  | succ n ih =>
    rw [Memory.writeBytes, ih (Memory.pairwise_write hs _ _), Memory.read_write hs]
    by_cases hj : j = k
    · subst hj; simp
    · by_cases hr : k + 1 ≤ j ∧ j < k + 1 + n
      · have he : j - k = j - (k + 1) + 1 := by omega
        rw [if_pos hr, if_pos (by omega), he, pow_succ', Nat.div_div_eq_div_mul]
      · rw [if_neg hr, if_neg hj, if_neg (by omega)]

theorem Memory.readBytes_lt (m : Memory) (k n : Nat) : Memory.readBytes m k n < 256 ^ n := by
  induction n generalizing k with
  | zero => simp [Memory.readBytes]
  | succ n ih =>
    have h1 := ih (k + 1)
    have h2 := (Memory.read m k).isLt
    rw [Memory.readBytes, pow_succ']
    omega

/-- Byte `j` of what `n` bytes read as a number. -/
theorem Memory.readBytes_byte (m : Memory) (k : Nat) {n j : Nat} (hj : j < n) :
    Memory.readBytes m k n / 256 ^ j % 256 = (Memory.read m (k + j)).toNat := by
  induction n generalizing k j with
  | zero => omega
  | succ n ih =>
    have h2 := (Memory.read m k).isLt
    rw [Memory.readBytes]
    cases j with
    | zero => simp; omega
    | succ j =>
      rw [pow_succ', ← Nat.div_div_eq_div_mul, show ((Memory.read m k).toNat + 256 * Memory.readBytes m (k + 1) n) / 256
        = Memory.readBytes m (k + 1) n by omega, ih (k + 1) (by omega)]
      congr 2; omega

/-- Bytes agree, so the numbers they make agree. -/
theorem Memory.readBytes_congr {m m' : Memory} {k n : Nat}
    (h : ∀ j, k ≤ j → j < k + n → Memory.read m j = Memory.read m' j) : Memory.readBytes m k n = Memory.readBytes m' k n := by
  induction n generalizing k with
  | zero => rfl
  | succ n ih =>
    rw [Memory.readBytes, Memory.readBytes, h k (by omega) (by omega), ih fun j h1 h2 => h j (by omega) (by omega)]

/-- Bytes written are the bytes read back. -/
theorem Memory.readBytes_writeBytes {m : Memory} (hs : m.Pairwise fun x y => x.1 < y.1) (k n v : Nat) :
    Memory.readBytes (Memory.writeBytes m k n v) k n = v % 256 ^ n := by
  induction n generalizing m k v with
  | zero => simp [Memory.readBytes, Nat.mod_one]
  | succ n ih =>
    rw [Memory.readBytes, Memory.writeBytes, ih (Memory.pairwise_write hs _ _),
      Memory.read_writeBytes (Memory.pairwise_write hs _ _), if_neg (by omega), Memory.read_write hs, if_pos rfl,
      pow_succ', Nat.mod_mul]
    simp

/-- A range that a write does not touch reads as before. -/
theorem Memory.readBytes_writeBytes_disjoint {m : Memory} (hs : m.Pairwise fun x y => x.1 < y.1) {k n v k' n' : Nat}
    (h : k' + n' ≤ k ∨ k + n ≤ k') : Memory.readBytes (Memory.writeBytes m k n v) k' n' = Memory.readBytes m k' n' :=
  Memory.readBytes_congr fun j h1 h2 => by rw [Memory.read_writeBytes hs, if_neg (by omega)]

/-! ### Bits -/

/-- Bit `p` of a number read from bytes is bit `p mod 8` of byte `p div 8` (R9). -/
theorem Memory.testBit_readBytes (m : Memory) {n p : Nat} (hp : p < 8 * n) :
    (Memory.readBytes m 0 n).testBit p = (Memory.read m (p / 8)).getLsbD (p % 8) := by
  have hb := Memory.readBytes_byte m 0 (n := n) (j := p / 8) (by omega)
  rw [Nat.zero_add] at hb
  rw [BitVec.getLsbD, ← hb, show (256 : Nat) = 2 ^ 8 by norm_num, ← pow_mul, Nat.testBit_mod_two_pow, Nat.testBit_div_two_pow]
  have h8 : p % 8 < 8 := Nat.mod_lt _ (by norm_num)
  simp only [h8, decide_true, Bool.true_and]
  congr 1; omega

theorem State.block_getLsbD (s : State) {p : Nat} (hp : p < 128) :
    s.block.getLsbD p = (s.blk.read (p / 8)).getLsbD (p % 8) := by
  rw [State.block, BitVec.getLsbD, BitVec.toNat_ofNat, Nat.testBit_mod_two_pow, ← Memory.testBit_readBytes s.blk (n := 16) (by omega)]
  simp [hp]

theorem State.block_toNat (s : State) : s.block.toNat = s.blk.readBytes 0 16 := by
  rw [State.block, BitVec.toNat_ofNat, Nat.mod_eq_of_lt]
  have := Memory.readBytes_lt s.blk 0 16
  norm_num at this ⊢
  exact this

/-- `bit(p)` of the block register (R11). -/
theorem State.bit_block (s : State) {p : Nat} (hp : p < 128) :
    bit s.block p = if (s.blk.read (p / 8)).getLsbD (p % 8) then 1 else 0 := by
  rw [bit, State.block_getLsbD s hp]

/-- The bits of a field (R11). -/
theorem testBit_fld (b : Block) (p n i : Nat) : (fld b p n).testBit i = (decide (i < n) && b.getLsbD (p + i)) := by
  rw [fld, Nat.testBit_mod_two_pow, Nat.testBit_shiftRight, BitVec.getLsbD]

theorem fld_lt (b : Block) (p n : Nat) : fld b p n < 2 ^ n := Nat.mod_lt _ (by positivity)

/-- A field of whole bytes is the number those bytes make (R66). -/
theorem State.fld_bytes (s : State) {k n : Nat} (h : k + n ≤ 16) : fld s.block (8 * k) (8 * n) = s.blk.readBytes k n := by
  refine Nat.eq_of_testBit_eq fun i => ?_
  rw [testBit_fld]
  by_cases hi : i < 8 * n
  · rw [State.block_getLsbD s (by omega)]
    have hb := Memory.readBytes_byte s.blk k (n := n) (j := i / 8) (by omega)
    have h8 : i % 8 < 8 := Nat.mod_lt _ (by norm_num)
    rw [show (8 * k + i) / 8 = k + i / 8 by omega, show (8 * k + i) % 8 = i % 8 by omega, BitVec.getLsbD, ← hb,
      show (256 : Nat) = 2 ^ 8 by norm_num, ← pow_mul, Nat.testBit_mod_two_pow, Nat.testBit_div_two_pow]
    simp only [hi, h8, decide_true, Bool.true_and]
    congr 1; omega
  · have := Memory.readBytes_lt s.blk k n
    rw [show (256 : Nat) = 2 ^ 8 by norm_num, ← pow_mul] at this
    rw [Nat.testBit_lt_two_pow (lt_of_lt_of_le this (Nat.pow_le_pow_right (by norm_num) (by omega)))]
    simp [hi]

/-- Writing one block bit: that bit takes the value, every other bit stays (R122). -/
theorem Memory.setBit_bit {m : Memory} (hs : m.Pairwise fun x y => x.1 < y.1) (p : Nat) (v : Bool) (q : Nat) :
    (Memory.read (Memory.setBit m p v) (q / 8)).getLsbD (q % 8) =
      if q = p then v else (Memory.read m (q / 8)).getLsbD (q % 8) := by
  rw [Memory.setBit, Memory.read_write hs]
  have hq8 : q % 8 < 8 := Nat.mod_lt _ (by norm_num)
  have hp8 : p % 8 < 8 := Nat.mod_lt _ (by norm_num)
  by_cases hb : q / 8 = p / 8
  · rw [if_pos hb, hb]
    have hmask : ∀ x < 8, ∀ y < 8, (1#8 <<< x).getLsbD y = decide (x = y) := by decide
    by_cases hq : q = p
    · subst hq
      cases v <;>
        simp only [BitVec.getLsbD_or, BitVec.getLsbD_and, BitVec.getLsbD_not, hmask _ hq8 _ hq8, if_true] <;> simp
    · have hne : p % 8 ≠ q % 8 := fun h => hq (by omega)
      cases v <;>
        simp only [BitVec.getLsbD_or, BitVec.getLsbD_and, BitVec.getLsbD_not, hmask _ hp8 _ hq8, hne, hq, if_false, if_true] <;>
        simp [hq8]
  · rw [if_neg hb, if_neg (fun h => hb (by rw [h]))]

/-- Writing `n` block bits: bit `q` of the range takes bit `q - p` of the value, every other bit stays (R123). -/
theorem Memory.setBits_bit {m : Memory} (hs : m.Pairwise fun x y => x.1 < y.1) (p n v q : Nat) :
    (Memory.read (Memory.setBits m p n v) (q / 8)).getLsbD (q % 8) =
      if p ≤ q ∧ q < p + n then v.testBit (q - p) else (Memory.read m (q / 8)).getLsbD (q % 8) := by
  induction n generalizing m p v with
  | zero => rw [Memory.setBits, if_neg (by omega)]
  | succ n ih =>
    rw [Memory.setBits, ih (by rw [Memory.setBit]; exact Memory.pairwise_write hs _ _), Memory.setBit_bit hs]
    by_cases hq : q = p
    · subst hq; rw [if_neg (by omega), if_pos rfl, if_pos (by omega), Nat.sub_self, Nat.testBit_zero, beq_eq_decide]
    · by_cases hr : p + 1 ≤ q ∧ q < p + 1 + n
      · rw [if_pos hr, if_pos (by omega), show q - p = q - (p + 1) + 1 by omega, Nat.testBit_succ]
      · rw [if_neg hr, if_neg hq, if_neg (by omega)]

theorem Memory.wf_setBits {m : Memory} (h : m.wf) {p n : Nat} (hp : p + n ≤ 128) (v : Nat) : (Memory.setBits m p n v).wf := by
  induction n generalizing m p v with
  | zero => exact h
  | succ n ih =>
    refine ih ?_ (by omega) _
    rw [Memory.setBit]
    exact Memory.wf_write h (by omega) _

/-- The bytes of a canonical memory determine it. -/
theorem Memory.ext_read {m m' : Memory} (h : m.wf) (h' : m'.wf) (he : ∀ k, Memory.read m k = Memory.read m' k) : m = m' := by
  induction m generalizing m' with
  | nil =>
    cases m' with
    | nil => rfl
    | cons c rest =>
      have h1 := he c.1
      have h2 := (h'.2 c (by simp)).2
      simp [Memory.read] at h1
      exact absurd h1.symm h2
  | cons c rest ih =>
    obtain ⟨hc, hrest⟩ := List.pairwise_cons.mp h.1
    have hcz := (h.2 c (by simp)).2
    cases m' with
    | nil =>
      have h1 := he c.1
      simp [Memory.read] at h1
      exact absurd h1 hcz
    | cons d rest' =>
      obtain ⟨hd, hrest'⟩ := List.pairwise_cons.mp h'.1
      have hdz := (h'.2 d (by simp)).2
      have hcd : c.1 = d.1 := by
        rcases Nat.lt_trichotomy c.1 d.1 with hlt | heq | hlt
        · have h1 := he c.1
          rw [Memory.read, if_pos rfl, Memory.read_eq_zero_of_lt (m := d :: rest') fun e hme => by
            rcases List.mem_cons.mp hme with rfl | hme
            · exact hlt
            · have := hd e hme; omega] at h1
          exact absurd h1 hcz
        · exact heq
        · have h1 := he d.1
          rw [Memory.read_eq_zero_of_lt (m := c :: rest) fun e hme => by
            rcases List.mem_cons.mp hme with rfl | hme
            · exact hlt
            · have := hc e hme; omega, Memory.read, if_pos rfl] at h1
          exact absurd h1.symm hdz
      have hv : c.2 = d.2 := by
        have h1 := he c.1
        rwa [Memory.read, if_pos rfl, Memory.read, if_pos hcd.symm] at h1
      have hrr : rest = rest' := by
        refine ih ⟨hrest, fun e hm => h.2 e (by simp [hm])⟩ ⟨hrest', fun e hm => h'.2 e (by simp [hm])⟩ fun k => ?_
        by_cases hk : k = c.1
        · rw [hk, Memory.read_eq_zero_of_lt hc, hcd, Memory.read_eq_zero_of_lt hd]
        · have h1 := he k
          rwa [Memory.read, if_neg (Ne.symm hk), Memory.read, if_neg (by rw [← hcd]; exact Ne.symm hk)] at h1
      rw [hrr, show c = d from Prod.ext hcd hv]

end Sys2Proof.Machine
end

