-- ==== Sys2Proof/Laws/Ops.lean ====
section
/-! SUPPORT. What each shared operation does, said once: the flags, the block register, the pixel register, the bit cursor, the field packer, the passes and the encoders' guard. -/

namespace Sys2Proof.Machine

/-! ### Flags -/

theorem withFault_bit (x : Byte) (k : Nat) : (withFault x).getLsbD k = (x.getLsbD k || decide (k = 0)) := by
  simp only [withFault, BitVec.getLsbD_or]
  rcases k with _ | k
  · simp
  · simp [BitVec.getLsbD_one]

theorem withDiag_bit (x : Byte) (k : Nat) : (withDiag x).getLsbD k = (x.getLsbD k || decide (k = 1)) := by
  have h : ∀ k, (2#8 : Byte).getLsbD k = decide (k = 1) := by
    intro k
    by_cases hk : k < 8
    · interval_cases k <;> decide
    · rw [BitVec.getLsbD_of_ge _ _ (by omega)]; simp; omega
  simp only [withDiag, BitVec.getLsbD_or, h]

theorem withFault_reserved {x : Byte} (h : x &&& 0xFC#8 = 0#8) : withFault x &&& 0xFC#8 = 0#8 := by
  revert h; revert x; decide

theorem withDiag_reserved {x : Byte} (h : x &&& 0xFC#8 = 0#8) : withDiag x &&& 0xFC#8 = 0#8 := by
  revert h; revert x; decide

/-- The counter saturates (R29, R507). -/
theorem countUp_toNat (c : Word) : (countUp c).toNat = min (c.toNat + 1) (2 ^ 32 - 1) := by
  have hc := c.isLt
  unfold countUp
  split
  · next h => subst h; decide
  · next h =>
    have : c.toNat ≠ 0xFFFFFFFF := fun e => h (BitVec.eq_of_toNat_eq (by simpa using e))
    rw [BitVec.toNat_add]
    simp
    omega

@[simp] theorem State.faulted_raise (s : State) (c : Cause) (cmd : Word) : (s.raise c cmd).faulted = true := by
  simp [State.faulted, withFault_bit]

@[simp] theorem State.diagged_raise (s : State) (c : Cause) (cmd : Word) : (s.raise c cmd).diagged = s.diagged := by
  rw [State.diagged, State.raise_status, withFault_bit]
  simp [State.diagged]

@[simp] theorem State.faulted_diag (s : State) (code : Byte) : (s.diag code).faulted = s.faulted := by
  rw [State.faulted, State.diag_status, withDiag_bit]
  simp [State.faulted]

@[simp] theorem State.diagged_diag (s : State) (code : Byte) : (s.diag code).diagged = true := by
  simp [State.diagged, withDiag_bit]

/-! ### The block register -/

/-- `setBytes` writes bytes `k .. k+n-1` and no other (R66). -/
theorem State.read_setBytes {s : State} (h : s.blk.wf) (k n v j : Nat) :
    (s.setBytes k n v).blk.read j = if k ≤ j ∧ j < k + n then BitVec.ofNat 8 (v / 256 ^ (j - k)) else s.blk.read j := by
  rw [State.setBytes_blk, Memory.read_writeBytes h.1]

theorem State.wf_setBytes {s : State} (h : s.blk.wf) {k n : Nat} (hk : k + n ≤ 16) (v : Nat) : (s.setBytes k n v).blk.wf :=
  Memory.wf_writeBytes h hk v

/-- An encoder's write reaches the bytes of its format and no other (R21, R548). -/
theorem State.read_writeFormat {s : State} (h : s.blk.wf) (cfg : Config) (fmt : Format) (v j : Nat) :
    (s.writeFormat cfg fmt v).blk.read j =
      if j < (cfg.blockBytes fmt).val then BitVec.ofNat 8 (v / 256 ^ j) else s.blk.read j := by
  rw [State.writeFormat, State.read_setBytes h]
  simp

theorem State.wf_writeFormat {s : State} (h : s.blk.wf) (cfg : Config) (fmt : Format) (v : Nat) :
    (s.writeFormat cfg fmt v).blk.wf := State.wf_setBytes h (by have := (cfg.blockBytes fmt).isLt; omega) v

/-- An encoder's write changes `BLK` and nothing else (R548). -/
theorem State.writeFormat_frame (s : State) (cfg : Config) (fmt : Format) (v : Nat) :
    s.writeFormat cfg fmt v = { s with blk := (s.writeFormat cfg fmt v).blk } := rfl

/-- The number an encoder's write leaves in its first `n` bytes, `n` within the format. -/
theorem State.readBytes_writeFormat {s : State} (h : s.blk.wf) (cfg : Config) (fmt : Format) (v : Nat) :
    (s.writeFormat cfg fmt v).blk.readBytes 0 (cfg.blockBytes fmt).val = v % 256 ^ (cfg.blockBytes fmt).val := by
  rw [State.writeFormat_blk, Memory.readBytes_writeBytes h.1]

/-- A format of sixteen bytes reads the whole block register. -/
theorem State.formatBlock_whole {s : State} {cfg : Config} {fmt : Format} (h : (cfg.blockBytes fmt).val = 16) :
    s.formatBlock cfg fmt = s.block := by rw [State.formatBlock, State.block, h]

/-- What an encoder of a sixteen-byte format writes is the block register afterwards. -/
theorem State.block_writeFormat {s : State} (hs : s.blk.wf) {cfg : Config} {fmt : Format} (h : (cfg.blockBytes fmt).val = 16)
    (b : Block) : (s.writeFormat cfg fmt b.toNat).block = b := by
  rw [State.block, ← h, State.readBytes_writeFormat hs, h]
  apply BitVec.eq_of_toNat_eq
  have := b.isLt
  rw [BitVec.toNat_ofNat]
  omega

/-- What a decoder reads depends on the bytes of its format only (R21). -/
theorem State.formatBlock_congr {s s' : State} {cfg : Config} {fmt : Format}
    (h : ∀ k, k < (cfg.blockBytes fmt).val → s.blk.read k = s'.blk.read k) : s.formatBlock cfg fmt = s'.formatBlock cfg fmt := by
  rw [State.formatBlock, State.formatBlock, Memory.readBytes_congr fun j _ hj => h j (by omega)]

/-- Two block registers with the same bytes are the same 128-bit value. -/
theorem State.block_congr {s s' : State} (h : ∀ k, k < 16 → s.blk.read k = s'.blk.read k) : s.block = s'.block := by
  rw [State.block, State.block, Memory.readBytes_congr fun j _ hj => h j (by omega)]

/-! ### The pixel register -/

@[simp] theorem State.setTile_get (s : State) (f : Nat → Pixel) (i : Fin 16) : (s.setTile f).pix[i.val] = f i.val := by
  simp [State.setTile]

@[simp] theorem decodeTo_get (cfg : Config) (s : State) (px : Nat → Rgba) (i : Fin 16) :
    (decodeTo cfg s px).pix[i.val] = toPixel cfg (px i.val) := by simp [decodeTo]

/-- `decodeTo` writes `PIX` and nothing else (R548). -/
theorem decodeTo_frame (cfg : Config) (s : State) (px : Nat → Rgba) :
    decodeTo cfg s px = { s with pix := (decodeTo cfg s px).pix } := rfl

theorem State.setTile_frame (s : State) (f : Nat → Pixel) : s.setTile f = { s with pix := (s.setTile f).pix } := rfl

theorem State.tile_length (s : State) : s.tile.length = 16 := by simp [State.tile]

theorem State.tile_getElem (s : State) (i : Fin 16) : s.tile[i.val]'(by simp [State.tile]) = s.pix[i.val] := by
  simp [State.tile]

theorem State.colours_length (s : State) (cfg : Config) : (s.colours cfg).length = 16 := by simp [State.colours, State.tile]

theorem State.colours_getElem (s : State) (cfg : Config) (i : Fin 16) :
    (s.colours cfg)[i.val]'(by simp [State.colours_length]) = (s.pix[i.val]).map (valIn cfg.chanFmt) := by
  simp [State.colours, State.tile]

theorem State.intColours_length (s : State) (cfg : Config) (sg : Bool) : (s.intColours cfg sg).length = 16 := by
  simp [State.intColours, State.tile]

theorem State.ldrColours_length (s : State) (cfg : Config) : (s.ldrColours cfg).length = 16 := by
  simp [State.ldrColours, State.tile]

/-- The finiteness check of an encoder, pixel by pixel (R140, R503). -/
theorem State.finiteChans_iff (s : State) (cfg : Config) (cs : List Chan) :
    s.finiteChans cfg cs = true ↔ ∀ i : Fin 16, ∀ c ∈ cs, isFiniteIn cfg.chanFmt ((s.pix[i.val]).get c) = true := by
  simp only [State.finiteChans, State.tile, List.all_eq_true]
  constructor
  · intro h i c hc
    exact h _ (by simp) c hc
  · intro h p hp c hc
    obtain ⟨n, hn, rfl⟩ := List.getElem_of_mem hp
    have hn' : n < 16 := by simpa using hn
    simpa using h ⟨n, hn'⟩ c hc

/-- Finite in binary32: the exponent field, bits 30:23, is not all ones. -/
theorem isFinite32_iff (w : Word) : isFinite32 w = true ↔ w.extractLsb' 23 8 ≠ 0xFF#8 := by
  show (w.extractLsb' 23 8 != BitVec.allOnes 8) = true ↔ _
  rw [bne_iff_ne, show BitVec.allOnes 8 = 0xFF#8 from rfl]

/-- The finiteness check at the defaults (R140, R503). -/
theorem State.finiteChans_config_iff (s : State) (cs : List Chan) :
    s.finiteChans config cs = true ↔ ∀ i : Fin 16, ∀ c ∈ cs, ((s.pix[i.val]).get c).extractLsb' 23 8 ≠ 0xFF#8 := by
  rw [State.finiteChans_iff]
  exact forall_congr' fun i => forall₂_congr fun c _ => isFinite32_iff _

/-! ### The bit cursor -/

/-- The two checks of a BitCursor command as one sentence on `CUR` (R120 to R123). -/
theorem State.overruns_iff (s : State) (n : Nat) : s.overruns n = true ↔ 128 < s.cur.toNat + n := by simp [State.overruns]

theorem badWidth_iff (n : Nat) : badWidth n = true ↔ n = 0 ∨ 8 < n := by simp [badWidth]

theorem State.readBits_frame (s : State) (n : Nat) :
    s.readBits n = { s with res := (s.readBits n).res, cur := (s.readBits n).cur } := rfl

theorem State.readBits_res_toNat (s : State) {n : Nat} (h : n ≤ 8) : (s.readBits n).res.toNat = fld s.block s.cur.toNat n := by
  have h1 := fld_lt s.block s.cur.toNat n
  have h2 : 2 ^ n ≤ 2 ^ 8 := Nat.pow_le_pow_right (by omega) h
  simp only [State.readBits, State.advance, BitVec.toNat_ofNat]
  omega

theorem State.readBits_cur_toNat (s : State) {n : Nat} (h : s.cur.toNat + n ≤ 128) :
    (s.readBits n).cur.toNat = s.cur.toNat + n := by
  simp only [State.readBits, State.advance, BitVec.toNat_ofNat]
  omega

theorem State.writeBits_frame (s : State) (n v : Nat) :
    s.writeBits n v = { s with blk := (s.writeBits n v).blk, cur := (s.writeBits n v).cur } := rfl

theorem State.writeBits_cur_toNat (s : State) {n : Nat} (v : Nat) (h : s.cur.toNat + n ≤ 128) :
    (s.writeBits n v).cur.toNat = s.cur.toNat + n := by
  simp only [State.writeBits, State.advance, BitVec.toNat_ofNat]
  omega

/-- `writeBits` writes the addressed bits of `BLK` and no other (R122, R123). -/
theorem State.writeBits_bit {s : State} (h : s.blk.wf) (n v q : Nat) :
    ((s.writeBits n v).blk.read (q / 8)).getLsbD (q % 8) =
      if s.cur.toNat ≤ q ∧ q < s.cur.toNat + n then v.testBit (q - s.cur.toNat) else (s.blk.read (q / 8)).getLsbD (q % 8) :=
  Memory.setBits_bit h.1 _ n v q

theorem State.wf_writeBits {s : State} (h : s.blk.wf) {n : Nat} (hn : s.cur.toNat + n ≤ 128) (v : Nat) :
    (s.writeBits n v).blk.wf := Memory.wf_setBits h hn v

/-! ### Field lists -/

/-- The number of bits of a field list. -/
def totalBits (l : List (Nat × Nat)) : Nat := (l.map (·.2)).sum

theorem totalBits_cons (f : Nat × Nat) (l : List (Nat × Nat)) : totalBits (f :: l) = f.2 + totalBits l := rfl

theorem packFields_lt (l : List (Nat × Nat)) : packFields l < 2 ^ totalBits l := by
  induction l with
  | nil => simp [packFields, totalBits]
  | cons f rest ih =>
    have h1 : f.1 % 2 ^ f.2 < 2 ^ f.2 := Nat.mod_lt _ (by positivity)
    rw [totalBits_cons, pow_add, packFields]
    nlinarith [Nat.mul_le_mul_left (2 ^ f.2) (Nat.succ_le_of_lt ih)]

theorem packFields_testBit_cons (f : Nat × Nat) (l : List (Nat × Nat)) (p : Nat) :
    (packFields (f :: l)).testBit p = if p < f.2 then f.1.testBit p else (packFields l).testBit (p - f.2) := by
  have h1 : f.1 % 2 ^ f.2 < 2 ^ f.2 := Nat.mod_lt _ (by positivity)
  rw [packFields, Nat.add_comm, Nat.testBit_two_pow_mul_add _ h1]
  split
  · next h => simp [Nat.testBit_mod_two_pow, h]
  · rfl

/-- In a field list the bits of the part behind a prefix stand behind the prefix's bits. -/
theorem packFields_testBit_append (l l' : List (Nat × Nat)) (p : Nat) :
    (packFields (l ++ l')).testBit p =
      if p < totalBits l then (packFields l).testBit p else (packFields l').testBit (p - totalBits l) := by
  induction l generalizing p with
  | nil => simp [totalBits]
  | cons f rest ih =>
    rw [List.cons_append, packFields_testBit_cons, packFields_testBit_cons, totalBits_cons, ih]
    by_cases h1 : p < f.2
    · rw [if_pos h1, if_pos h1, if_pos (by omega)]
    · rw [if_neg h1, if_neg h1]
      by_cases h2 : p - f.2 < totalBits rest
      · rw [if_pos h2, if_pos (by omega)]
      · rw [if_neg h2, if_neg (by omega)]
        congr 1
        omega

/-- The halves of a block read back, each below `2^64`. -/
theorem halves_eq {low high : Nat} (hl : low < 2 ^ 64) (hh : high < 2 ^ 64) : halves low high = low + 2 ^ 64 * high := by
  simp only [halves, packFields, Nat.mod_eq_of_lt hl, Nat.mod_eq_of_lt hh]
  omega

/-! ### Passes -/

theorem passFrom_length {α β : Type} (V : VecOps α) (d : Bool) (Q : Nat → α → β × Option α) (i : Nat) (E l : List α) :
    (passFrom V d Q i E l).length = l.length := by
  induction l generalizing i E with
  | nil => rfl
  | cons p rest ih => simp [passFrom, ih]

/-- A pass gives one result per value (R151). -/
@[simp] theorem pass_length {α β : Type} (V : VecOps α) (d : Bool) (Q : Nat → α → β × Option α) (l : List α) :
    (pass V d Q l).length = l.length := passFrom_length V d Q 0 _ l

theorem passFrom_plain {α β : Type} (V : VecOps α) (Q : Nat → α → β × Option α) (i : Nat) (E l : List α) :
    passFrom V false Q i E l = l.mapIdx fun k v => (Q (i + k) v).1 := by
  induction l generalizing i E with
  | nil => rfl
  | cons p rest ih =>
    simp only [passFrom, List.mapIdx_cons, Nat.add_zero]
    congr 1
    rw [ih]
    congr 1
    funext k v
    rw [show i + 1 + k = i + (k + 1) by omega]

/-- Without dithering a pass quantises each value by itself (R151). -/
theorem pass_plain {α β : Type} (V : VecOps α) (Q : Nat → α → β × Option α) (l : List α) :
    pass V false Q l = l.mapIdx fun k v => (Q k v).1 := by
  rw [pass, passFrom_plain]
  simp

/-! ### The default weights -/

/-- At the weights (1,1,1) a colour is its weighed colour (R167). -/
theorem weigh_unit (c : Rgb) : weigh ⟨1, 1, 1⟩ c = c := by simp [weigh, Triple.map₂]

theorem unweigh_unit (c : Rgb) : unweigh ⟨1, 1, 1⟩ c = c := by simp [unweigh, Triple.map₂]

/-- At the weights (1,1,1) no channel weighting is applied: `OptimizeRGB` is R161 to R166 on the colours themselves, the corner capped at 1 (R167). -/
theorem optimizeRGB_unit {cfg : Config} (h : cfg.weights = ⟨1, 1, 1⟩) (P : List Rgb) (steps : Nat) :
    optimizeRGB cfg P steps = optimizeAxis cfg ⟨1, 1, 1⟩ P steps := by
  have hP : P.map (weigh ⟨1, 1, 1⟩) = P := by
    conv_rhs => rw [← List.map_id P]
    exact List.map_congr_left fun c _ => weigh_unit c
  simp only [optimizeRGB, h, hP, unweigh_unit]

/-! ### The encoders' guard -/

/-- All an encode command can do: write, or fault with `NONFINITE_INPUT` (R500, R503). -/
theorem encodeOr_cases {finite : Bool} {i : Instr} {s w t : State} (h : encodeOr finite i s w = .next t) :
    (finite = true ∧ t = w) ∨ (finite = false ∧ t = s.raise .nonfiniteInput (encode i)) := by
  cases finite <;> simp [encodeOr] at h <;> simp [h]

theorem encodeOr_finite {finite : Bool} (i : Instr) (s w : State) (h : finite = true) : encodeOr finite i s w = .next w := by
  simp [encodeOr, h]

theorem encodeOr_nonfinite {finite : Bool} (i : Instr) (s w : State) (h : finite = false) :
    encodeOr finite i s w = .next (s.raise .nonfiniteInput (encode i)) := by simp [encodeOr, h]

/-! ### Searches -/

theorem bestSoFar_mem (err : Block → Int) (b : Block) (l : List Block) : bestSoFar err b l ∈ b :: l := by
  induction l generalizing b with
  | nil => simp [bestSoFar]
  | cons x rest ih =>
    rw [bestSoFar]
    split
    · have := ih x; simp only [List.mem_cons] at this ⊢; tauto
    · have := ih b; simp only [List.mem_cons] at this ⊢; tauto

theorem bestSoFar_le (err : Block → Int) (b : Block) (l : List Block) : ∀ x ∈ b :: l, err (bestSoFar err b l) ≤ err x := by
  induction l generalizing b with
  | nil => simp [bestSoFar]
  | cons y rest ih =>
    intro x hx
    rw [bestSoFar]
    split
    · next h =>
      have h1 := ih y
      rcases List.mem_cons.1 hx with rfl | hx
      · have := h1 y (by simp); omega
      · exact h1 x hx
    · next h =>
      have h1 := ih b
      rcases List.mem_cons.1 hx with rfl | hx
      · exact h1 _ (by simp)
      · rcases List.mem_cons.1 hx with rfl | hx
        · have := h1 b (by simp); omega
        · exact h1 x (by simp [hx])

/-- What a search keeps is one of the candidates it examines, or the witness (R412). -/
theorem keepBest_mem (err : Block → Int) (l : List Block) (w : Block) : keepBest err l w ∈ l ∨ keepBest err l w = w := by
  cases l with
  | nil => simp [keepBest]
  | cons b rest =>
    have := bestSoFar_mem err b (rest ++ [w])
    simp only [keepBest, List.mem_cons, List.mem_append, List.not_mem_nil, or_false] at this ⊢
    tauto

/-- What a search keeps has no larger error than any candidate it examines (R412). -/
theorem keepBest_le (err : Block → Int) (l : List Block) (w : Block) : ∀ x ∈ l, err (keepBest err l w) ≤ err x := by
  cases l with
  | nil => simp
  | cons b rest =>
    intro x hx
    exact bestSoFar_le err b (rest ++ [w]) x (by simp only [List.mem_cons, List.mem_append] at hx ⊢; tauto)

/-- What a search keeps has no larger error than the witness (R423 item 3, R462 item 3). -/
theorem keepBest_le_witness (err : Block → Int) (l : List Block) (w : Block) : err (keepBest err l w) ≤ err w := by
  cases l with
  | nil => simp [keepBest]
  | cons b rest => exact bestSoFar_le err b (rest ++ [w]) w (by simp)

/-- Every block no worse than the witness is what some search keeps: the form of `enc6H` and `enc7` shuts none out (logs 8, 9). -/
theorem keepBest_singleton {err : Block → Int} {b w : Block} (h : err b ≤ err w) : keepBest err [b] w = b := by
  simp [keepBest, bestSoFar, Int.not_lt.2 h]

/-- The block of the BC6H search has every property of the admissible blocks that the witness has too. -/
theorem enc6H_of_admissible {P : Block → Prop} {cfg : Config} {V : List IntColor} {sg : Bool}
    (h : ∀ b, admissible6H sg b = true → P b) (hw : P (enc6HBase V sg)) : P (enc6H cfg V sg) := by
  rcases keepBest_mem (blockError6H sg V) ((cfg.search6H V sg).filter (admissible6H sg)) (enc6HBase V sg) with hm | he
  · exact h _ (List.mem_filter.1 hm).2
  · rw [enc6H, he]; exact hw

/-- The block of the BC7 search is not the reserved pattern once the witness is not (R461). -/
theorem enc7_nonzero {cfg : Config} {L : List LdrColor} (hw : fld (enc7Base L) 0 8 ≠ 0) : fld (enc7 cfg L) 0 8 ≠ 0 := by
  rcases keepBest_mem (fun b => error7 b L) ((cfg.search7 L).filter fun b => fld b 0 8 != 0) (enc7Base L) with hm | he
  · rw [enc7]; simpa using (List.mem_filter.1 hm).2
  · rw [enc7, he]; exact hw

end Sys2Proof.Machine
end

