-- ==== Sys2Proof/Laws/PerInstr.lean ====
section
/-! SUPPORT. Per-instruction laws over the syntax: the opcode byte of every command word is the one R94 gives (30_encoding.md). -/

namespace Sys2Proof.Laws.OpcodeByte

/-- The operation code of R94. -/
def opcode : Instr → Nat
  | .getbit => 0x01
  | .getbits _ => 0x02
  | .setbit _ => 0x03
  | .setbits _ _ => 0x04
  | .decBc1 => 0x11
  | .decBc2 => 0x12
  | .decBc3 => 0x13
  | .decBc4u => 0x14
  | .decBc4s => 0x15
  | .decBc5u => 0x16
  | .decBc5s => 0x17
  | .decBc6hu => 0x18
  | .decBc6hs => 0x19
  | .decBc7 => 0x1A
  | .encBc1 _ _ => 0x21
  | .encBc2 _ _ => 0x22
  | .encBc3 _ _ => 0x23
  | .encBc4u => 0x24
  | .encBc4s => 0x25
  | .encBc5u => 0x26
  | .encBc5s => 0x27
  | .encBc6hu => 0x28
  | .encBc6hs => 0x29
  | .encBc7 => 0x2A

/-- The low byte of the command word is the operation code (R90, R94). -/
def Statement (i : Instr) : Prop := (encode i).extractLsb' 0 8 = BitVec.ofNat 8 (opcode i)

/-- Bits shifted left by at least 8 leave the low byte alone. -/
theorem low_or (a b : Word) (k : Nat) (hk : 8 ≤ k) : (a ||| b <<< k).extractLsb' 0 8 = a.extractLsb' 0 8 := by
  apply BitVec.eq_of_getLsbD_eq
  intro i hi
  have h : i < k := by omega
  simp [hi, h]

theorem getbit : Statement .getbit := rfl
theorem getbits (n : Nat) : Statement (.getbits n) := by
  rw [Statement, encode, low_or _ _ 8 (by omega)]; rfl
theorem setbit (v : Bool) : Statement (.setbit v) := by revert v; unfold Statement; decide
theorem setbits (n : Nat) (val : Byte) : Statement (.setbits n val) := by
  rw [Statement, encode, low_or _ _ 16 (by omega), low_or _ _ 8 (by omega)]; rfl
theorem decBc1 : Statement .decBc1 := rfl
theorem decBc2 : Statement .decBc2 := rfl
theorem decBc3 : Statement .decBc3 := rfl
theorem decBc4u : Statement .decBc4u := rfl
theorem decBc4s : Statement .decBc4s := rfl
theorem decBc5u : Statement .decBc5u := rfl
theorem decBc5s : Statement .decBc5s := rfl
theorem decBc6hu : Statement .decBc6hu := rfl
theorem decBc6hs : Statement .decBc6hs := rfl
theorem decBc7 : Statement .decBc7 := rfl
theorem encBc1 (dr ck : Bool) : Statement (.encBc1 dr ck) := by revert dr ck; unfold Statement; decide
theorem encBc2 (dr da : Bool) : Statement (.encBc2 dr da) := by revert dr da; unfold Statement; decide
theorem encBc3 (dr da : Bool) : Statement (.encBc3 dr da) := by revert dr da; unfold Statement; decide
theorem encBc4u : Statement .encBc4u := rfl
theorem encBc4s : Statement .encBc4s := rfl
theorem encBc5u : Statement .encBc5u := rfl
theorem encBc5s : Statement .encBc5s := rfl
theorem encBc6hu : Statement .encBc6hu := rfl
theorem encBc6hs : Statement .encBc6hs := rfl
theorem encBc7 : Statement .encBc7 := rfl

end Sys2Proof.Laws.OpcodeByte
end

