-- ==== Sys2Proof/Machine/Units.lean ====
section
/-! DEFINITION. Several units (00_scope.md R8 `NUNITS`; 20_memory.md R79; 60_exceptions.md R514): each has its own complete state, and they share nothing but the ROM tables. `Sys2Proof.core` is one unit, the default. -/

namespace Sys2Proof.Machine

/-- The states of `n` units; a unit's state holds its own host queue. -/
abbrev Units (n : Nat) := Vector State n

/-- Every unit right after reset (R540). -/
def Units.reset (n : Nat) : Units n := Vector.replicate n State.reset

/-- One step of unit `k`: its own state steps, every other unit's stays as it is (R79, R514). Which unit steps next is the outside's choice: no order between units is given. -/
def Units.stepUnit (cfg : Config) (k : Fin cfg.nUnits) (u : Units cfg.nUnits) : Host.Outcome (Units cfg.nUnits) Fault Refusal :=
  match stepIn cfg (u[k.val]) with
  | .next t => .next (u.set k.val t)
  | .fault e => .fault e
  | .refused e => .refused e

end Sys2Proof.Machine
end

