-- ==== Sys2Proof/Laws/Step.lean ====
section
/-! SUPPORT. What one command, one issue, one host action and one unit can do, said once each; later proofs cite these and do not unfold `exec`. -/

namespace Sys2Proof.Machine

/-- The encode command and its format. -/
def encodesTo (i : Instr) (fmt : Format) : Prop :=
  match fmt with
  | .bc1 => ∃ dr ck, i = .encBc1 dr ck
  | .bc2 => ∃ dr da, i = .encBc2 dr da
  | .bc3 => ∃ dr da, i = .encBc3 dr da
  | .bc4u => i = .encBc4u
  | .bc4s => i = .encBc4s
  | .bc5u => i = .encBc5u
  | .bc5s => i = .encBc5s
  | .bc6hu => i = .encBc6hu
  | .bc6hs => i = .encBc6hs
  | .bc7 => i = .encBc7

/-- The decode commands. -/
def decodeCommands : List Instr :=
  [.decBc1, .decBc2, .decBc3, .decBc4u, .decBc4s, .decBc5u, .decBc5s, .decBc6hu, .decBc6hs, .decBc7]

/-- Everything a command can leave behind, by the shape of its effect (R502, R507, R120 to R123, R548). -/
inductive Effect (cfg : Config) (i : Instr) (s : State) : State → Prop
  /-- A fault is entered with the command's own word; no decode command faults (R504). -/
  | faulted (c : Cause) (hc : c ≠ .tableRange) (hi : i ∉ decodeCommands) : Effect cfg i s (s.raise c (encode i))
  /-- Bits are read from the cursor on. -/
  | read (n : Nat) (hi : i = .getbit ∨ i = .getbits n) (h0 : 1 ≤ n) (h8 : n ≤ 8) (h : s.cur.toNat + n ≤ 128) :
      Effect cfg i s (s.readBits n)
  /-- Bits are written from the cursor on. -/
  | wrote (n v : Nat) (hi : (∃ b, i = .setbit b) ∨ ∃ val, i = .setbits n val) (h0 : 1 ≤ n) (h8 : n ≤ 8)
      (h : s.cur.toNat + n ≤ 128) : Effect cfg i s (s.writeBits n v)
  /-- The tile is decoded. -/
  | decoded (f : Nat → Pixel) (hi : i ∈ decodeCommands) : Effect cfg i s (s.setTile f)
  /-- The tile of a reserved BC6H block is written and the diagnostic reported. -/
  | diagnosed (f : Nat → Pixel) (hi : i = .decBc6hu ∨ i = .decBc6hs) : Effect cfg i s ((s.setTile f).diag bc6hReservedMode)
  /-- The bytes of the block that the format has are written. -/
  | encoded (fmt : Format) (v : Nat) (hi : encodesTo i fmt) : Effect cfg i s (s.writeFormat cfg fmt v)

theorem decodeBc6h_effect {i : Instr} (cfg : Config) (fmt : Format) (signed : Bool) (s : State)
    (hi : i = .decBc6hu ∨ i = .decBc6hs) : Effect cfg i s (decodeBc6h cfg fmt signed s) := by
  simp only [decodeBc6h]
  split
  · exact .diagnosed _ hi
  · exact .decoded _ (by rcases hi with rfl | rfl <;> simp [decodeCommands])

theorem encodeOr_effect {finite : Bool} {cfg : Config} {i : Instr} {s w : State} (hi : i ∉ decodeCommands)
    (hw : Effect cfg i s w) :
    ∃ t, encodeOr finite i s w = .next t ∧ Effect cfg i s t := by
  cases finite
  · exact ⟨_, encodeOr_nonfinite i s w rfl, .faulted _ (by decide) hi⟩
  · exact ⟨_, encodeOr_finite i s w rfl, hw⟩

/-- At every configuration a command gives a next state, and its effect is one of the shapes of `Effect`. -/
theorem execIn_effect (cfg : Config) (i : Instr) (s : State) : ∃ t, execIn cfg i s = .next t ∧ Effect cfg i s t := by
  cases i with
  | getbit =>
    simp only [execIn, execGetbit]
    split
    · exact ⟨_, rfl, .faulted _ (by decide) (by simp [decodeCommands])⟩
    · next h =>
      rw [State.overruns_iff] at h
      exact ⟨_, rfl, .read 1 (.inl rfl) (by omega) (by omega) (by omega)⟩
  | getbits n =>
    simp only [execIn, execGetbits]
    split
    · exact ⟨_, rfl, .faulted _ (by decide) (by simp [decodeCommands])⟩
    · next hb =>
      split
      · exact ⟨_, rfl, .faulted _ (by decide) (by simp [decodeCommands])⟩
      · next h =>
        rw [badWidth_iff] at hb
        rw [State.overruns_iff] at h
        exact ⟨_, rfl, .read n (.inr rfl) (by omega) (by omega) (by omega)⟩
  | setbit v =>
    simp only [execIn, execSetbit]
    split
    · exact ⟨_, rfl, .faulted _ (by decide) (by simp [decodeCommands])⟩
    · next h =>
      rw [State.overruns_iff] at h
      exact ⟨_, rfl, .wrote 1 _ (.inl ⟨v, rfl⟩) (by omega) (by omega) (by omega)⟩
  | setbits n val =>
    simp only [execIn, execSetbits]
    split
    · exact ⟨_, rfl, .faulted _ (by decide) (by simp [decodeCommands])⟩
    · next hb =>
      split
      · exact ⟨_, rfl, .faulted _ (by decide) (by simp [decodeCommands])⟩
      · next h =>
        rw [badWidth_iff] at hb
        rw [State.overruns_iff] at h
        exact ⟨_, rfl, .wrote n _ (.inr ⟨val, rfl⟩) (by omega) (by omega) (by omega)⟩
  | decBc1 => exact ⟨_, rfl, .decoded _ (by simp [decodeCommands])⟩
  | decBc2 => exact ⟨_, rfl, .decoded _ (by simp [decodeCommands])⟩
  | decBc3 => exact ⟨_, rfl, .decoded _ (by simp [decodeCommands])⟩
  | decBc4u => exact ⟨_, rfl, .decoded _ (by simp [decodeCommands])⟩
  | decBc4s => exact ⟨_, rfl, .decoded _ (by simp [decodeCommands])⟩
  | decBc5u => exact ⟨_, rfl, .decoded _ (by simp [decodeCommands])⟩
  | decBc5s => exact ⟨_, rfl, .decoded _ (by simp [decodeCommands])⟩
  | decBc6hu => exact ⟨_, rfl, decodeBc6h_effect cfg .bc6hu false s (.inl rfl)⟩
  | decBc6hs => exact ⟨_, rfl, decodeBc6h_effect cfg .bc6hs true s (.inr rfl)⟩
  | decBc7 => exact ⟨_, rfl, .decoded _ (by simp [decodeCommands])⟩
  | encBc1 dr ck => exact encodeOr_effect (by simp [decodeCommands]) (.encoded _ _ (by simp [encodesTo]))
  | encBc2 dr da => exact encodeOr_effect (by simp [decodeCommands]) (.encoded _ _ (by simp [encodesTo]))
  | encBc3 dr da => exact encodeOr_effect (by simp [decodeCommands]) (.encoded _ _ (by simp [encodesTo]))
  | encBc4u => exact encodeOr_effect (by simp [decodeCommands]) (.encoded _ _ (by simp [encodesTo]))
  | encBc4s => exact encodeOr_effect (by simp [decodeCommands]) (.encoded _ _ (by simp [encodesTo]))
  | encBc5u => exact encodeOr_effect (by simp [decodeCommands]) (.encoded _ _ (by simp [encodesTo]))
  | encBc5s => exact encodeOr_effect (by simp [decodeCommands]) (.encoded _ _ (by simp [encodesTo]))
  | encBc6hu => exact encodeOr_effect (by simp [decodeCommands]) (.encoded _ _ (by simp [encodesTo]))
  | encBc6hs => exact encodeOr_effect (by simp [decodeCommands]) (.encoded _ _ (by simp [encodesTo]))
  | encBc7 => exact encodeOr_effect (by simp [decodeCommands]) (.encoded _ _ (by simp [encodesTo]))

/-! ### The configuration as an argument (R8, R12) -/

/-- `exec` is the configured machine at the defaults. -/
theorem exec_eq_execIn : exec = execIn config := by
  funext i s
  cases i <;> rfl

/-- `step` is the configured machine's step at the defaults. -/
theorem step_eq_stepIn : step = stepIn config := by rw [step, stepIn, exec_eq_execIn]

/-- Every command gives a next state, and its effect is one of the shapes of `Effect`. -/
theorem exec_effect (i : Instr) (s : State) : ∃ t, exec i s = .next t ∧ Effect config i s t := by
  rw [exec_eq_execIn]
  exact execIn_effect config i s

/-! ### Inversions -/

/-- The inversion of `exec`: what its next state can be. -/
theorem effect_of_exec {i : Instr} {s t : State} (h : exec i s = .next t) : Effect config i s t := by
  obtain ⟨t', h1, h2⟩ := exec_effect i s
  rw [h1] at h
  cases h
  exact h2

/-- The inversion of `issue`: nothing while faulted, the illegal-word fault, or the command's effect (R505, R509). -/
theorem issue_cases {w : Word} {s t : State} (h : issue w s = .next t) :
    (s.faulted = true ∧ t = s)
      ∨ (s.faulted = false ∧ decode w = none ∧ t = s.raise .illegalCmd w)
      ∨ (s.faulted = false ∧ ∃ i, decode w = some i ∧ exec i s = .next t) := by
  unfold issue issueBy at h
  split at h
  · next hf => cases h; exact .inl ⟨hf, rfl⟩
  · next hf =>
    have hf : s.faulted = false := by simpa using hf
    split at h
    · next hd => cases h; exact .inr (.inl ⟨hf, hd, rfl⟩)
    · next i hd => exact .inr (.inr ⟨hf, i, hd, h⟩)

/-- The inversion of `perform`: what each action of the host can do (R543, R546). -/
theorem perform_cases {act : HostAction} {s t : State} (h : perform act s = .next t) :
    (act = .reset ∧ t = s.doReset)
      ∨ (∃ k v, act = .wrBlk k v ∧ k < 16 ∧ t = { s with blk := s.blk.write k v })
      ∨ (∃ v, act = .wrCur v ∧ t = { s with cur := v })
      ∨ (∃ i c v, act = .wrPix i c v ∧ t = s.setPix i c v)
      ∨ (∃ v, act = .wrAthr v ∧ t = { s with athr := v })
      ∨ (∃ reg v, act = .rd reg ∧ s.readReg reg = some v ∧ t = { s with hostRd := some v })
      ∨ (∃ w, act = .command w ∧ issue w s = .next t) := by
  cases act with
  | reset => cases h; exact .inl ⟨rfl, rfl⟩
  | wrBlk k v =>
    simp only [perform, performBy, hostWriteBlk] at h
    split at h
    · next hk => cases h; exact .inr (.inl ⟨k, v, rfl, hk, rfl⟩)
    · cases h
  | wrCur v => cases h; exact .inr (.inr (.inl ⟨v, rfl, rfl⟩))
  | wrPix i c v => cases h; exact .inr (.inr (.inr (.inl ⟨i, c, v, rfl, rfl⟩)))
  | wrAthr v => cases h; exact .inr (.inr (.inr (.inr (.inl ⟨v, rfl, rfl⟩))))
  | rd reg =>
    refine .inr (.inr (.inr (.inr (.inr (.inl ⟨reg, ?_⟩)))))
    simp only [perform, performBy, hostRead] at h
    split at h
    · next v hv => cases h; exact ⟨v, rfl, hv, rfl⟩
    · next hn => cases reg <;> simp [State.readReg] at hn h
  | command w => exact .inr (.inr (.inr (.inr (.inr (.inr ⟨w, rfl, h⟩)))))

/-- The inversion of `step`: idle, or the oldest action performed after it is taken from the queue (R516, R543). -/
theorem step_cases {s t : State} (h : step s = .next t) :
    (s.queue = [] ∧ t = s) ∨ ∃ act rest, s.queue = act :: rest ∧ perform act { s with queue := rest } = .next t := by
  unfold step stepBy at h
  split at h
  · next hq => cases h; exact .inl ⟨hq, rfl⟩
  · next act rest hq => exact .inr ⟨act, rest, hq, h⟩

/-- A step whose action is known. -/
theorem step_cons {s : State} {act : HostAction} {rest : List HostAction} (h : s.queue = act :: rest) :
    step s = perform act { s with queue := rest } := by
  unfold step stepBy
  rw [h]
  rfl

/-! ### Several units -/

/-- A step of one unit leaves every other unit as it is, and the unit itself as its own step leaves it (R79, R514). -/
theorem Units.stepUnit_next {cfg : Config} {k : Fin cfg.nUnits} {u u' : Units cfg.nUnits} (h : u.stepUnit cfg k = .next u') :
    stepIn cfg (u[k.val]) = .next (u'[k.val]) ∧ ∀ j : Fin cfg.nUnits, j ≠ k → u'[j.val] = u[j.val] := by
  unfold Units.stepUnit at h
  split at h
  · next t ht =>
    cases h
    refine ⟨by simpa using ht, fun j hj => ?_⟩
    rw [Vector.getElem_set_ne]
    exact fun e => hj (Fin.ext e.symm)
  · cases h
  · cases h

end Sys2Proof.Machine
end

