-- ==== Sys2Proof/Tests/Slice0.lean ====
section
/-! SUPPORT. Small tests: the well-formedness check, words written out from the spec's encoding tables, the spec's own vectors (95_test_vectors.md), and a witness for the hypotheses of every statement that has some. Expected values are the spec's, never the model's. -/

namespace Sys2Proof.Tests

open Sys2Proof.Machine Sys2Proof.Claims

-- One proof at a time: each `decide` waits for the theorems before it in any case, and a waiting proof holds a thread and its stack.
set_option Elab.async false

/-! ### Helpers -/

/-- The next state of an outcome. -/
def next? : Host.Outcome State Fault Refusal → Option State
  | .next t => some t
  | .fault _ => none
  | .refused _ => none

/-- The state after one command, the reset state where there is none. -/
def after (i : Instr) (s : State) : State := (next? (exec i s)).getD State.reset

/-- The state after one host action, the reset state where there is none. -/
def afterAct (act : HostAction) (s : State) : State := (next? (perform act s)).getD State.reset

/-- Block bytes from address 0 up. -/
def blkOf (l : List Byte) : Memory := (l.zipIdx).foldl (fun m c => m.write c.2 c.1) []

/-- The reset state with these block bytes. -/
def withBlk (l : List Byte) : State := { State.reset with blk := blkOf l }

/-- The reset state with these block bytes and this cursor. -/
def atCur (l : List Byte) (cur : Byte) : State := { withBlk l with cur := cur }

/-- The reset state with these pixels. -/
def withPix (f : Nat → Pixel) : State := State.reset.setTile f

/-- The first `n` block bytes. -/
def bytes (s : State) (n : Nat) : List Byte := (List.range n).map s.blk.read

/-- The red words of the first eight pixels. -/
def reds (s : State) : List Word := (s.tile.take 8).map (·.r)

/-- The alpha words of the first eight pixels. -/
def alphas (s : State) : List Word := (s.tile.take 8).map (·.a)

/-- The binary32 words of 1, -1, 1/2 and of k/7 and k/5, by hand. -/
def one : Word := 0x3F800000#32
def half : Word := 0x3F000000#32
def sevenths : List Word := [0x00000000#32, 0x3E124925#32, 0x3E924925#32, 0x3EDB6DB7#32, 0x3F124925#32, 0x3F36DB6E#32, 0x3F5B6DB7#32]

/-- A solid tile. -/
def solid (r g b a : Word) : State := withPix fun _ => ⟨r, g, b, a⟩

/-! ### Well-formedness: an ill-formed command for each check -/

theorem test_wf_refuses_getbits_16 : (Instr.getbits 16).wf = false := by decide
theorem test_wf_refuses_setbits_16 : (Instr.setbits 16 0#8).wf = false := by decide
theorem test_wf_accepts_getbits_15 : (Instr.getbits 15).wf = true := by decide

/-! ### Decoding: a word for every command, bit by bit from R90 and R94 (fields 31:27, CK, DA, DR, VAL, zero, N, OPC) -/

theorem test_decode_getbit : decode 0b00000_0_0_0_00000000_0000_0000_00000001#32 = some (.getbit) := by decide
theorem test_decode_getbits : decode 0b00000_0_0_0_00000000_0000_1000_00000010#32 = some (.getbits 8) := by decide
theorem test_decode_setbit : decode 0b00000_0_0_0_00000001_0000_0000_00000011#32 = some (.setbit true) := by decide
theorem test_decode_setbits : decode 0b00000_0_0_0_00110101_0000_0100_00000100#32 = some (.setbits 4 0x35#8) := by decide
theorem test_decode_decBc1 : decode 0b00000_0_0_0_00000000_0000_0000_00010001#32 = some (.decBc1) := by decide
theorem test_decode_decBc2 : decode 0b00000_0_0_0_00000000_0000_0000_00010010#32 = some (.decBc2) := by decide
theorem test_decode_decBc3 : decode 0b00000_0_0_0_00000000_0000_0000_00010011#32 = some (.decBc3) := by decide
theorem test_decode_decBc4u : decode 0b00000_0_0_0_00000000_0000_0000_00010100#32 = some (.decBc4u) := by decide
theorem test_decode_decBc4s : decode 0b00000_0_0_0_00000000_0000_0000_00010101#32 = some (.decBc4s) := by decide
theorem test_decode_decBc5u : decode 0b00000_0_0_0_00000000_0000_0000_00010110#32 = some (.decBc5u) := by decide
theorem test_decode_decBc5s : decode 0b00000_0_0_0_00000000_0000_0000_00010111#32 = some (.decBc5s) := by decide
theorem test_decode_decBc6hu : decode 0b00000_0_0_0_00000000_0000_0000_00011000#32 = some (.decBc6hu) := by decide
theorem test_decode_decBc6hs : decode 0b00000_0_0_0_00000000_0000_0000_00011001#32 = some (.decBc6hs) := by decide
theorem test_decode_decBc7 : decode 0b00000_0_0_0_00000000_0000_0000_00011010#32 = some (.decBc7) := by decide
theorem test_decode_encBc1 : decode 0b00000_1_0_0_00000000_0000_0000_00100001#32 = some (.encBc1 false true) := by decide
theorem test_decode_encBc2 : decode 0b00000_0_0_1_00000000_0000_0000_00100010#32 = some (.encBc2 true false) := by decide
theorem test_decode_encBc3 : decode 0b00000_0_1_0_00000000_0000_0000_00100011#32 = some (.encBc3 false true) := by decide
theorem test_decode_encBc4u : decode 0b00000_0_0_0_00000000_0000_0000_00100100#32 = some (.encBc4u) := by decide
theorem test_decode_encBc4s : decode 0b00000_0_0_0_00000000_0000_0000_00100101#32 = some (.encBc4s) := by decide
theorem test_decode_encBc5u : decode 0b00000_0_0_0_00000000_0000_0000_00100110#32 = some (.encBc5u) := by decide
theorem test_decode_encBc5s : decode 0b00000_0_0_0_00000000_0000_0000_00100111#32 = some (.encBc5s) := by decide
theorem test_decode_encBc6hu : decode 0b00000_0_0_0_00000000_0000_0000_00101000#32 = some (.encBc6hu) := by decide
theorem test_decode_encBc6hs : decode 0b00000_0_0_0_00000000_0000_0000_00101001#32 = some (.encBc6hs) := by decide
theorem test_decode_encBc7 : decode 0b00000_0_0_0_00000000_0000_0000_00101010#32 = some (.encBc7) := by decide
theorem test_decode_rejects_near_misses :
    [0x00000000#32, 0x00000005#32, 0x00000010#32, 0x0000001B#32, 0x00000020#32, 0x0000002B#32, 0x00000121#32, 0x02000021#32,
      0x00020003#32, 0x80000011#32, 0x04000022#32, 0x00001002#32].map decode = List.replicate 12 none := by decide
theorem test_decode_n_15 : decode 0x00FF0F04#32 = some (.setbits 15 0xFF#8) := by decide
theorem test_table_word_short : decodeTableWord 16 0x0802 = some (.getbits 8) := by decide
theorem test_table_word_above_bit_31 : decodeTableWord 40 0x0100000001 = none := by decide
theorem test_rows_are_the_table : opRows.map (fun row => (row.code, row.mask)) = opcodeTable.map (fun row => (row.1, row.2.1)) := by decide
theorem test_fetch_word_runs :
    (next? (step (State.reset.withFetchWord 32 0x00FF0804))).map (fun t => (t.blk.read 0, t.cur, t.queue))
      = some (0xFF#8, 8#8, []) := by decide

/-! ### BitCursor (95_test_vectors.md section 2.1) -/

theorem test_getbit_V_BIT_1 : (after .getbit (atCur [0xA5#8, 0x3C#8] 0#8)).res = 1#8 := by decide
theorem test_getbits_V_BIT_4 :
    let t := after (.getbits 8) (atCur [0xA5#8, 0x3C#8] 4#8)
    (t.res, t.cur) = (0xCA#8, 12#8) := by decide
theorem test_getbits_V_BIT_14 :
    let t := after (.getbits 4) (atCur [0xA5#8, 0x3C#8] 125#8)
    (t.status, t.fcause, t.finfo, t.cur) = (1#8, 1#8, 0x00000402#32, 125#8) := by decide
theorem test_setbit_V_BIT_11 : bytes (after (.setbit false) (atCur [0xFF#8] 3#8)) 2 = [0xF7#8, 0#8] := by decide
theorem test_setbits_V_BIT_12 :
    let t := after (.setbits 4 0x35#8) (atCur [0x00#8, 0xFF#8] 6#8)
    (bytes t 2, t.cur) = ([0x40#8, 0xFD#8], 10#8) := by decide
theorem test_setbits_V_BIT_17 :
    let t := after (.setbits 12 0#8) (atCur [] 125#8)
    (t.fcause, t.finfo) = (2#8, 0x00000C04#32) := by decide

/-! ### BC1, BC2, BC3 decode (section 2.2) -/

theorem test_decBc1_V_BC1_D3 :
    ((after .decBc1 (withBlk [0x00#8, 0xF8#8, 0x1F#8, 0x00#8, 0xE4#8, 0xE4#8, 0xE4#8, 0xE4#8])).tile.drop 12)
      = [⟨one, 0#32, 0#32, one⟩, ⟨0#32, 0#32, one, one⟩, ⟨0x3F2AAAAB#32, 0#32, 0x3EAAAAAB#32, one⟩,
          ⟨0x3EAAAAAB#32, 0#32, 0x3F2AAAAB#32, one⟩] := by decide +kernel
theorem test_decBc1_V_BC1_D4 :
    ((after .decBc1 (withBlk [0x1F#8, 0x00#8, 0x00#8, 0xF8#8, 0xE4#8, 0xE4#8, 0xE4#8, 0xE4#8])).tile.drop 12)
      = [⟨0#32, 0#32, one, one⟩, ⟨one, 0#32, 0#32, one⟩, ⟨half, 0#32, half, one⟩, zeroPixel] := by decide +kernel
theorem test_decBc2_V_BC2_D2 :
    let t := after .decBc2 (withBlk (List.replicate 8 0xFF#8 ++ [0x1F#8, 0x00#8, 0x00#8, 0xF8#8] ++ List.replicate 4 0xFF#8))
    t.pix[7] = ⟨0x3F2AAAAB#32, 0#32, 0x3EAAAAAB#32, one⟩ := by decide +kernel
theorem test_decBc2_V_BC2_D1 :
    let t := after .decBc2 (withBlk [0x10#8, 0x32#8, 0x54#8, 0x76#8, 0x98#8, 0xBA#8, 0xDC#8, 0xFE#8, 0x00#8, 0xF8#8, 0x1F#8])
    (t.pix[0].a, t.pix[1].a, t.pix[15].a) = (0#32, 0x3D888889#32, one) := by decide +kernel
theorem test_decBc3_V_BC3_D1 :
    let t := after .decBc3 (withBlk [0xFF#8, 0x00#8, 0x88#8, 0xC6#8, 0xFA#8, 0x88#8, 0xC6#8, 0xFA#8, 0x00#8, 0xF8#8, 0x1F#8])
    alphas t = [one] ++ (sevenths.take 1) ++ (sevenths.drop 1).reverse := by decide +kernel

/-! ### BC4, BC5 decode (section 2.4) -/

theorem test_decBc4u_V_BC4_D2 :
    reds (after .decBc4u (withBlk [0x00#8, 0xFF#8, 0x88#8, 0xC6#8, 0xFA#8, 0x88#8, 0xC6#8, 0xFA#8]))
      = [0#32, one, 0x3E4CCCCD#32, 0x3ECCCCCD#32, 0x3F19999A#32, 0x3F4CCCCD#32, 0#32, one] := by decide +kernel
theorem test_decBc4s_V_BC4_D5 :
    reds (after .decBc4s (withBlk [0x81#8, 0x80#8, 0x88#8, 0xC6#8, 0xFA#8, 0x88#8, 0xC6#8, 0xFA#8]))
      = List.replicate 8 0xBF800000#32 := by decide +kernel
theorem test_decBc4s_V_BC4_D3 :
    reds (after .decBc4s (withBlk [0x7F#8, 0x81#8, 0x88#8, 0xC6#8, 0xFA#8, 0x88#8, 0xC6#8, 0xFA#8]))
      = [one, 0xBF800000#32, 0x3F36DB6E#32, 0x3EDB6DB7#32, 0x3E124925#32, 0xBE124925#32, 0xBEDB6DB7#32, 0xBF36DB6E#32] := by
  decide +kernel
theorem test_decBc5u_V_BC5_D1 :
    let t := after .decBc5u (withBlk [0xFF#8, 0x00#8, 0x88#8, 0xC6#8, 0xFA#8, 0x88#8, 0xC6#8, 0xFA#8,
      0x00#8, 0xFF#8, 0x88#8, 0xC6#8, 0xFA#8, 0x88#8, 0xC6#8, 0xFA#8])
    (t.pix[1], t.pix[10]) = (⟨0#32, one, 0#32, one⟩, ⟨0x3F5B6DB7#32, 0x3E4CCCCD#32, 0#32, one⟩) := by decide +kernel
theorem test_decBc5s_two_blocks :
    let t := after .decBc5s (withBlk [0x7F#8, 0x81#8, 0x88#8, 0xC6#8, 0xFA#8, 0x88#8, 0xC6#8, 0xFA#8,
      0x81#8, 0x7F#8, 0x88#8, 0xC6#8, 0xFA#8, 0x88#8, 0xC6#8, 0xFA#8])
    t.pix[14] = ⟨0xBEDB6DB7#32, 0xBF800000#32, 0#32, one⟩ := by decide +kernel

/-! ### BC6H decode (section 2.5) -/

/-- The block of V-BC6-D1. -/
def bc6D1 : State :=
  withBlk [0x03#8, 0x00#8, 0x00#8, 0x00#8, 0xF8#8, 0x1F#8, 0xC0#8, 0x00#8, 0x10#8, 0x32#8, 0x54#8, 0x76#8, 0x98#8, 0xBA#8,
    0xDC#8, 0xFE#8]

/-- The block of V-BC6-D4: mode 14 with an endpoint component -2^15. -/
def bc6D4 : State := withBlk [0x0F#8, 0x00#8, 0x00#8, 0xFE#8, 0x87#8, 0x00#8, 0x00#8, 0xF0#8, 0x01#8]

theorem test_decBc6hu_V_BC6_D1 :
    let t := after .decBc6hu bc6D1
    (t.pix[1].r, t.pix[15].r, t.pix[15].a, t.status) = (0x38F80000#32, 0x477FE000#32, one, 0#8) := by decide +kernel
theorem test_decBc6hu_V_BC6_D3 :
    let t := after .decBc6hu (withBlk [0x13#8])
    (t.status, t.diagcode, t.diagcnt, t.pix[9]) = (2#8, 1#8, 1#32, ⟨0#32, 0#32, 0#32, one⟩) := by decide +kernel
theorem test_decBc6hs_V_BC6_D1 :
    let M := mode11
    ((pixelInt6H M bc6D1.block true 2 .r), (pixelInt6H M bc6D1.block true 2 .g), (pixelInt6H M bc6D1.block true 2 .b))
      = (-0x000C, -0x1170, 0x000D) := by decide +kernel
theorem test_decBc6hs_V_BC6_D4 :
    let t := after .decBc6hs bc6D4
    (t.pix[3].r, t.pix[3].g, t.pix[3].b, t.status) = (0xFF800000#32, 0#32, 0x477FE000#32, 0#8) := by decide +kernel
theorem test_bc6_layouts_R383 :
    modes6H.all (fun M =>
      M.layout.map (fun run => run.hi + 1 - run.lo) |>.sum |> (· == headerBits6H M)) = true := by decide +kernel
theorem test_bc6_mode11_is_in_the_table : mode6H 0x03 = some mode11 := by decide
theorem test_bc6_fixups_in_region_1 : (List.range 64).all (fun sh => region2 sh (fixup2 sh) == 1) = true := by decide +kernel

/-! ### BC7 decode (section 2.7) -/

/-- The 8-bit colours of two pixels. -/
def ldrs (l : List Byte) (i j : Nat) : LdrColor × LdrColor := (bc7Ldr (withBlk l).block i, bc7Ldr (withBlk l).block j)

theorem test_decBc7_V_BC7_D2 :
    ldrs [0xB0#8, 0xE0#8, 0x83#8, 0x0F#8, 0x3E#8, 0xF0#8, 0xCB#8, 0xC9#8, 0xC9#8, 0xC9#8, 0x89#8, 0xC6#8, 0xFA#8, 0x88#8,
      0xC6#8, 0xFA#8] 1 10 = (⟨84, 36, 36, 36⟩, ⟨171, 72, 72, 72⟩) := by decide +kernel
theorem test_decBc7_V_BC7_D4 :
    ldrs [0xEB#8, 0x01#8, 0x00#8, 0x00#8, 0xE0#8, 0x01#8, 0x00#8, 0x00#8, 0xE0#8, 0xA1#8, 0x02#8] 2 15
      = (⟨8, 255, 8, 255⟩, ⟨8, 8, 255, 255⟩) := by decide +kernel
theorem test_bc7_bits_R491 :
    modes7.all (fun M => indexStart7b M + (if M.ip2 = 0 then 0 else 16 * M.ip2 - 1) == 128) = true := by decide +kernel
theorem test_bc7_fixups_in_their_regions :
    (List.range 64).all (fun sh => region3 sh (fixups3a.getD sh 0) == 1 && region3 sh (fixups3b.getD sh 0) == 2) = true := by
  decide +kernel

/-! ### Encode (sections 2.3, 2.4, 2.6, 2.7) -/

theorem test_encBc1_V_BC1_E1 :
    bytes (after (.encBc1 false false) (solid half 0x3E800000#32 0x3F400000#32 one)) 8
      = [0x17#8, 0x82#8, 0x17#8, 0x82#8, 0#8, 0#8, 0#8, 0#8] := by decide +kernel
theorem test_encBc1_V_BC1_E8 :
    bytes (after (.encBc1 false false)
        (withPix fun i => if i % 2 = 0 then ⟨one, 0#32, 0#32, one⟩ else ⟨0#32, 0#32, one, one⟩)) 8
      = [0x00#8, 0xF8#8, 0x1F#8, 0x00#8, 0x44#8, 0x44#8, 0x44#8, 0x44#8] := by decide +kernel
theorem test_encBc2_V_BC2_E2d :
    bytes (after (.encBc2 false true) (withPix fun i => toPixel config ⟨1, 0, 0, (i : ℚ) / 16⟩)) 12
      = [0x10#8, 0x32#8, 0x54#8, 0x75#8, 0x87#8, 0xAA#8, 0xCB#8, 0xED#8, 0x00#8, 0xF8#8, 0x00#8, 0xF8#8] := by decide +kernel
theorem test_encBc3_V_BC3_E4 :
    bytes (after (.encBc3 false false) (withPix fun i => ⟨0#32, 0#32, 0#32, if i % 2 = 0 then 0#32 else one⟩)) 10
      = [0xFF#8, 0x00#8, 0x41#8, 0x10#8, 0x04#8, 0x41#8, 0x10#8, 0x04#8, 0#8, 0#8] := by decide +kernel
theorem test_encBc4u_V_BC4_E4 :
    bytes (after .encBc4u (solid half 0#32 0#32 0#32)) 8 = [0x80#8, 0x80#8, 0#8, 0#8, 0#8, 0#8, 0#8, 0#8] := by
  decide +kernel
theorem test_encBc4s_V_BC4_E7 :
    bytes (after .encBc4s (solid 0xBF800000#32 0#32 0#32 0#32)) 8
      = [0x7F#8, 0x81#8, 0x49#8, 0x92#8, 0x24#8, 0x49#8, 0x92#8, 0x24#8] := by decide +kernel
theorem test_encBc5u_corners :
    bytes (after .encBc5u (solid 0#32 one 0x7F800000#32 0#32)) 16
      = [0xFF#8, 0x00#8, 0x49#8, 0x92#8, 0x24#8, 0x49#8, 0x92#8, 0x24#8, 0xFF#8, 0#8, 0#8, 0#8, 0#8, 0#8, 0#8, 0#8] := by
  decide +kernel
theorem test_encBc5s_green_half :
    (bytes (after .encBc5s (solid 0#32 half 0#32 0#32)) 16).drop 8 = [0x40#8, 0x40#8, 0#8, 0#8, 0#8, 0#8, 0#8, 0#8] := by
  decide +kernel
theorem test_bc6h_witness_V_BC6_E1a :
    enc6HBase (List.replicate 16 ⟨15360, 15360, 15360⟩) false = 0xF7BDEF7BDEF7BDE3#128 := by decide +kernel
theorem test_bc7_witness_V_BC7_E1 :
    enc7Base (List.replicate 16 ⟨200, 100, 50, 255⟩) = 0x01FFFE64CB26593240#128 := by decide +kernel

/-! ### The defaults of 00_scope.md R8 -/

theorem test_block_bytes_R8 :
    [Format.bc1, .bc2, .bc3, .bc4u, .bc4s, .bc5u, .bc5s, .bc6hu, .bc6hs, .bc7].map (fun f => (config.blockBytes f).val)
      = [8, 16, 16, 8, 8, 16, 16, 16, 16, 16] := by decide
theorem test_parameters_R8 :
    config.chanFmt = ⟨8, 23⟩ ∧ config.epsSingle = 1 / 2 ^ 126 ∧ config.epsTwo = 1 / 4096 ∧ config.epsGrad = 1 / 256
      ∧ config.maxIter = 8 ∧ config.alphaEpsRange = 1 / 256 ∧ config.alphaEpsGrad = 1 / 64
      ∧ config.weights = ⟨1, 1, 1⟩ ∧ config.nUnits = 1 := by decide +kernel
/-- `RN32` is an argument: a configuration that rounds everything to the word 7 stores it, and +0.0 for zero (R12, R141). -/
theorem test_rn32_is_an_argument :
    let t := (next? (execIn { config with rn32 := fun _ => 7#32 } .decBc4u (withBlk [0xFF#8, 0xFF#8]))).getD State.reset
    t.pix[5] = ⟨7#32, 0#32, 0#32, 7#32⟩ := by decide +kernel
/-- A step of one unit leaves the other as it is (R79). -/
theorem test_units_are_independent :
    let cfg := { config with nUnits := 2 }
    let u : Units 2 := (Units.reset 2).map fun s => { s with queue := [.wrCur 5#8] }
    (match Units.stepUnit cfg (1 : Fin 2) u with
      | .next u' => [u'[0].cur, u'[1].cur]
      | _ => []) = [0#8, 5#8] := by decide +kernel
/-- A channel format of another width: binary16 in the low half of the element, the half 1.5. -/
theorem test_chan_fmt_binary16 : valIn ⟨5, 10⟩ 0x3E00#32 = 3 / 2 ∧ isFiniteIn ⟨5, 10⟩ 0x7C00#32 = false := by decide +kernel

/-! ### Faults, diagnostics and the host (section 2.8) -/

theorem test_V_FLT_2 :
    let t := (next? (issue 0x00000121#32 State.reset)).getD State.reset
    (t.status, t.fcause, t.finfo) = (1#8, 3#8, 0x00000121#32) := by decide
theorem test_V_FLT_8 :
    let t := after (.encBc1 false false) (afterAct (.wrPix 3 .a 0x7F800000#32) State.reset)
    (t.fcause, t.finfo, t.blk) = (5#8, 0x00000021#32, []) := by decide +kernel
theorem test_V_FLT_13 :
    let s := afterAct (.command 0#32) State.reset
    (afterAct (.rd (.blk 0)) (afterAct (.wrBlk 0 0x55#8) s)).hostRd = some (.byte 0x55#8) := by decide
theorem test_V_DIAG_2 : countUp 0xFFFFFFFF#32 = 0xFFFFFFFF#32 := by decide
theorem test_f32toF16_overflow : f32toF16Default 0x49742400#32 = 0x7C00#16 := by decide +kernel

/-! ### Witnesses: a state and operands that meet the hypotheses of each statement that has some -/

/-- The reset state with these actions pending. -/
def pending (l : List HostAction) : State := { State.reset with queue := l }

/-- A faulted state with these actions pending. -/
def faultedPending (l : List HostAction) : State :=
  { State.reset with status := 1#8, fcause := 3#8, queue := l }

/-- A tile whose first pixel is below the threshold 1/2 and whose others are not. -/
def partlyKeyed : State :=
  { (withPix fun i => ⟨half, half, half, if i = 0 then 0#32 else one⟩) with athr := half }

/-- A tile that every encoder refuses. -/
def nanTile : State := solid 0x7FC00000#32 0#32 0#32 0#32

theorem witness_DecodeOfEncode : (Instr.getbits 15).wf = true ∧ (Instr.setbits 15 0xFF#8).wf = true := by decide

theorem witness_EncodeOfDecode : decode 0x07FF0F00#32 = none ∧ decode 0x05000021#32 = some (.encBc1 true true) := by decide

theorem witness_EveryWord :
    State.reset.faulted = false ∧ decode 0x0000002A#32 = some .encBc7 ∧ decode 0x0000002B#32 = none := by decide

theorem witness_UnassignedOpcode :
    State.reset.faulted = false
      ∧ [0x00#32, 0x05#32, 0x2B#32, 0xFFFFFFFF#32].all (fun w => decide (w.toNat % 256 ∉ assignedOpcodes)) = true := by decide +kernel

theorem witness_StepRuns :
    let s := pending [.command 0x00000001#32, .reset]
    s.queue = .command 0x00000001#32 :: [.reset] ∧ s.faulted = false ∧ decode 0x00000001#32 = some .getbit := by decide

theorem witness_PlacedWord : State.reset.faulted = false ∧ (Instr.encBc3 true true).wf = true := by decide

theorem witness_Reset : (faultedPending [.reset]).queue = .reset :: [] := by decide

theorem witness_FaultedUnit :
    (∀ act ∈ [HostAction.command 0x11#32, .rd .status, .wrCur 255#8, .wrAthr one, .wrBlk 15 1#8, .wrPix 15 .a one, .reset],
        (faultedPending [act]).faulted = true ∧ (faultedPending [act]).queue = act :: [] ∧ (faultedPending [act]).blk.wf)
      ∧ (faultedPending []).readReg .status = some (.byte 1#8) ∧ (15 : Nat) < 16 := by decide

/-- For HostAccessesAreWholeElements, a clause each: every element read, every element written, the first address that does not exist. -/
theorem witness_HostAccesses :
    (∀ reg ∈ [RegName.blk 15, .cur, .pix 15 .a, .athr, .res, .status, .fcause, .finfo, .diagcode, .diagcnt],
      (pending [.rd reg]).queue = .rd reg :: [] ∧ (State.reset.readReg reg).isSome)
      ∧ State.reset.blk.wf ∧ (pending [.wrCur 200#8]).queue = .wrCur 200#8 :: []
      ∧ (pending [.wrAthr one]).queue = .wrAthr one :: [] ∧ (pending [.wrBlk 15 1#8]).queue = .wrBlk 15 1#8 :: []
      ∧ (pending [.wrPix 15 .a one]).queue = .wrPix 15 .a one :: [] ∧ (16 : Nat) ≤ 16
      ∧ (pending [.wrBlk 16 1#8]).queue = .wrBlk 16 1#8 :: [] ∧ (pending [.rd (.blk 16)]).queue = .rd (.blk 16) :: [] := by
  decide

theorem witness_StepStops : State.reset.nextActionValid ∧ (pending [.wrBlk 15 1#8]).nextActionValid := by
  constructor
  · trivial
  · show (15 : Nat) < 16
    decide

theorem witness_StepKeepsInvariant :
    (pending [.command 0x00000000#32]).Inv ∧ ∃ t, step (pending [.command 0x00000000#32]) = .next t ∧ t.faulted = true := by
  refine ⟨⟨by decide, by decide, by decide, by decide, by decide, by decide⟩, ?_⟩
  exact ⟨(pending []).raise .illegalCmd 0x00000000#32, rfl, by decide⟩

theorem witness_FlagsAreSticky :
    let s : State := { faultedPending [.command 0x00000011#32] with status := 3#8, diagcode := 1#8, diagcnt := 0xFFFFFFFF#32 }
    s.queue.head? ≠ some .reset ∧ s.faulted = true ∧ s.diagged = true ∧ s.diagcode = 1#8 ∧ ∃ t, step s = .next t := by
  refine ⟨by decide, by decide, by decide, by decide, _, rfl⟩

theorem witness_EachRegister :
    ∃ t, exec .decBc7 State.reset = .next t ∧ isBitCursor .decBc7 = false ∧ Instr.decBc7 ∈ decoders
      ∧ Instr.encBc7 ∉ decoders := ⟨_, rfl, by decide, by decide, by decide⟩

theorem witness_Getbit :
    (atCur [] 127#8).cur.toNat < 128 ∧ 128 ≤ (atCur [] 128#8).cur.toNat ∧ 128 ≤ (atCur [] 255#8).cur.toNat := by decide

theorem witness_Getbits :
    ((atCur [] 120#8).cur.toNat + 8 ≤ 128 ∧ (atCur [] 120#8).cur.toNat % 8 + 8 ≤ 8)
      ∧ ((atCur [] 119#8).cur.toNat + 8 ≤ 128 ∧ 8 < (atCur [] 119#8).cur.toNat % 8 + 8)
      ∧ (0 < 16 ∧ (9 : Nat) < 16 ∧ 8 < 9) ∧ 128 < (atCur [] 121#8).cur.toNat + 8 := by decide

theorem witness_Setbit :
    (atCur [0xFF#8] 127#8).blk.wf ∧ (atCur [0xFF#8] 127#8).cur.toNat < 128 ∧ 128 ≤ (atCur [] 128#8).cur.toNat := by decide

theorem witness_Setbits :
    (atCur [0xFF#8] 120#8).blk.wf ∧ (atCur [0xFF#8] 120#8).cur.toNat + 8 ≤ 128 ∧ 128 < (atCur [] 121#8).cur.toNat + 8
      ∧ (8 : Nat) < 15 ∧ 15 < 16 := by decide

theorem witness_WriteThenRead : State.reset.blk.wf ∧ 1 ≤ 8 ∧ 8 ≤ 8 ∧ 120 + 8 ≤ 128 := by decide

theorem witness_Sequential : State.reset.blk.wf ∧ State.reset.cur = 0#8 := by decide

theorem witness_FaultEntry :
    State.reset.faulted = false
      ∧ ∃ t, issue 0x00000002#32 State.reset = .next t ∧ t.faulted = true ∧ t.fcause = 2#8 :=
  ⟨by decide, State.reset.raise .badWidth 0x00000002#32, rfl, by decide, by decide⟩

theorem witness_CommandsFault : State.reset.faulted = false ∧ (atCur [] 128#8).faulted = false ∧ 128 ≤ (atCur [] 128#8).cur.toNat := by
  decide

theorem witness_FaultPriority_cursor :
    decode 0x00000001#32 = some .getbit ∧ decode 0x00010003#32 = some (.setbit true) ∧ (atCur [] 128#8).faulted = false
      ∧ 128 ≤ (atCur [] 128#8).cur.toNat := by decide

theorem witness_FaultPriority :
    (faultedPending []).faulted = true ∧ State.reset.faulted = false ∧ decode 0#32 = none
      ∧ decode 0x00000902#32 = some (.getbits 9) ∧ decode 0x00000802#32 = some (.getbits 8)
      ∧ decode 0x00000C04#32 = some (.setbits 12 0#8) ∧ 128 < (atCur [] 121#8).cur.toNat + 8 := by decide

theorem witness_FaultPriority_nonfinite :
    (Instr.encBc7, 16, [Chan.r, .g, .b, .a]) ∈ encoders false false ∧ nanTile.faulted = false
      ∧ decode 0x0000002A#32 = some .encBc7 ∧ ¬ inputsFinite .encBc7 [.r, .g, .b, .a] nanTile := by
  refine ⟨by decide, by decide, by decide, fun h => h.1 0 .r (by decide) (by decide)⟩

theorem witness_ChannelRamp :
    (storedInt true 0x81 < storedInt true 0x7F ∧ (channelRamp true 0x7F 0x81).getD 0 0 ≠ (channelRamp true 0x7F 0x81).getD 1 0)
      ∧ storedInt true 0x80 ≤ storedInt true 0x7F
      ∧ (channelRamp false 0 255).getD 0 0 < (channelRamp false 0 255).getD 1 0 := by decide +kernel

theorem witness_ReservedBc6h :
    [0x13#8, 0x17#8, 0x1B#8, 0x1F#8].all (fun k => decide (selector6H (withBlk [k]).block ∈ reservedSelectors)) = true := by decide

theorem witness_AssignedBc6h :
    [0x00#8, 0x01#8, 0x1E#8, 0x0F#8].all (fun k => decide (bc6Selector (withBlk [k]) ∉ reservedSelectors)) = true := by decide

theorem witness_Bc6hHalves :
    ∃ M, mode6H (selector6H bc6D4.block) = some M ∧ pixelInt6H M bc6D4.block true 15 .r = -0x7C00 :=
  ⟨⟨14, 0x0F, 0, true, 4, ⟨16, 16, 16⟩, ⟨4, 4, 4⟩, layout14⟩, by decide, by decide +kernel⟩

theorem witness_Bc6hEmission : mode6H (selector6H bc6D1.block) = some mode11 := by decide

/-- For Bc6hDecodingInvertsEmission: mode 14, signed, at both ends of its ranges: the anchor at -2^15 and 2^15-1, differences -8 and 7, the fix-up index 7 and every other 15. -/
theorem witness_Bc6hDecodingInverts :
    let M : Mode6H := ⟨14, 0x0F, 0, true, 4, ⟨16, 16, 16⟩, ⟨4, 4, 4⟩, layout14⟩
    let E : EndpointId → IntColor := fun e => if e = .w then ⟨-32768, 32767, 0⟩ else ⟨-32761, 32759, -8⟩
    let idx := 7 :: List.replicate 15 15
    M ∈ modes6H ∧ idx.length = 16 ∧ (∀ i, i < 16 → idx.getD i 0 < if i = 0 ∨ (M.parts = 1 ∧ i = fixup2 0) then 2 ^ (M.ip - 1) else 2 ^ M.ip)
      ∧ (∀ e ∈ endpointIds M, [Comp.r, .g, .b].all (fun c =>
          decide (-2 ^ (comp M.precW c - 1) ≤ comp (E e) c ∧ comp (E e) c < 2 ^ (comp M.precW c - 1))) = true)
      ∧ fits6H M true ⟨0, transform6H M E, idx⟩ = true := by decide +kernel

/-- For Bc6hDecodingInvertsEmission: mode 1, two regions, unsigned, the last shape. -/
theorem witness_Bc6hDecodingInverts_two_regions :
    let M : Mode6H := ⟨1, 0x00, 1, true, 3, ⟨10, 10, 10⟩, ⟨5, 5, 5⟩, layout1⟩
    let E : EndpointId → IntColor := fun e => if e = .w then ⟨1023, 0, 16⟩ else ⟨1007, 15, 31⟩
    let idx := (List.range 16).map fun i => if i = 0 ∨ i = fixup2 31 then 3 else 7
    M ∈ modes6H ∧ (31 : Nat) < 32 ∧ idx.length = 16
      ∧ (∀ i, i < 16 → idx.getD i 0 < if i = 0 ∨ (M.parts = 1 ∧ i = fixup2 31) then 2 ^ (M.ip - 1) else 2 ^ M.ip)
      ∧ (∀ e ∈ endpointIds M, [Comp.r, .g, .b].all (fun c =>
          decide (0 ≤ comp (E e) c ∧ comp (E e) c < 2 ^ comp M.precW c)) = true)
      ∧ fits6H M false ⟨31, transform6H M E, idx⟩ = true := by decide +kernel

theorem witness_EndpointSwap : (3 = 3 ∨ 3 = 4) ∧ 7 < 2 ^ 3 ∧ (4 = 3 ∨ 4 = 4) ∧ 15 < 2 ^ 4 := by decide

theorem witness_Bc7Mode :
    ((withBlk [0x80#8]).block.getLsbD 7 = true ∧ ∀ q, q < 7 → (withBlk [0x80#8]).block.getLsbD q = false)
      ∧ (withBlk [0x01#8]).block.getLsbD 0 = true ∧ (withBlk [0x00#8, 0xFF#8]).blk.read 0 = 0#8 := by decide

theorem witness_Bc7Opaque : ∃ M, mode7 (withBlk [0x08#8]).block = some M ∧ M.num < 4 :=
  ⟨⟨3, 2, 6, 0, 0, ⟨7, 7, 7, 0⟩, 4, ⟨8, 8, 8, 0⟩, 2, 0⟩, by decide, by decide⟩

/-- The default configuration but for its roundings, weights and number of units. -/
def otherConfig : Config := { config with f32toF16 := fun _ => 0#16, weights := ⟨1, 2, 3⟩, maxIter := 1, nUnits := 4 }

/-- For DecodedTileDependsOnBlkOnly, in its eight-byte and its sixteen-byte case, at two configurations. -/
theorem witness_DecodedTile :
    Instr.decBc6hs ∈ decoders ∧ nanTile ≠ State.reset ∧ (∀ k, k < 16 → nanTile.blk.read k = State.reset.blk.read k)
      ∧ Instr.decBc4s ∈ decoders
      ∧ (∀ k, k < 8 → (withBlk (List.replicate 16 0xFF#8)).blk.read k = (withBlk (List.replicate 8 0xFF#8)).blk.read k)
      ∧ otherConfig.blockBytes = config.blockBytes ∧ otherConfig.chanFmt = config.chanFmt ∧ otherConfig.rn32 = config.rn32 := by
  refine ⟨by decide, by decide, fun k _ => rfl, by decide, by decide, rfl, rfl, rfl⟩

/-- For EncodersWriteTheirBytesOnly, EncodersWriteTheEncodedBlock, EncodedEndpointOrderSelectsTheMode, EncBc2StoresTheAlphaNibbles, ChannelIndicesAreNearest, SnormEndpointNeverMinus128, the two contract statements and EncodedBc6hNeverRaisesTheDiagnostic. -/
theorem witness_Encoders :
    (∀ e ∈ encoders true true, State.reset.blk.wf ∧ tileFinite State.reset e.2.2) ∧ athrFinite State.reset
      ∧ (∀ e ∈ encoders true true, ¬ tileFinite nanTile e.2.2) := by
  refine ⟨?_, ?_, ?_⟩
  · unfold tileFinite; decide
  · unfold athrFinite; decide
  · intro e he h
    simp only [encoders, List.mem_cons, List.not_mem_nil, or_false] at he
    rcases he with rfl | rfl | rfl | rfl | rfl | rfl | rfl | rfl | rfl | rfl <;> exact h 0 .r (by decide) (by decide)

theorem witness_EncodersInputsFinite : inputsFinite (.encBc1 true true) [.r, .g, .b, .a] State.reset := by
  refine ⟨?_, fun _ _ => ?_⟩
  · unfold tileFinite; decide
  · unfold athrFinite; decide

/-- For EncodedBytesDependOnPixAndAthrOnly, with `witness_Encoders`: a BC7 encoder at two configurations. -/
theorem witness_EncodedBytesDepend_config :
    (Instr.encBc7, 16, [Chan.r, .g, .b, .a]) ∈ encoders true true ∧ otherConfig.chanFmt = config.chanFmt
      ∧ otherConfig.blockBytes = config.blockBytes ∧ parametersAgree .encBc7 config otherConfig := ⟨by decide, rfl, rfl, rfl⟩

theorem witness_EncodedBytesDepend :
    (withBlk [0xFF#8]).blk.wf ∧ State.reset.blk.wf ∧ (withBlk [0xFF#8]).pix = State.reset.pix
      ∧ (withBlk [0xFF#8]).athr = State.reset.athr := by decide

/-- The reset tile, every alpha 0, under the threshold 1/2 (V-BC1-E4). -/
def allKeyed : State := { State.reset with athr := half }

/-- For AllKeyedTileGivesTheTransparentBlock. -/
theorem witness_AllKeyed :
    0 < val allKeyed.athr ∧ allKeyed.blk.wf ∧ tileFinite allKeyed [.r, .g, .b, .a] ∧ athrFinite allKeyed
      ∧ ∀ i : Fin 16, val (allKeyed.pix[i.val]).a < val allKeyed.athr := by
  refine ⟨by decide +kernel, by decide, ?_, ?_, by decide +kernel⟩
  · unfold tileFinite; decide
  · unfold athrFinite; decide

/-- For EncodedEndpointOrderSelectsTheMode (no pixel below the threshold; an alpha equal to it is not below) and ColourIndicesFollowTheAxis. -/
theorem witness_UnkeyedTile :
    let s : State := { solid half half half half with athr := half }
    s.blk.wf ∧ tileFinite s [.r, .g, .b, .a] ∧ athrFinite s ∧ (∀ i : Fin 16, ¬ val (s.pix[i.val]).a < val s.athr) := by
  refine ⟨by decide, ?_, ?_, by decide +kernel⟩
  · unfold tileFinite; decide
  · unfold athrFinite; decide

/-- For SolidTileRoundTrip, its clause on channels that are 0 or 1. -/
theorem witness_SolidTile_corner :
    let px : Pixel := ⟨one, 0#32, 0x80000000#32, half⟩
    ∀ c ∈ [Chan.r, .g, .b], val (px.get c) = 0 ∨ val (px.get c) = 1 := by decide +kernel

theorem witness_SolidTile :
    let px : Pixel := ⟨one, 0#32, half, one⟩
    let s := solid px.r px.g px.b px.a
    s.blk.wf ∧ tileFinite s [.r, .g, .b, .a] ∧ (∀ i : Fin 16, s.pix[i.val] = px)
      ∧ 0 ≤ val px.r ∧ val px.r ≤ 1 ∧ 0 ≤ val px.g ∧ val px.g ≤ 1 ∧ 0 ≤ val px.b ∧ val px.b ≤ 1 := by
  refine ⟨by decide, ?_, by decide, by decide +kernel, by decide +kernel, by decide +kernel, by decide +kernel,
    by decide +kernel, by decide +kernel⟩
  unfold tileFinite; decide

/-- For EncodedEndpointOrderSelectsTheMode (its keyed clause) and KeyedPixelsGetTheTransparentIndex. -/
theorem witness_PartlyKeyed :
    partlyKeyed.blk.wf ∧ tileFinite partlyKeyed [.r, .g, .b, .a] ∧ athrFinite partlyKeyed
      ∧ (∃ i : Fin 16, val (partlyKeyed.pix[i.val]).a < val partlyKeyed.athr)
      ∧ ∃ i : Fin 16, ¬ val (partlyKeyed.pix[i.val]).a < val partlyKeyed.athr := by
  refine ⟨by decide, ?_, ?_, ⟨0, by decide +kernel⟩, ⟨15, by decide +kernel⟩⟩
  · unfold tileFinite; decide
  · unfold athrFinite; decide

/-- For OpaqueTileGivesTheOpaqueAlphaBlock: an opaque tile, with and without `DA`. -/
theorem witness_OpaqueTile :
    let s := solid 0#32 0#32 0#32 one
    s.blk.wf ∧ tileFinite s [.r, .g, .b, .a]
      ∧ ∀ da, alphaGridRuns s da (fun _ => 1) ∧ leastIs (fun _ => grid255 1) 255 := by
  have h : ∀ i, i < 16 → chanValue (solid 0#32 0#32 0#32 one) .a i = 1 := by decide +kernel
  have hg : grid255 1 = 255 := by decide +kernel
  refine ⟨by decide, by unfold tileFinite; decide, fun da => ⟨fun i hi => ?_, fun _ _ => by rw [hg], ⟨0, by decide, hg⟩⟩⟩
  rw [h i hi]
  cases da <;> simp [received, hg]

/-- For AlphaIndicesFollowTheRamp: a transparent tile is not the opaque one. -/
theorem witness_AlphaIndices :
    let s := solid 0#32 0#32 0#32 0#32
    s.blk.wf ∧ tileFinite s [.r, .g, .b, .a]
      ∧ ∀ da, alphaGridRuns s da (fun _ => 0) ∧ ¬ leastIs (fun _ => grid255 0) 255 := by
  have h : ∀ i, i < 16 → chanValue (solid 0#32 0#32 0#32 0#32) .a i = 0 := by decide +kernel
  have hg : grid255 0 = 0 := by decide +kernel
  refine ⟨by decide, by unfold tileFinite; decide, fun da => ⟨fun i hi => ?_, fun hl => ?_⟩⟩
  · rw [h i hi]
    cases da <;> simp [received, hg]
  · obtain ⟨_, _, _, h0⟩ := hl
    rw [hg] at h0
    cases h0

theorem witness_Dithering : (List.replicate 16 (0 : ℚ)).length = 16 ∧ (List.replicate 16 (⟨0, 0, 0⟩ : Rgb)).length = 16 := by
  simp

theorem witness_Bc6hWitnessFits : (⟨0, 0, 0⟩ : IntColor) ∈ State.reset.intColours config true := by decide +kernel

theorem witness_EncodedBc6h : Instr.encBc6hs ∈ [Instr.encBc6hu, .encBc6hs] ∧ Instr.decBc6hu ∈ [Instr.decBc6hu, .decBc6hs] := by
  decide

theorem witness_Rounding : |(65536 : ℚ)| ≤ 65536 ∧ isFinite32 0x7F7FFFFF#32 = true := by
  refine ⟨by norm_num, by decide⟩

theorem witness_HalfWidening :
    [0x0000#16, 0x8000#16, 0x0001#16, 0x7BFF#16, 0xFBFF#16].all (fun h => h.extractLsb' 10 5 != 0x1F#5) = true := by decide

end Sys2Proof.Tests
end

section
/-! SUPPORT. What a reset step does, and what the registers of the reset state hold (10_state.md R35, 70_reset_and_hazards.md R540). -/

namespace Sys2Proof.Machine

/-- A step whose action is reset: the action is taken from the queue, then every register takes its reset value (R540, R543). -/
theorem step_of_reset {s : State} {rest : List HostAction} (h : s.queue = .reset :: rest) :
    step s = .next (State.doReset { s with queue := rest }) :=
  step_cons h

/-- No byte of `BLK` is listed after reset, so each reads as 0x00 (R35). -/
@[simp] theorem State.reset_blk_read (k : Nat) : State.reset.blk.read k = 0#8 :=
  Memory.read_eq_zero_of_lt (List.forall_mem_nil _)

@[simp] theorem zeroPixel_get (c : Chan) : zeroPixel.get c = 0#32 := by
  cases c <;> rfl

/-- Every channel of the tile is +0.0 after reset (R35). -/
@[simp] theorem State.reset_pix_get (i : Fin 16) (c : Chan) : (State.reset.pix[i.val]).get c = 0#32 := by
  have hpix : State.reset.pix[i.val] = zeroPixel := Vector.getElem_replicate i.isLt
  rw [hpix, zeroPixel_get]

/-- Settles O8: the reset step answers `doReset`, whose registers are those of the reset state; `BLK` and `PIX` are read element by element. -/
theorem resetGivesEveryRegisterItsValue : Obligations.ResetGivesEveryRegisterItsValue := by
  intro s rest hq
  refine ⟨_, step_of_reset hq, ?blk, rfl, ?pix, rfl, rfl, rfl, rfl, rfl, rfl, rfl⟩
  case blk => exact State.reset_blk_read
  case pix => exact State.reset_pix_get

end Sys2Proof.Machine
end

section
/-! SUPPORT. The statements' table of R94 is the decoder's, row for row: the operands the statements take from the number of a word are the decoder's fields of the word (30_encoding.md R90, R94). -/

namespace Sys2Proof

open Claims

/-! ### The fields of a word given by its number (R90) -/

theorem fieldN_ofNat (n : Nat) : fieldN (BitVec.ofNat 32 n) = n / 2 ^ 8 % 16 := by
  simp only [fieldN, BitVec.extractLsb'_toNat, BitVec.toNat_ofNat, Nat.shiftRight_eq_div_pow]
  omega

theorem fieldVAL_ofNat (n : Nat) : fieldVAL (BitVec.ofNat 32 n) = BitVec.ofNat 8 (n / 2 ^ 16) := by
  apply BitVec.eq_of_toNat_eq
  simp only [fieldVAL, BitVec.extractLsb'_toNat, BitVec.toNat_ofNat, Nat.shiftRight_eq_div_pow]
  omega

/-- The bits of a word, read from its number: the one fact behind `VAL[0]` and the flags `DR`, `DA`, `CK`. -/
theorem getLsbD_ofNat_word (n : Nat) {k : Nat} (hk : k < 32) :
    (BitVec.ofNat 32 n).getLsbD k = (n / 2 ^ k % 2 == 1) := by
  rw [BitVec.getLsbD_ofNat, Nat.testBit_eq_decide_div_mod_eq]
  simp [hk, beq_eq_decide]

theorem fieldVAL0_ofNat (n : Nat) : fieldVAL0 (BitVec.ofNat 32 n) = (n / 2 ^ 16 % 2 == 1) :=
  getLsbD_ofNat_word n (by decide)

theorem fieldDR_ofNat (n : Nat) : fieldDR (BitVec.ofNat 32 n) = (n / 2 ^ 24 % 2 == 1) :=
  getLsbD_ofNat_word n (by decide)

theorem fieldDA_ofNat (n : Nat) : fieldDA (BitVec.ofNat 32 n) = (n / 2 ^ 25 % 2 == 1) :=
  getLsbD_ofNat_word n (by decide)

theorem fieldCK_ofNat (n : Nat) : fieldCK (BitVec.ofNat 32 n) = (n / 2 ^ 26 % 2 == 1) :=
  getLsbD_ofNat_word n (by decide)

/-! ### The two tables (R94) -/

/-- A row of the decoder as the statements write rows: its command is made from the word's number. -/
def OpRow.toRow (row : OpRow) : Row := (row.code, row.mask, fun n => row.make (BitVec.ofNat 32 n))

@[simp] theorem selects_toRow (row : OpRow) (w : Word) : selects w row.toRow = row.hit w := rfl

@[simp] theorem OpRow.toRow_make (row : OpRow) (w : Word) : row.toRow.2.2 w.toNat = row.make w := by
  simp [OpRow.toRow]

theorem cursorTable_eq_map : cursorTable = cursorRows.map OpRow.toRow := by
  simp [cursorTable, cursorRows, OpRow.toRow, fieldN_ofNat, fieldVAL_ofNat, fieldVAL0_ofNat]

theorem decodeTable_eq_map : decodeTable = decRows.map OpRow.toRow := rfl

theorem encodeTable_eq_map : encodeTable = encRows.map OpRow.toRow := by
  simp [encodeTable, encRows, OpRow.toRow, fieldDR_ofNat, fieldDA_ofNat, fieldCK_ofNat]

theorem opcodeTable_eq_map : opcodeTable = opRows.map OpRow.toRow := by
  simp only [opcodeTable, opRows, List.map_append, cursorTable_eq_map, decodeTable_eq_map, encodeTable_eq_map]

/-- The rows of the statements' table that a word selects are the rows of the decoder that it selects. -/
theorem filter_selects_opcodeTable (w : Word) :
    opcodeTable.filter (selects w) = (opRows.filter (·.hit w)).map OpRow.toRow := by
  rw [opcodeTable_eq_map, List.filter_map]
  rfl

/-- A word that decodes selects exactly one row of R94, and decodes to that row's command (R91). -/
theorem filter_selects_of_decode {w : Word} {i : Instr} (h : decode w = some i) :
    ∃ row, opcodeTable.filter (selects w) = [row] ∧ row.2.2 w.toNat = i := by
  obtain ⟨row, hmem, hhit, hmake⟩ := row_of_decode h
  refine ⟨row.toRow, ?_, by rw [OpRow.toRow_make, hmake]⟩
  rw [filter_selects_opcodeTable, (filter_hit_of_mem opRows_apart hmem hhit).1]
  rfl

/-- A word that decodes to nothing selects no row of R94 (R91). -/
theorem filter_selects_of_decode_none {w : Word} (h : decode w = none) : opcodeTable.filter (selects w) = [] := by
  have hnone : opRows.filter (·.hit w) = [] := by simpa using decode_eq_none.1 h
  rw [filter_selects_opcodeTable, hnone, List.map_nil]

/-! ### The opcode byte (R95) -/

/-- Every row fixes the whole low byte of the words it selects, to an assigned opcode. -/
theorem opRows_fix_opcode :
    ∀ row ∈ opRows, row.mask &&& 0xFF#32 = 0xFF#32 ∧ (row.code &&& 0xFF#32).toNat ∈ assignedOpcodes := by decide

theorem toNat_and_low_byte (w : Word) : (w &&& 0xFF#32).toNat = w.toNat % 256 :=
  (BitVec.toNat_and w 0xFF#32).trans (Nat.and_two_pow_sub_one_eq_mod w.toNat 8)

/-- A word that selects a row has the low byte of the row's code, an assigned opcode. -/
theorem OpRow.opcode_of_hit {row : OpRow} (hr : row ∈ opRows) {w : Word} (hw : row.hit w = true) :
    w.toNat % 256 ∈ assignedOpcodes := by
  obtain ⟨hmask, hcode⟩ := opRows_fix_opcode row hr
  have hhit : w &&& row.mask = row.code := by simpa [OpRow.hit] using hw
  have hlow : w &&& 0xFF#32 = row.code &&& 0xFF#32 := by
    rw [← hhit, BitVec.and_assoc, hmask]
  rwa [← toNat_and_low_byte, hlow]

/-- A word whose low byte is not an assigned opcode decodes to nothing (R95). -/
theorem decode_eq_none_of_unassigned {w : Word} (h : w.toNat % 256 ∉ assignedOpcodes) : decode w = none := by
  rw [decode_eq_none]
  intro row hr
  by_contra hhit
  exact h (OpRow.opcode_of_hit hr (by simpa using hhit))

end Sys2Proof
end

section
/-! SUPPORT. What issuing a word does on a unit that is not faulted, and the two statements on the opcode map (30_encoding.md R91, R95). -/

namespace Sys2Proof.Machine

open Claims

/-- Fault entry as the statements write it out. -/
theorem State.raise_eq_faultEntered (s : State) (c : Cause) (cmd : Word) :
    s.raise c cmd = faultEntered s (causeCode c) cmd := rfl

/-- A word that decodes is executed (R91, R509). -/
theorem issue_of_decode {s : State} (hs : s.faulted = false) {w : Word} {i : Instr} (h : decode w = some i) :
    issue w s = exec i s := by
  simp [issue, issueBy, hs, h]

/-- A word that decodes to nothing raises `ILLEGAL_CMD` (R91, R95). -/
theorem issue_of_decode_none {s : State} (hs : s.faulted = false) {w : Word} (h : decode w = none) :
    issue w s = .next (faultEntered s 3#8 w) := by
  simp [issue, issueBy, hs, h, State.raise_eq_faultEntered, causeCode]

/-- Settles O3: by what the word decodes to; the one row of the decoder it selects, or none, is the one row of the table. -/
theorem everyWordMatchesOneRowOrIsIllegal : Obligations.EveryWordMatchesOneRowOrIsIllegal := by
  intro w s hs
  cases hdec : decode w with
  | none => exact .inr ⟨filter_selects_of_decode_none hdec, rfl, issue_of_decode_none hs hdec⟩
  | some i =>
    obtain ⟨row, hrow, hmake⟩ := filter_selects_of_decode hdec
    exact .inl ⟨row, hrow, by rw [hmake], by rw [hmake, issue_of_decode hs hdec]⟩

/-- Settles O4: each row fixes the low byte to an assigned opcode, so a word with another low byte decodes to nothing. -/
theorem unassignedOpcodeIsIllegal : Obligations.UnassignedOpcodeIsIllegal := by
  intro w s hs hop
  exact issue_of_decode_none hs (decode_eq_none_of_unassigned hop)

end Sys2Proof.Machine
end

section
/-! SUPPORT. The command words of the bit cursor decode to their commands: a field in its place is cleared by the row's mask and read back by its own reader, and no other reader sees it (30_encoding.md R90, R94). -/

namespace Sys2Proof

/-! ### A field in its place: `x <<< lo`, `x` of `len` bits -/

section Placed

variable {x : Word} {lo len : Nat}

/-- Every bit outside the place is 0. -/
theorem getLsbD_placed_outside (hx : x.toNat < 2 ^ len) {p : Nat} (hp : p < lo ∨ lo + len ≤ p) :
    (x <<< lo).getLsbD p = false := by
  rcases hp with hlo | hhi
  · simp [hlo]
  · have hlt : x.toNat < 2 ^ (p - lo) := hx.trans_le (Nat.pow_le_pow_right (by decide) (by omega))
    have hbit : x.getLsbD (p - lo) = false := Nat.testBit_lt_two_pow hlt
    simp [hbit]

/-- A mask that is 0 in the place clears the field. -/
theorem placed_and_eq_zero (hx : x.toNat < 2 ^ len) {m : Word} (hm : ∀ i < len, m.getLsbD (lo + i) = false) :
    x <<< lo &&& m = 0#32 := by
  apply BitVec.eq_of_getLsbD_eq
  intro p _
  rw [BitVec.getLsbD_and, BitVec.getLsbD_zero]
  by_cases hp : lo ≤ p ∧ p < lo + len
  · have hmask := hm (p - lo) (by omega)
    rw [Nat.add_sub_of_le hp.1] at hmask
    rw [hmask, Bool.and_false]
  · rw [getLsbD_placed_outside hx (by omega), Bool.false_and]

/-- A reader of another place sees 0. -/
theorem extractLsb'_placed_outside (hx : x.toNat < 2 ^ len) {k n : Nat} (hk : k + n ≤ lo ∨ lo + len ≤ k) :
    (x <<< lo).extractLsb' k n = 0#n := by
  apply BitVec.eq_of_getLsbD_eq
  intro i hi
  rw [BitVec.getLsbD_extractLsb', getLsbD_placed_outside hx (by omega), Bool.and_false, BitVec.getLsbD_zero]

/-- The reader of the place reads the field back. -/
theorem extractLsb'_placed (x : Word) (h : lo + len ≤ 32) : (x <<< lo).extractLsb' lo len = x.setWidth len := by
  apply BitVec.eq_of_getLsbD_eq
  intro i hi
  have h32 : lo + i < 32 := by omega
  rw [BitVec.getLsbD_extractLsb', BitVec.getLsbD_shiftLeft, BitVec.getLsbD_setWidth]
  simp [hi, h32]

end Placed

/-! ### The four command words -/

theorem toNat_fieldN_lt {n : Nat} (hn : n < 16) : (BitVec.ofNat 32 n).toNat < 2 ^ 4 := by
  rw [BitVec.toNat_ofNat]
  omega

theorem toNat_fieldVAL_lt (val : Byte) : (val.setWidth 32).toNat < 2 ^ 8 := by
  rw [BitVec.toNat_setWidth]
  omega

/-- `N` is read back from its place above an operation code (R90). -/
theorem fieldN_of_code {code : Word} (hcode : code.extractLsb' 8 4 = 0#4) {n : Nat} (hn : n < 16) :
    fieldN (code ||| BitVec.ofNat 32 n <<< 8) = n := by
  rw [fieldN, BitVec.extractLsb'_or, hcode, extractLsb'_placed _ (by decide), BitVec.zero_or, BitVec.toNat_setWidth,
    BitVec.toNat_ofNat]
  omega

/-- The word of GETBITS selects its row, and the row reads `N` back (R94). -/
theorem decode_getbits {n : Nat} (hn : n < 16) :
    decode (0x00000002#32 ||| BitVec.ofNat 32 n <<< 8) = some (.getbits n) := by
  have hrow : (⟨0x00000002#32, 0xFFFFF0FF#32, fun w => .getbits (fieldN w)⟩ : OpRow) ∈ opRows := by
    simp [opRows, cursorRows]
  have hN : fieldN (0x00000002#32 ||| BitVec.ofNat 32 n <<< 8) = n := fieldN_of_code (by decide) hn
  refine (decode_of_hit hrow ?hit).trans ?made
  case hit =>
    rw [OpRow.hit, beq_iff_eq, BitVec.and_or_distrib_right, placed_and_eq_zero (toNat_fieldN_lt hn) (by decide)]
    decide
  case made => exact congrArg (fun k => some (Instr.getbits k)) hN

/-- The word of SETBITS selects its row, and the row reads `N` and `VAL` back (R94). -/
theorem decode_setbits {n : Nat} (hn : n < 16) (val : Byte) :
    decode (0x00000004#32 ||| BitVec.ofNat 32 n <<< 8 ||| val.setWidth 32 <<< 16) = some (.setbits n val) := by
  have hrow : (⟨0x00000004#32, 0xFF00F0FF#32, fun w => .setbits (fieldN w) (fieldVAL w)⟩ : OpRow) ∈ opRows := by
    simp [opRows, cursorRows]
  have hN : fieldN (0x00000004#32 ||| BitVec.ofNat 32 n <<< 8 ||| val.setWidth 32 <<< 16) = n := by
    rw [fieldN, BitVec.extractLsb'_or, extractLsb'_placed_outside (toNat_fieldVAL_lt val) (by decide), BitVec.or_zero]
    exact fieldN_of_code (by decide) hn
  have hVAL : fieldVAL (0x00000004#32 ||| BitVec.ofNat 32 n <<< 8 ||| val.setWidth 32 <<< 16) = val := by
    rw [fieldVAL, BitVec.extractLsb'_or, BitVec.extractLsb'_or, extractLsb'_placed_outside (toNat_fieldN_lt hn) (by decide),
      extractLsb'_placed _ (by decide)]
    simp
  refine (decode_of_hit hrow ?hit).trans ?made
  case hit =>
    rw [OpRow.hit, beq_iff_eq, BitVec.and_or_distrib_right, BitVec.and_or_distrib_right,
      placed_and_eq_zero (toNat_fieldN_lt hn) (by decide), placed_and_eq_zero (toNat_fieldVAL_lt val) (by decide)]
    decide
  case made => exact congrArg₂ (fun k v => some (Instr.setbits k v)) hN hVAL

end Sys2Proof
end

section
/-! SUPPORT. What each command of the bit cursor does, as one equation in the words of the statements, and its bits: the field at `CUR` read bit by bit and byte by byte, the bytes a write leaves (40_bitcursor.md R120 to R123). -/

namespace Sys2Proof.Machine

open Claims

/-! ### The new `CUR` -/

theorem State.readBits_cur_eq_add (s : State) (n : Nat) : (s.readBits n).cur = s.cur + BitVec.ofNat 8 n := by
  rw [State.readBits_cur, BitVec.ofNat_add, BitVec.ofNat_toNat, BitVec.setWidth_eq]

theorem State.writeBits_cur_eq_add (s : State) (n v : Nat) : (s.writeBits n v).cur = s.cur + BitVec.ofNat 8 n := by
  rw [State.writeBits_cur, BitVec.ofNat_add, BitVec.ofNat_toNat, BitVec.setWidth_eq]

/-! ### One equation per command -/

/-- GETBIT: the overrun check, then a one-bit read (R120). -/
theorem exec_getbit (s : State) : exec .getbit s =
    if 128 < s.cur.toNat + 1 then .next (faultEntered s 1#8 (encode .getbit)) else .next (s.readBits 1) := by
  simp only [exec, execGetbit, State.overruns_iff, State.raise_eq_faultEntered, causeCode]

/-- GETBITS: the width is checked before the range, then `n` bits are read (R121, R509). -/
theorem exec_getbits (n : Nat) (s : State) : exec (.getbits n) s =
    if n = 0 ∨ 8 < n then .next (faultEntered s 2#8 (encode (.getbits n)))
    else if 128 < s.cur.toNat + n then .next (faultEntered s 1#8 (encode (.getbits n))) else .next (s.readBits n) := by
  simp only [exec, execGetbits, badWidth_iff, State.overruns_iff, State.raise_eq_faultEntered, causeCode]

/-- SETBIT: the overrun check, then a one-bit write (R122). -/
theorem exec_setbit (v : Bool) (s : State) : exec (.setbit v) s =
    if 128 < s.cur.toNat + 1 then .next (faultEntered s 1#8 (encode (.setbit v)))
    else .next (s.writeBits 1 v.toNat) := by
  simp only [exec, execSetbit, State.overruns_iff, State.raise_eq_faultEntered, causeCode]

/-- SETBITS: the width is checked before the range, then `n` bits are written (R123, R509). -/
theorem exec_setbits (n : Nat) (val : Byte) (s : State) : exec (.setbits n val) s =
    if n = 0 ∨ 8 < n then .next (faultEntered s 2#8 (encode (.setbits n val)))
    else if 128 < s.cur.toNat + n then .next (faultEntered s 1#8 (encode (.setbits n val)))
    else .next (s.writeBits n val.toNat) := by
  simp only [exec, execSetbits, badWidth_iff, State.overruns_iff, State.raise_eq_faultEntered, causeCode]

/-! ### Reading -/

/-- A field is the sum of its bits (R11). -/
theorem fld_eq_sum_bits (b : Block) (p n : Nat) :
    fld b p n = ((List.range n).map fun i => if b.getLsbD (p + i) then 2 ^ i else 0).sum := by
  induction n with
  | zero => simp [fld, Nat.mod_one]
  | succ n ih =>
    have hbit : (b.toNat >>> p).testBit n = b.getLsbD (p + n) := Nat.testBit_shiftRight ..
    have hlast : 2 ^ n * (b.getLsbD (p + n)).toNat = if b.getLsbD (p + n) then 2 ^ n else 0 := by
      cases b.getLsbD (p + n) <;> simp
    rw [List.range_succ, List.map_append, List.sum_append, ← ih, fld, fld, Nat.mod_pow_succ,
      ← Nat.toNat_testBit, hbit, hlast]
    simp

/-- A field is its low part below its high part (R121). -/
theorem fld_add (b : Block) (p m n : Nat) : fld b p (m + n) = fld b p m + 2 ^ m * fld b (p + m) n := by
  rw [fld, fld, fld, pow_add, Nat.mod_mul, ← Nat.shiftRight_eq_div_pow, ← Nat.shiftRight_add]

/-- A field within the block is the sum of the block bits it covers. -/
theorem State.fld_block_eq_sum (s : State) {p n : Nat} (h : p + n ≤ 128) :
    fld s.block p n = ((List.range n).map fun i => if blkBit s.blk (p + i) then 2 ^ i else 0).sum := by
  rw [fld_eq_sum_bits]
  refine congrArg List.sum (List.map_congr_left fun i hi => ?_)
  have hlt := List.mem_range.1 hi
  rw [State.block_getLsbD s (by omega), blkBit]

/-- A field within byte `k` (R121). -/
theorem State.fld_block_in_byte (s : State) {k sh n : Nat} (hk : k < 16) (h : sh + n ≤ 8) :
    fld s.block (8 * k + sh) n = (s.blk.read k).toNat / 2 ^ sh % 2 ^ n := by
  refine Nat.eq_of_testBit_eq fun i => ?_
  rw [testBit_fld, Nat.testBit_mod_two_pow, Nat.testBit_div_two_pow]
  by_cases hi : i < n
  · rw [State.block_getLsbD s (by omega), show (8 * k + sh + i) / 8 = k by omega,
      show (8 * k + sh + i) % 8 = i + sh by omega, BitVec.getLsbD]
  · simp [hi]

/-- A field that straddles the end of byte `k` is the rest of that byte below the low bits of the next (R121). -/
theorem State.fld_block_straddling (s : State) {k sh n : Nat} (hk : k + 1 < 16) (hsh : sh ≤ 8) (h8 : 8 ≤ sh + n)
    (hn : n ≤ 8) : fld s.block (8 * k + sh) n =
      (s.blk.read k).toNat / 2 ^ sh + (s.blk.read (k + 1)).toNat % 2 ^ (sh + n - 8) * 2 ^ (8 - sh) := by
  have hlow : (s.blk.read k).toNat / 2 ^ sh < 2 ^ (8 - sh) := by
    rw [Nat.div_lt_iff_lt_mul (by positivity), ← pow_add, Nat.sub_add_cancel hsh]
    exact (s.blk.read k).isLt
  have hnext : fld s.block (8 * (k + 1)) (sh + n - 8) = (s.blk.read (k + 1)).toNat % 2 ^ (sh + n - 8) := by
    simpa using s.fld_block_in_byte (sh := 0) hk (show 0 + (sh + n - 8) ≤ 8 by omega)
  calc fld s.block (8 * k + sh) n
      = fld s.block (8 * k + sh) ((8 - sh) + (sh + n - 8)) := by congr 1; omega
    _ = fld s.block (8 * k + sh) (8 - sh) + 2 ^ (8 - sh) * fld s.block (8 * (k + 1)) (sh + n - 8) := by
      rw [fld_add, show 8 * k + sh + (8 - sh) = 8 * (k + 1) by omega]
    _ = _ := by
      rw [s.fld_block_in_byte (by omega) (by omega), Nat.mod_eq_of_lt hlow, hnext, Nat.mul_comm]

/-- A one-bit read gives block bit `CUR`, zero-extended (R120). -/
theorem State.readBits_one_res (s : State) (h : s.cur.toNat < 128) :
    (s.readBits 1).res = (s.blk.read (s.cur.toNat / 8) >>> (s.cur.toNat % 8)) &&& 1#8 := by
  have hfld := s.fld_block_in_byte (k := s.cur.toNat / 8) (sh := s.cur.toNat % 8) (n := 1) (by omega) (by omega)
  rw [Nat.div_add_mod, pow_one, ← Nat.shiftRight_eq_div_pow] at hfld
  apply BitVec.eq_of_toNat_eq
  rw [s.readBits_res_toNat (by decide), hfld, BitVec.toNat_and, BitVec.toNat_ushiftRight]
  exact (Nat.and_one_is_mod _).symm

/-! ### Writing -/

/-- `writeBits` changes no byte that lies apart from the bits it addresses (R122, R123). -/
theorem State.read_writeBits_apart {s : State} (h : s.blk.wf) (n v : Nat) {j : Nat}
    (hj : 8 * j + 8 ≤ s.cur.toNat ∨ s.cur.toNat + n ≤ 8 * j) : (s.writeBits n v).blk.read j = s.blk.read j := by
  apply BitVec.eq_of_getLsbD_eq
  intro i hi
  have hbit := State.writeBits_bit h n v (8 * j + i)
  rwa [if_neg (by omega), show (8 * j + i) / 8 = j by omega, show (8 * j + i) % 8 = i by omega] at hbit

end Sys2Proof.Machine
end

section
/-! SUPPORT. The statements on the bit cursor (40_bitcursor.md R120 to R123). -/

namespace Sys2Proof.Machine

open Claims

/-- Settles O17: by the three cases of `exec_getbits`; the field at `CUR` as the sum of its bits, within one byte, or straddling two. -/
theorem getbitsReadsTheFieldAtCur : Obligations.GetbitsReadsTheFieldAtCur := by
  intro s n hn k sh cmd
  have hcmd : encode (.getbits n) = cmd := by rw [encode, Nat.mod_eq_of_lt hn]
  have hcur : 8 * k + sh = s.cur.toNat := Nat.div_add_mod ..
  have hsh : sh < 8 := Nat.mod_lt _ (by decide)
  rw [exec_getbits, hcmd]
  refine ⟨decode_getbits hn, fun h1 h8 hfit => ?reads, fun hbad => if_pos hbad, fun h1 h8 hover => ?overruns⟩
  case reads =>
    rw [if_neg (by omega), if_neg (by omega)]
    refine ⟨_, rfl, s.readBits_frame n, s.readBits_cur_toNat hfit, ?_, fun hin => ?_, fun hstr => ?_⟩ <;>
      rw [s.readBits_res_toNat h8]
    · exact s.fld_block_eq_sum hfit
    · rw [← hcur, s.fld_block_in_byte (by omega) hin]
    · rw [← hcur, s.fld_block_straddling (by omega) hsh.le hstr.le h8]
  case overruns => rw [if_neg (by omega), if_pos hover]

/-- Settles O18: by the two cases of `exec_setbit`; the bits and the bytes `writeBits` leaves. -/
theorem setbitWritesTheBitAtCur : Obligations.SetbitWritesTheBitAtCur := by
  intro s v cmd
  have hcmd : encode (.setbit v) = cmd := by cases v <;> decide
  rw [exec_setbit, hcmd]
  refine ⟨by cases v <;> decide, fun hwf hcur => ?writes, fun hcur => if_pos (by omega)⟩
  rw [if_neg (by omega)]
  refine ⟨_, rfl, ?frame, fun p _ => ?bits, fun j hj => s.read_writeBits_apart hwf 1 _ (by omega)⟩
  case frame => rw [← s.writeBits_cur_eq_add 1 v.toNat, ← s.writeBits_frame 1 v.toNat]
  case bits =>
    rw [blkBit, s.writeBits_bit hwf, blkBit]
    by_cases hp : p = s.cur.toNat
    · rw [if_pos (by omega), if_pos hp, hp, Nat.sub_self]
      cases v <;> rfl
    · rw [if_neg (by omega), if_neg hp]

/-- Settles O19: by the three cases of `exec_setbits`; the bits and the bytes `writeBits` leaves. -/
theorem setbitsWritesTheFieldAtCur : Obligations.SetbitsWritesTheFieldAtCur := by
  intro s n val hn cmd
  have hcmd : encode (.setbits n val) = cmd := by rw [encode, Nat.mod_eq_of_lt hn]
  rw [exec_setbits, hcmd]
  refine ⟨decode_setbits hn val, fun hwf h1 h8 hfit => ?writes, fun hbad => if_pos hbad, fun h1 h8 hover => ?overruns⟩
  case writes =>
    rw [if_neg (by omega), if_neg (by omega)]
    exact ⟨_, rfl, s.writeBits_frame n _, s.writeBits_cur_toNat _ hfit, fun p _ => s.writeBits_bit hwf n _ p,
      fun j hj => s.read_writeBits_apart hwf n _ (by omega)⟩
  case overruns => rw [if_neg (by omega), if_pos hover]

/-- Settles O16: by the two cases of `exec_getbit`; the one-bit field within the byte at `CUR`. -/
theorem getbitReadsTheBitAtCur : Obligations.GetbitReadsTheBitAtCur := by
  refine ⟨by decide, fun s => ?_⟩
  rw [exec_getbit]
  refine ⟨fun hcur => ?reads, fun hcur => if_pos (by omega)⟩
  case reads =>
    rw [if_neg (by omega), s.readBits_frame 1, s.readBits_one_res hcur, s.readBits_cur_eq_add 1]

end Sys2Proof.Machine
end

section
/-! SUPPORT. A dithering pass by pixels: the error buffer before each pixel, the pixel's running value and its residual. What the buffer holds for a pixel is what the receiving side says of the residuals so far (41_color_axis.md R150 to R152). -/

namespace Sys2Proof.Machine

open Claims

/-! ### A pass, pixel by pixel (R151) -/

section Pixels

variable {α β : Type} (V : VecOps α) (dither : Bool) (Q : Nat → α → β × Option α) (a : Nat → α)

/-- The running value of pixel `i` with input `p`, the error buffer being `E`. -/
def runningFrom (E : List α) (i : Nat) (p : α) : α := if dither then V.add p (E.getD i V.zero) else p

/-- The residual a running value leaves; none where the quantiser names no value. -/
def residual (v : α) (q : Option α) : α := q.elim V.zero (V.sub v)

/-- The error buffer after pixel `i` of running value `v`. -/
def bufferAfter (E : List α) (i : Nat) (v : α) : List α :=
  (Q i v).2.elim E fun w => if dither then diffuse V E i (V.sub v w) else E

/-- The error buffer before pixel `i` of a pass over the inputs `a`. -/
def bufferAt : Nat → List α
  | 0 => List.replicate 16 V.zero
  | i + 1 => bufferAfter V dither Q (bufferAt i) i (runningFrom V dither (bufferAt i) i (a i))

/-- The running value of pixel `i` of a pass over the inputs `a`. -/
def running (i : Nat) : α := runningFrom V dither (bufferAt V dither Q a i) i (a i)

/-- The residual of pixel `i` of a pass over the inputs `a`. -/
def residualAt (i : Nat) : α := residual V (running V dither Q a i) (Q i (running V dither Q a i)).2

theorem bufferAt_succ (i : Nat) : bufferAt V dither Q a (i + 1)
    = bufferAfter V dither Q (bufferAt V dither Q a i) i (running V dither Q a i) := rfl

theorem passFrom_cons (i : Nat) (E : List α) (p : α) (rest : List α) :
    passFrom V dither Q i E (p :: rest) = (Q i (runningFrom V dither E i p)).1
      :: passFrom V dither Q (i + 1) (bufferAfter V dither Q E i (runningFrom V dither E i p)) rest := by
  rw [passFrom, bufferAfter, runningFrom]
  cases (Q i (if dither then V.add p (E.getD i V.zero) else p)).2 <;> rfl

/-- The pixels from `i` on give the quantiser's results for their running values. -/
theorem passFrom_bufferAt (n i : Nat) :
    passFrom V dither Q i (bufferAt V dither Q a i) ((List.range' i n).map a)
      = (List.range' i n).map fun k => (Q k (running V dither Q a k)).1 := by
  induction n generalizing i with
  | zero => rfl
  | succ n ih =>
    rw [List.range'_succ, List.map_cons, List.map_cons, passFrom_cons, ← ih (i + 1), bufferAt_succ]
    rfl

/-- A pass gives the quantiser's result for each running value. -/
theorem pass_eq_map_running {input : List α} (h : input.length = 16) :
    pass V dither Q input
      = (List.range 16).map fun i => (Q i (running V dither Q (fun k => input.getD k V.zero) i)).1 := by
  have hinput : input = (List.range' 0 16).map fun k => input.getD k V.zero :=
    List.ext_getElem (by simp [h]) fun k hk _ => by simp [hk]
  conv_lhs => rw [hinput]
  rw [List.range_eq_range']
  exact passFrom_bufferAt V dither Q _ 16 0

end Pixels

/-! ### The buffer, read in one coordinate (R150) -/

@[simp] theorem addError_if_length {α : Type} (V : VecOps α) (c : Prop) [Decidable c] (E : List α) (j : Nat) (d : α) :
    (if c then addError V E j d else E).length = E.length := by
  rw [addError, apply_ite List.length, List.length_set, ite_self]

@[simp] theorem diffuse_length {α : Type} (V : VecOps α) (E : List α) (i : Nat) (d : α) :
    (diffuse V E i d).length = E.length := by
  simp only [diffuse, addError_if_length]

theorem bufferAt_length {α β : Type} (V : VecOps α) (dither : Bool) (Q : Nat → α → β × Option α) (a : Nat → α)
    (i : Nat) : (bufferAt V dither Q a i).length = 16 := by
  induction i with
  | zero => exact List.length_replicate
  | succ i ih =>
    rw [bufferAt_succ, bufferAfter]
    cases (Q i (running V dither Q a i)).2 with
    | none => exact ih
    | some w => cases dither <;> simp [ih]

/-- `φ` reads one rational coordinate of a vector. -/
structure VecOps.Coordinate {α : Type} (V : VecOps α) (φ : α → ℚ) : Prop where
  zero : φ V.zero = 0
  add : ∀ x y, φ (V.add x y) = φ x + φ y
  scale : ∀ k x, φ (V.scale k x) = k * φ x

theorem scalarOps_coordinate : scalarOps.Coordinate id := ⟨rfl, fun _ _ => rfl, fun _ _ => rfl⟩

theorem rgbOps_coordinate_r : rgbOps.Coordinate Triple.r := ⟨rfl, fun _ _ => rfl, fun _ _ => rfl⟩

theorem rgbOps_coordinate_g : rgbOps.Coordinate Triple.g := ⟨rfl, fun _ _ => rfl, fun _ _ => rfl⟩

theorem rgbOps_coordinate_b : rgbOps.Coordinate Triple.b := ⟨rfl, fun _ _ => rfl, fun _ _ => rfl⟩

/-! ### The receiving side -/

/-- The residuals of the pixels before `i`. -/
def residualsBefore (d : Nat → ℚ) (i : Nat) : Nat → ℚ := fun j => if j < i then d j else 0

theorem residualsBefore_succ (d : Nat → ℚ) (i : Nat) :
    residualsBefore d (i + 1) = residualsBefore d i + Pi.single i (d i) := by
  funext j
  obtain hlt | rfl | hgt := Nat.lt_trichotomy j i
  · simp [residualsBefore, hlt, hlt.ne, Nat.lt_succ_of_lt hlt]
  · simp [residualsBefore]
  · simp [residualsBefore, hgt.ne', Nat.not_lt.2 hgt.le, Nat.not_lt.2 (Nat.succ_le_of_lt hgt)]

@[simp] theorem received_zero (k : Nat) : received 0 k = 0 := by simp [received]

theorem received_add (d e : Nat → ℚ) (k : Nat) : received (d + e) k = received d k + received e k := by
  simp only [received, Pi.add_apply]
  split_ifs <;> ring

/-- A pixel receives from earlier pixels alone. -/
theorem received_residualsBefore (d : Nat → ℚ) (i : Nat) : received (residualsBefore d i) i = received d i := by
  have hearlier {c : Prop} [Decidable c] (w : ℚ) {j : Nat} (hj : c → j < i) :
      (if c then w * residualsBefore d i j else 0) = if c then w * d j else 0 :=
    if_ctx_congr Iff.rfl (fun hc => by rw [residualsBefore, if_pos (hj hc)]) fun _ => rfl
  rw [received, received, hearlier _ (by omega), hearlier _ (by omega), hearlier _ (by omega), hearlier _ (by omega)]

/-- What the residual `x` of pixel `i` alone gives pixel `k`: the shares of the four neighbours that `Diffuse` names. -/
theorem received_single {i k : Nat} (hk : k < 16) (x : ℚ) :
    received (Pi.single i x) k = (if i % 4 ≠ 3 ∧ k = i + 1 then 7 / 16 * x else 0)
      + (if (i < 12 ∧ i % 4 ≠ 0) ∧ k = i + 3 then 3 / 16 * x else 0)
      + (if i < 12 ∧ k = i + 4 then 5 / 16 * x else 0)
      + (if (i < 12 ∧ i % 4 ≠ 3) ∧ k = i + 5 then 1 / 16 * x else 0) := by
  have hshare {p c : Prop} [Decidable p] [Decidable c] (w : ℚ) {j : Nat} (h : (p ∧ j = i) ↔ c) :
      (if p then w * (Pi.single i x : Nat → ℚ) j else 0) = if c then w * x else 0 := by
    simp only [Pi.single_apply, mul_ite, mul_zero, ← ite_and, h]
  rw [received, hshare (c := i % 4 ≠ 3 ∧ k = i + 1) _ (by omega),
    hshare (c := (i < 12 ∧ i % 4 ≠ 3) ∧ k = i + 5) _ (by omega),
    hshare (c := i < 12 ∧ k = i + 4) _ (by omega),
    hshare (c := (i < 12 ∧ i % 4 ≠ 0) ∧ k = i + 3) _ (by omega)]
  ring

section Coordinates

variable {α : Type} {V : VecOps α} {φ : α → ℚ} (hφ : V.Coordinate φ)

include hφ

/-- A share added at pixel `j` on a condition `c`, as one line of `Diffuse` does. -/
theorem VecOps.Coordinate.apply_addError_if (c : Prop) [Decidable c] (E : List α) {j : Nat} (hj : c → j < E.length)
    (w : ℚ) (d : α) (k : Nat) :
    φ ((if c then addError V E j (V.scale w d) else E).getD k V.zero)
      = φ (E.getD k V.zero) + if c ∧ k = j then w * φ d else 0 := by
  by_cases hc : c
  · obtain rfl | hkj := eq_or_ne k j
    · simp [hc, addError, hj hc, hφ.add, hφ.scale]
    · simp [hc, addError, hkj, hkj.symm]
  · simp [hc]

/-- `Diffuse` seen from the pixel that receives. -/
theorem VecOps.Coordinate.apply_diffuse {E : List α} (hE : E.length = 16) {i k : Nat} (hi : i < 16) (hk : k < 16) (d : α) :
    φ ((diffuse V E i d).getD k V.zero) = φ (E.getD k V.zero) + received (Pi.single i (φ d)) k := by
  simp only [diffuse]
  rw [hφ.apply_addError_if _ _ (by simp only [addError_if_length, hE]; omega),
    hφ.apply_addError_if _ _ (by simp only [addError_if_length, hE]; omega),
    hφ.apply_addError_if _ _ (by simp only [addError_if_length, hE]; omega),
    hφ.apply_addError_if _ _ (by omega), received_single hk]
  ring

variable {β : Type} (Q : Nat → α → β × Option α) (a : Nat → α)

/-- After a pixel the buffer holds what it held and what the pixel's residual gives. -/
theorem VecOps.Coordinate.apply_bufferAfter {E : List α} (hE : E.length = 16) {i k : Nat} (hi : i < 16) (hk : k < 16) (v : α) :
    φ ((bufferAfter V true Q E i v).getD k V.zero)
      = φ (E.getD k V.zero) + received (Pi.single i (φ (residual V v (Q i v).2))) k := by
  rw [bufferAfter]
  cases (Q i v).2 with
  | none => simp [residual, hφ.zero]
  | some w => exact hφ.apply_diffuse hE hi hk _

/-- The invariant of a dithered pass: the buffer holds for every pixel what it has received so far. -/
theorem VecOps.Coordinate.apply_bufferAt {i k : Nat} (hi : i ≤ 16) (hk : k < 16) :
    φ ((bufferAt V true Q a i).getD k V.zero)
      = received (residualsBefore (fun j => φ (residualAt V true Q a j)) i) k := by
  induction i with
  | zero =>
    have hnone : residualsBefore (fun j => φ (residualAt V true Q a j)) 0 = 0 := rfl
    rw [hnone, received_zero, bufferAt, List.getD_replicate _ hk, hφ.zero]
  | succ i ih =>
    rw [bufferAt_succ, hφ.apply_bufferAfter Q (bufferAt_length ..) hi hk, ih (Nat.le_of_succ_le hi), residualsBefore_succ,
      received_add]
    rfl

/-- In every coordinate a pass runs as R150 says, seen from the pixel that receives. -/
theorem VecOps.Coordinate.runsWith_running (dither : Bool) :
    runsWith dither (fun i => φ (a i)) (fun i => φ (running V dither Q a i))
      (fun i => φ (residualAt V dither Q a i)) := by
  intro i hi
  cases dither with
  | false => exact (add_zero _).symm
  | true =>
    calc φ (running V true Q a i)
      _ = φ (a i) + φ ((bufferAt V true Q a i).getD i V.zero) := hφ.add _ _
      _ = φ (a i) + received (fun j => φ (residualAt V true Q a j)) i := by
        rw [hφ.apply_bufferAt Q a hi.le hi, received_residualsBefore]

end Coordinates

/-- Settles O44: the running values and residuals of the pass, in the one coordinate of a scalar and in the three of a colour. -/
theorem ditheringGathersTheNeighboursResiduals : Obligations.DitheringGathersTheNeighboursResiduals := by
  intro β dither
  refine ⟨fun Q input h => ?scalars, fun Q input h => ?colours⟩
  case scalars =>
    refine ⟨running scalarOps dither Q _, residualAt scalarOps dither Q _, scalarOps_coordinate.runsWith_running Q _ dither,
      fun i _ => ?_, pass_eq_map_running scalarOps dither Q h⟩
    rw [residualAt]
    cases (Q i (running scalarOps dither Q _ i)).2 <;> rfl
  case colours =>
    refine ⟨running rgbOps dither Q _, residualAt rgbOps dither Q _,
      ⟨rgbOps_coordinate_r.runsWith_running Q _ dither, rgbOps_coordinate_g.runsWith_running Q _ dither,
        rgbOps_coordinate_b.runsWith_running Q _ dither⟩,
      fun i _ => ?_, pass_eq_map_running rgbOps dither Q h⟩
    rw [residualAt]
    cases (Q i (running rgbOps dither Q _ i)).2 <;> rfl

end Sys2Proof.Machine
end

section
/-! SUPPORT. What a decoder reads, in the words of the statements: the fields of a colour block, of the direct alpha and of a ramp block, and the pixels a decode command stores (20_memory.md R62, 41_color_axis.md R141, 42_bc123_decode.md R190 to R199). -/

namespace Sys2Proof.Machine

open Claims

/-! ### Fields -/

/-- A field that lies in the bytes of the format reads from the format's block as from `BLK` (R21). -/
theorem State.fld_formatBlock (s : State) {cfg : Config} {fmt : Format} {p n : Nat}
    (h : p + n ≤ 8 * (cfg.blockBytes fmt).val) : fld (s.formatBlock cfg fmt) p n = fld s.block p n := by
  have hlen := (cfg.blockBytes fmt).isLt
  refine Nat.eq_of_testBit_eq fun i => ?_
  rw [testBit_fld, testBit_fld]
  by_cases hi : i < n
  · rw [State.block_getLsbD s (by omega), State.formatBlock, BitVec.getLsbD_ofNat,
      Memory.testBit_readBytes s.blk (n := (cfg.blockBytes fmt).val) (by omega)]
    simp [show p + i < 128 by omega]
  · simp [hi]

/-- A field inside a wider field. -/
theorem fld_within (b : Block) (p : Nat) {q n m : Nat} (h : q + n ≤ m) :
    fld b (p + q) n = fld b p m / 2 ^ q % 2 ^ n := by
  refine Nat.eq_of_testBit_eq fun i => ?_
  rw [testBit_fld, Nat.testBit_mod_two_pow, Nat.testBit_div_two_pow, testBit_fld]
  by_cases hi : i < n
  · simp [hi, show i + q < m by omega, show p + q + i = p + (i + q) by omega]
  · simp [hi]

/-- A 16-bit field at byte `o` is the little-endian word there (R66). -/
theorem State.fld_word16 (s : State) {o : Nat} (ho : o + 2 ≤ 16) : fld s.block (8 * o) 16 = word16 s o := by
  rw [s.fld_bytes (n := 2) ho]
  simp [Memory.readBytes, word16]

/-- An 8-bit field at byte `o` is that byte (R66). -/
theorem State.fld_byte (s : State) {o : Nat} (ho : o < 16) : fld s.block (8 * o) 8 = (s.blk.read o).toNat := by
  rw [s.fld_bytes (n := 1) ho]
  simp [Memory.readBytes]

/-! ### The colour block (R190, R195) -/

theorem State.colour0_block (s : State) {o : Nat} (ho : o + 8 ≤ 16) : colour0 s.block (8 * o) = word16 s o :=
  s.fld_word16 (by omega)

theorem State.colour1_block (s : State) {o : Nat} (ho : o + 8 ≤ 16) : colour1 s.block (8 * o) = word16 s (o + 2) :=
  s.fld_word16 (o := o + 2) (by omega)

/-- The four indices of a row share one byte of the bitmap. -/
theorem State.colourIndex_block (s : State) {o i : Nat} (ho : o + 8 ≤ 16) (hi : i < 16) :
    colourIndex s.block (8 * o) i = bitmapIndex s o i := by
  rw [colourIndex, show 8 * o + 32 + 2 * i = 8 * (o + 4 + i / 4) + 2 * (i % 4) by omega,
    s.fld_block_in_byte (by omega) (by omega), pow_mul]
  rfl

theorem word16_lt (s : State) (o : Nat) : word16 s o < 65536 := by
  have hlow := (s.blk.read o).isLt
  have hhigh := (s.blk.read (o + 1)).isLt
  rw [word16]
  omega

theorem bitmapIndex_lt (s : State) (o i : Nat) : bitmapIndex s o i < 4 := Nat.mod_lt _ (by decide)

/-! ### The palettes (R191 to R194) -/

/-- The red field of a 16-bit word is all of its high part. -/
theorem dec565_of_lt {w : Nat} (h : w < 65536) :
    dec565 w = ⟨(w / 2048 : Nat) / 31, (w / 32 % 64 : Nat) / 63, (w % 32 : Nat) / 31⟩ := by
  rw [dec565, Nat.mod_eq_of_lt (show w / 2048 < 32 by omega)]

/-- Entry 2 of the three-colour palette, componentwise (R193). -/
theorem lerp_half (p q : Rgb) : lerp p q (1 / 2) = ⟨(p.r + q.r) / 2, (p.g + q.g) / 2, (p.b + q.b) / 2⟩ := by
  simp only [lerp, rgbOps, Triple.map, Triple.map₂, Triple.mk.injEq]
  exact ⟨by ring, by ring, by ring⟩

/-- Entry 2 of the four-colour palette, componentwise (R192). -/
theorem lerp_one_third (p q : Rgb) :
    lerp p q (1 / 3) = ⟨(2 * p.r + q.r) / 3, (2 * p.g + q.g) / 3, (2 * p.b + q.b) / 3⟩ := by
  simp only [lerp, rgbOps, Triple.map, Triple.map₂, Triple.mk.injEq]
  exact ⟨by ring, by ring, by ring⟩

/-- Entry 3 of the four-colour palette, componentwise (R192). -/
theorem lerp_two_thirds (p q : Rgb) :
    lerp p q (2 / 3) = ⟨(p.r + 2 * q.r) / 3, (p.g + 2 * q.g) / 3, (p.b + 2 * q.b) / 3⟩ := by
  simp only [lerp, rgbOps, Triple.map, Triple.map₂, Triple.mk.injEq]
  exact ⟨by ring, by ring, by ring⟩

section Palettes
variable {c0 c1 k : Nat}

theorem entry_palette4 (h0 : c0 < 65536) (h1 : c1 < 65536) (hk : k < 4) :
    entry (palette4 (dec565 c0) (dec565 c1)) k = paletteColour false c0 c1 k := by
  rw [palette4, lerp_one_third, lerp_two_thirds, dec565_of_lt h0, dec565_of_lt h1]
  interval_cases k <;> rfl

theorem entry_palette3 (h0 : c0 < 65536) (h1 : c1 < 65536) (hk : k < 4) :
    entry (palette3 (dec565 c0) (dec565 c1)) k = paletteColour true c0 c1 k := by
  rw [palette3, lerp_half, dec565_of_lt h0, dec565_of_lt h1]
  interval_cases k <;> rfl

theorem entry_bc1Palette (h0 : c0 < 65536) (h1 : c1 < 65536) (hk : k < 4) :
    entry (bc1Palette c0 c1) k = paletteColour (decide (c0 ≤ c1)) c0 c1 k := by
  by_cases h : c0 ≤ c1
  · rw [bc1Palette, if_pos h, entry_palette3 h0 h1 hk, decide_eq_true h]
  · rw [bc1Palette, if_neg h, entry_palette4 h0 h1 hk, decide_eq_false h]

end Palettes

/-! ### The ramp block (R199, R200, R280) -/

/-- The 3-bit index of pixel `i` lies in the 48 bits of bytes `o+2 .. o+7`. -/
theorem State.fld_rampIndex (s : State) {o i : Nat} (ho : o + 8 ≤ 16) (hi : i < 16) :
    fld s.block (8 * o + 16 + 3 * i) 3 = rampIndex s o i := by
  rw [fld_within s.block (8 * o + 16) (m := 8 * 6) (by omega), show 8 * o + 16 = 8 * (o + 2) by omega,
    s.fld_bytes (by omega), pow_mul, rampIndex]
  simp only [Memory.readBytes]
  congr 2
  ring

theorem rampIndex_lt (s : State) (o i : Nat) : rampIndex s o i < 8 := Nat.mod_lt _ (by decide)

theorem ramp_getD (E0 E1 : ℚ) (full : Bool) (lo hi : ℚ) {k : Nat} (hk : k < 8) :
    (ramp E0 E1 full lo hi).getD k 0 = rampEntry E0 E1 full lo hi k := by
  cases full with
  | false => interval_cases k <;> norm_num [ramp, rampEntry]
  | true => interval_cases k <;> norm_num [ramp, rampEntry]

/-! ### The pixels a decode command stores -/

/-- `decodeTo` stores in every pixel its colour, each channel rounded (R141). -/
theorem pixelHolds_decodeTo (s : State) (px : Nat → Rgba) (i : Fin 16) :
    pixelHolds (decodeTo config s px) i (px i) := by
  rw [pixelHolds, decodeTo_get]
  exact ⟨rfl, rfl, rfl, rfl⟩

end Sys2Proof.Machine
end

section
/-! SUPPORT. The pixels of BC1, BC2 and BC3 in the words of the statements, and the statements on the three decoders (42_bc123_decode.md R196 to R200). -/

namespace Sys2Proof.Machine

open Claims

theorem bc1Pixel_formatBlock (s : State) (i : Fin 16) : bc1Pixel (s.formatBlock config .bc1) i =
    paletteColour (decide (word16 s 0 ≤ word16 s 2)) (word16 s 0) (word16 s 2) (bitmapIndex s 0 i) := by
  have hfld {p n : Nat} (h : p + n ≤ 64) : fld (s.formatBlock config .bc1) p n = fld s.block p n := s.fld_formatBlock h
  have hc0 : colour0 (s.formatBlock config .bc1) 0 = word16 s 0 := (hfld (by decide)).trans (s.colour0_block (o := 0) (by decide))
  have hc1 : colour1 (s.formatBlock config .bc1) 0 = word16 s 2 := (hfld (by decide)).trans (s.colour1_block (o := 0) (by decide))
  have hk : colourIndex (s.formatBlock config .bc1) 0 i = bitmapIndex s 0 i :=
    (hfld (by omega)).trans (s.colourIndex_block (o := 0) (by decide) i.isLt)
  rw [bc1Pixel, hc0, hc1, hk, entry_bc1Palette (word16_lt s 0) (word16_lt s 2) (bitmapIndex_lt s 0 i)]

theorem bc23Colour_block (s : State) (i : Fin 16) :
    bc23Colour s.block i = paletteColour false (word16 s 8) (word16 s 10) (bitmapIndex s 8 i) := by
  rw [bc23Colour, s.colour0_block (o := 8) (by decide), s.colour1_block (o := 8) (by decide),
    s.colourIndex_block (o := 8) (by decide) i.isLt,
    entry_palette4 (word16_lt s 8) (word16_lt s 10) (bitmapIndex_lt s 8 i)]

/-- Two alpha nibbles share a byte (R198). -/
theorem State.fld_nibble (s : State) (i : Fin 16) :
    fld s.block (4 * i) 4 = (s.blk.read (i / 2)).toNat / 16 ^ (i.val % 2) % 16 := by
  rw [show 4 * i.val = 8 * (i.val / 2) + 4 * (i.val % 2) by omega, s.fld_block_in_byte (by omega) (by omega), pow_mul]
  rfl

theorem bc3Alpha_block (s : State) (i : Fin 16) : bc3Alpha s.block i = unormValue s 0 i := by
  have h0 : fld s.block 0 8 = (s.blk.read 0).toNat := s.fld_byte (o := 0) (by decide)
  have h1 : fld s.block 8 8 = (s.blk.read 1).toNat := s.fld_byte (o := 1) (by decide)
  have hk : fld s.block (16 + 3 * i) 3 = rampIndex s 0 i := s.fld_rampIndex (o := 0) (by decide) i.isLt
  rw [bc3Alpha, h0, h1, hk, ramp_getD _ _ _ _ _ (rampIndex_lt s 0 i), unormValue]

/-- Settles O25: by `bc1Pixel_formatBlock`, the palette entry of the pixel's index. -/
theorem decBc1SelectsFromThePalette : Obligations.DecBc1SelectsFromThePalette := by
  refine ⟨by decide, fun s => ⟨_, rfl, decodeTo_frame .., fun i => ?_⟩⟩
  rw [← bc1Pixel_formatBlock]
  exact pixelHolds_decodeTo s _ i

/-- Settles O26: the format's block is all of `BLK`; the colour by `bc23Colour_block`, the alpha by `State.fld_nibble`. -/
theorem decBc2ReadsDirectAlpha : Obligations.DecBc2ReadsDirectAlpha := by
  refine ⟨by decide, fun s => ⟨_, rfl, decodeTo_frame .., fun i => ?_⟩⟩
  rw [← bc23Colour_block, ← s.fld_nibble]
  exact pixelHolds_decodeTo s (bc2Pixel s.block) i

/-- Settles O27: the format's block is all of `BLK`; the colour by `bc23Colour_block`, the alpha by `bc3Alpha_block`. -/
theorem decBc3ReadsTheAlphaRamp : Obligations.DecBc3ReadsTheAlphaRamp := by
  refine ⟨by decide, fun s => ⟨_, rfl, decodeTo_frame .., fun i => ?_⟩⟩
  rw [← bc23Colour_block, ← bc3Alpha_block]
  exact pixelHolds_decodeTo s (bc3Pixel s.block) i

end Sys2Proof.Machine
end

section
/-! SUPPORT. The fields of a block an encoder writes: what `BLK` reads back of the number written, of its lower half and of a run of equal fields (20_memory.md R62, R65). -/

namespace Sys2Proof.Machine

/-- A field in the bytes an encoder writes is that field of the number written. -/
theorem State.fld_writeFormat {s : State} (h : s.blk.wf) (cfg : Config) (fmt : Format) (v : Nat) {p n : Nat}
    (hp : p + n ≤ 8 * (cfg.blockBytes fmt).val) : fld (s.writeFormat cfg fmt v).block p n = v / 2 ^ p % 2 ^ n := by
  have hbits : 256 ^ (cfg.blockBytes fmt).val = 2 ^ (8 * (cfg.blockBytes fmt).val) := (pow_mul 2 8 _).symm
  rw [← State.fld_formatBlock _ hp, State.formatBlock, State.readBytes_writeFormat h, hbits]
  refine Nat.eq_of_testBit_eq fun i => ?_
  rw [testBit_fld, BitVec.getLsbD_ofNat, Nat.testBit_mod_two_pow, Nat.testBit_mod_two_pow, Nat.testBit_div_two_pow,
    Nat.add_comm p i]
  by_cases hi : i < n
  · have hlen := (cfg.blockBytes fmt).isLt
    simp [hi, show i + p < 128 by omega, show i + p < 8 * (cfg.blockBytes fmt).val by omega]
  · simp [hi]

/-- A field of the lower half of a block. -/
theorem halves_field_low (low high : Nat) {p n : Nat} (hp : p + n ≤ 64) :
    halves low high / 2 ^ p % 2 ^ n = low / 2 ^ p % 2 ^ n := by
  refine Nat.eq_of_testBit_eq fun i => ?_
  rw [Nat.testBit_mod_two_pow, Nat.testBit_mod_two_pow, Nat.testBit_div_two_pow, Nat.testBit_div_two_pow]
  by_cases hi : i < n
  · rw [halves, packFields_testBit_cons, if_pos (show i + p < 64 by omega)]
  · simp [hi]

/-- Field `i` of a list of fields that are all `w` bits wide. -/
theorem packFields_equal_widths (l : List Nat) (w i : Nat) :
    packFields (l.map (·, w)) / 2 ^ (w * i) % 2 ^ w = l.getD i 0 % 2 ^ w := by
  induction l generalizing i with
  | nil => simp [packFields]
  | cons x xs ih =>
    rw [List.map_cons, packFields]
    cases i with
    | zero => simp
    | succ i =>
      have hx : x % 2 ^ w < 2 ^ w := Nat.mod_lt _ (by positivity)
      rw [Nat.mul_succ, Nat.add_comm (w * i), pow_add, ← Nat.div_div_eq_div_mul, Nat.add_mul_div_left _ _ (by positivity),
        Nat.div_eq_of_lt hx, Nat.zero_add, ih, List.getD_cons_succ]

end Sys2Proof.Machine
end

section
/-! SUPPORT. The alpha nibbles of ENC.BC2: the running values and residuals of the alpha pass, and the nibble of each pixel in the block written (43_bc123_encode.md R240, R241). -/

namespace Sys2Proof.Machine

open Claims

/-! ### The quantiser (R241) -/

/-- The 4-bit quantiser in the words of the statement. -/
theorem quantAlpha4_eq (v : ℚ) : (quantAlpha4 v : Int) = min (max ⌊v * 15 + 1 / 2⌋ 0) 15 :=
  Int.toNat_of_nonneg (le_min (le_max_right _ _) (by decide))

/-- A quantised alpha fits its four bits. -/
theorem quantAlpha4_lt (v : ℚ) : quantAlpha4 v < 2 ^ 4 := by
  have hle : (quantAlpha4 v : Int) ≤ 15 := (quantAlpha4_eq v).trans_le (min_le_right _ _)
  omega

/-- The quantiser as the alpha pass takes it, with the value its result stands for. -/
def alpha4Quantiser (_ : Nat) (v : ℚ) : Nat × Option ℚ := (quantAlpha4 v, some ((quantAlpha4 v : ℚ) / 15))

/-! ### The pass (R151, R241) -/

/-- The running value of pixel `i` in the alpha pass over the tile `P`. -/
def alpha4Running (P : List Rgba) (da : Bool) : Nat → ℚ :=
  running scalarOps da alpha4Quantiser fun k => (P.map (·.a)).getD k 0

/-- Nibble `i` of the encoded alpha is the quantised running value of pixel `i`. -/
theorem encAlpha4_nibble {P : List Rgba} (hP : P.length = 16) (da : Bool) {i : Nat} (hi : i < 16) :
    encAlpha4 P da / 2 ^ (4 * i) % 2 ^ 4 = quantAlpha4 (alpha4Running P da i) := by
  have hpass : pass scalarOps da alpha4Quantiser (P.map (·.a))
      = (List.range 16).map fun k => quantAlpha4 (alpha4Running P da k) :=
    pass_eq_map_running scalarOps da alpha4Quantiser ((List.length_map _).trans hP)
  have henc : encAlpha4 P da = packFields ((pass scalarOps da alpha4Quantiser (P.map (·.a))).map (·, 4)) := rfl
  rw [henc, packFields_equal_widths, hpass, List.getD_eq_getElem _ _ (by simpa using hi), List.getElem_map,
    List.getElem_range, Nat.mod_eq_of_lt (quantAlpha4_lt _)]

/-- An encoder's alpha of pixel `i` is the value of that channel in `PIX` (R140). -/
theorem State.colours_alpha (s : State) {i : Nat} (hi : i < 16) :
    ((s.colours config).map (·.a)).getD i 0 = chanValue s .a i := by
  have htile : i < s.tile.length := s.tile_length ▸ hi
  rw [chanValue, State.colours, List.map_map, List.getD_eq_getElem _ _ (by simpa using htile), List.getElem_map,
    List.getD_eq_getElem _ _ htile]
  rfl

/-- The alpha pass over the tile runs as R150 says, its residuals those of the clamped quantiser. -/
theorem runsWith_alpha4Running (s : State) (da : Bool) :
    runsWith da (chanValue s .a) (alpha4Running (s.colours config) da) (fun j =>
      alpha4Running (s.colours config) da j
        - (min (max ⌊alpha4Running (s.colours config) da j * 15 + 1 / 2⌋ 0) 15 : Int) / 15) := by
  intro i hi
  simp only [← quantAlpha4_eq, Int.cast_natCast, ← s.colours_alpha hi]
  exact scalarOps_coordinate.runsWith_running alpha4Quantiser _ da i hi

/-! ### The command (R240) -/

/-- ENC.BC2 of a finite tile writes the alpha nibbles below the colour block. -/
theorem exec_encBc2 {s : State} (h : tileFinite s [.r, .g, .b, .a]) (dr da : Bool) : exec (.encBc2 dr da) s =
    .next (s.writeFormat config .bc2
      (halves (encAlpha4 (s.colours config) da) (encColour config (s.colours config) dr false 0))) :=
  encodeOr_finite _ _ _ ((s.finiteChans_config_iff _).2 h)

/-- Settles O50: the running values are those of the alpha pass; nibble `i` is read back from the lower half of the block written, by `encAlpha4_nibble`. -/
theorem encBc2StoresTheAlphaNibbles : Obligations.EncBc2StoresTheAlphaNibbles := by
  intro s dr da hwf hfin
  refine ⟨_, _, exec_encBc2 hfin dr da, runsWith_alpha4Running s da, fun i => ?_⟩
  rw [← quantAlpha4_eq, ← State.fld_nibble, Nat.cast_inj,
    State.fld_writeFormat hwf config .bc2 _ (show 4 * i.val + 4 ≤ 128 by omega), halves_field_low _ _ (by omega),
    encAlpha4_nibble (s.colours_length config) da i.isLt]

end Sys2Proof.Machine
end

section
/-! SUPPORT. What the decoders of BC4 and BC5 read from a channel block, in the words of the statements, and the statements on the two pairs of decoders (44_bc45.md R280 to R287). -/

namespace Sys2Proof.Machine

open Claims

/-! ### The stored endpoints (R281, R282) -/

@[simp] theorem storedInt_unorm (n : Nat) : storedInt false n = n := by simp [storedInt]

/-- The SNORM endpoint is the two's complement reading of its byte (R282). -/
@[simp] theorem storedInt_snorm (b : Byte) : storedInt true b.toNat = b.toInt := by
  rw [BitVec.toInt_eq_toNat_cond, storedInt]
  by_cases h : 2 * b.toNat < 2 ^ 8
  · rw [if_pos h, if_neg (by omega)]
  · rw [if_neg h, if_pos ⟨rfl, by omega⟩]
    rfl

/-! ### The decode table (R283) -/

theorem channelRamp_length (signed : Bool) (b0 b1 : Nat) : (channelRamp signed b0 b1).length = 8 := by
  rw [channelRamp, ramp]
  split <;> rfl

theorem channelRamp_getD_unorm (s : State) (o i : Nat) :
    (channelRamp false (s.blk.read o).toNat (s.blk.read (o + 1)).toNat).getD (rampIndex s o i) 0 = unormValue s o i := by
  rw [channelRamp, ramp_getD _ _ _ _ _ (rampIndex_lt s o i), unormValue]
  simp [endpointValue, formatLo]

theorem channelRamp_getD_snorm (s : State) (o i : Nat) :
    (channelRamp true (s.blk.read o).toNat (s.blk.read (o + 1)).toNat).getD (rampIndex s o i) 0 = snormValue s o i := by
  rw [channelRamp, ramp_getD _ _ _ _ _ (rampIndex_lt s o i), snormValue]
  simp [endpointValue, formatLo]

/-! ### The value of a pixel (R280) -/

/-- A decoder reads the endpoints and the index of a channel block from the bytes of its format. -/
theorem State.channelValue_formatBlock (s : State) (signed : Bool) {fmt : Format} {o i : Nat}
    (ho : o + 8 ≤ (config.blockBytes fmt).val) (hi : i < 16) :
    channelValue signed (s.formatBlock config fmt) (8 * o) i
      = (channelRamp signed (s.blk.read o).toNat (s.blk.read (o + 1)).toNat).getD (rampIndex s o i) 0 := by
  have h16 : o + 8 ≤ 16 := by omega
  rw [channelValue, s.fld_formatBlock (by omega), s.fld_formatBlock (by omega), s.fld_formatBlock (by omega),
    s.fld_byte (by omega), show 8 * o + 8 = 8 * (o + 1) by omega, s.fld_byte (by omega), s.fld_rampIndex h16 hi]

theorem State.channelValue_unorm (s : State) {fmt : Format} {o : Nat} (ho : o + 8 ≤ (config.blockBytes fmt).val) (i : Fin 16) :
    channelValue false (s.formatBlock config fmt) (8 * o) i = unormValue s o i :=
  (s.channelValue_formatBlock false ho i.isLt).trans (channelRamp_getD_unorm s o i)

theorem State.channelValue_snorm (s : State) {fmt : Format} {o : Nat} (ho : o + 8 ≤ (config.blockBytes fmt).val) (i : Fin 16) :
    channelValue true (s.formatBlock config fmt) (8 * o) i = snormValue s o i :=
  (s.channelValue_formatBlock true ho i.isLt).trans (channelRamp_getD_snorm s o i)

/-! ### The commands -/

/-- Settles O28: in each format the red that `bc4Pixel` gives is the value of the channel block at byte 0. -/
theorem decBc4WritesRedAndConstants : Obligations.DecBc4WritesRedAndConstants := by
  refine ⟨by decide, by decide, fun s => ⟨⟨_, rfl, decodeTo_frame .., fun i => ?unorm⟩, _, rfl, decodeTo_frame .., fun i => ?snorm⟩⟩
  case unorm =>
    rw [← s.channelValue_unorm (fmt := .bc4u) (by decide)]
    exact pixelHolds_decodeTo s (bc4Pixel false (s.formatBlock config .bc4u)) i
  case snorm =>
    rw [← s.channelValue_snorm (fmt := .bc4s) (by decide)]
    exact pixelHolds_decodeTo s (bc4Pixel true (s.formatBlock config .bc4s)) i

/-- Settles O29: in each format the red and green that `bc5Pixel` gives are the values of the channel blocks at bytes 0 and 8. -/
theorem decBc5WritesRedAndGreen : Obligations.DecBc5WritesRedAndGreen := by
  refine ⟨by decide, by decide, fun s => ⟨⟨_, rfl, decodeTo_frame .., fun i => ?unorm⟩, _, rfl, decodeTo_frame .., fun i => ?snorm⟩⟩
  case unorm =>
    rw [← s.channelValue_unorm (fmt := .bc5u) (o := 0) (by decide), ← s.channelValue_unorm (fmt := .bc5u) (o := 8) (by decide)]
    exact pixelHolds_decodeTo s (bc5Pixel false (s.formatBlock config .bc5u)) i
  case snorm =>
    rw [← s.channelValue_snorm (fmt := .bc5s) (o := 0) (by decide), ← s.channelValue_snorm (fmt := .bc5s) (o := 8) (by decide)]
    exact pixelHolds_decodeTo s (bc5Pixel true (s.formatBlock config .bc5s)) i

end Sys2Proof.Machine
end

section
/-! SUPPORT. The scan for the smallest index of the least value: what it has found after each value (44_bc45.md R293). -/

namespace Sys2Proof.Machine

/-- Of the first `n` values of `f`, the one at `m` is least, and `m` is the smallest such index. -/
def firstLeast (f : Nat → ℚ) (n m : Nat) : Prop := m < n ∧ ∀ k, k < n → f m ≤ f k ∧ (k < m → f m < f k)

/-- One step of the scan: a new value replaces the best only if it is strictly smaller. -/
theorem firstLeast_succ {f : Nat → ℚ} {n m : Nat} (h : firstLeast f n m) :
    firstLeast f (n + 1) (if f n < f m then n else m) := by
  obtain ⟨hm, hleast⟩ := h
  split_ifs with hnew
  · refine ⟨Nat.lt_succ_self n, fun k hk => ?_⟩
    obtain hlt | rfl := Nat.lt_succ_iff_lt_or_eq.1 hk
    · have hbelow : f n < f k := hnew.trans_le (hleast k hlt).1
      exact ⟨hbelow.le, fun _ => hbelow⟩
    · exact ⟨le_rfl, fun hself => absurd hself (lt_irrefl k)⟩
  · refine ⟨Nat.lt_succ_of_lt hm, fun k hk => ?_⟩
    obtain hlt | rfl := Nat.lt_succ_iff_lt_or_eq.1 hk
    · exact hleast k hlt
    · exact ⟨not_lt.1 hnew, fun hlt => absurd hlt hm.not_gt⟩

/-- The scan of the `d` values from `n` on, the best of the values before them being at `m`. -/
theorem firstLeast_bestFrom {f : Nat → ℚ} (d : Nat) {n m : Nat} (h : firstLeast f n m) :
    firstLeast f (n + d) (bestFrom (fun a b => decide (a < b)) n m (f m) ((List.range' n d).map f)) := by
  induction d generalizing n m with
  | zero => exact h
  | succ d ih =>
    have hstep := ih (firstLeast_succ h)
    rw [List.range'_succ, List.map_cons, bestFrom, Nat.add_comm d 1, ← Nat.add_assoc]
    by_cases hnew : f n < f m
    · rw [if_pos hnew] at hstep
      rwa [if_pos (decide_eq_true hnew)]
    · rw [if_neg hnew] at hstep
      rwa [if_neg (by simpa using hnew)]

/-- `argMin` finds the smallest index of the least value. -/
theorem firstLeast_argMin {l : List ℚ} (h : l ≠ []) (dflt : ℚ) :
    firstLeast (fun k => l.getD k dflt) l.length (argMin l) := by
  cases l with
  | nil => exact absurd rfl h
  | cons x rest =>
    have hone : firstLeast (fun k => (x :: rest).getD k dflt) 1 0 := by
      refine ⟨Nat.one_pos, fun k hk => ?_⟩
      obtain rfl := Nat.lt_one_iff.1 hk
      exact ⟨le_rfl, fun hself => absurd hself (lt_irrefl 0)⟩
    have hrest : rest = (List.range' 1 rest.length).map fun k => (x :: rest).getD k dflt :=
      List.ext_getElem (by simp) fun k hk _ => by simp [Nat.add_comm 1 k, hk]
    have hscan := firstLeast_bestFrom rest.length hone
    rwa [← hrest, Nat.add_comm] at hscan

/-- The entry found is at the smallest distance from `v`, and the first that is (R293). -/
theorem firstLeast_nearestEntry {table : List ℚ} (h : table ≠ []) (v : ℚ) :
    firstLeast (fun k => |table.getD k 0 - v|) table.length (nearestEntry table v) := by
  have hmap (k : Nat) : (table.map fun t => |t - v|).getD k |0 - v| = |table.getD k 0 - v| :=
    List.getD_map table 0 fun t => |t - v|
  have hmin := firstLeast_argMin (l := table.map fun t => |t - v|) (by simpa using h) |0 - v|
  simpa only [List.length_map, hmap, nearestEntry] using hmin

end Sys2Proof.Machine
end

section
/-! SUPPORT. A channel block as an encoder writes it: its endpoints and its indices read back from `BLK`, and the statement on its indices (44_bc45.md R280, R292, R293, R300 to R303). -/

namespace Sys2Proof.Machine

open Claims

/-! ### The number of a ramp block (R280) -/

theorem rampBlock_lt (e0 e1 : Nat) {indices : List Nat} (h : indices.length = 16) : rampBlock e0 e1 indices < 2 ^ 64 := by
  have hbits : totalBits ((e0, 8) :: (e1, 8) :: indices.map (·, 3)) = 64 := by
    simp [totalBits, Function.comp_def, h]
  rw [← hbits]
  exact packFields_lt _

section Holds

variable {t : State} {o e0 e1 : Nat} {indices : List Nat} (ho : o + 8 ≤ 16)
  (h : fld t.block (8 * o) 64 = rampBlock e0 e1 indices)

include ho h

theorem State.read_endpoint0 (he : e0 < 256) : (t.blk.read o).toNat = e0 := by
  rw [← t.fld_byte (by omega), ← Nat.add_zero (8 * o), fld_within t.block (8 * o) (m := 64) (by omega), h]
  simp only [rampBlock, packFields]
  omega

theorem State.read_endpoint1 (he : e1 < 256) : (t.blk.read (o + 1)).toNat = e1 := by
  rw [← t.fld_byte (by omega), Nat.mul_succ, fld_within t.block (8 * o) (m := 64) (by omega), h]
  simp only [rampBlock, packFields]
  omega

theorem State.rampIndex_eq_getD {i : Nat} (hi : i < 16) : rampIndex t o i = indices.getD i 0 % 8 := by
  have hpast : rampBlock e0 e1 indices / 2 ^ 16 = packFields (indices.map (·, 3)) := by
    simp only [rampBlock, packFields]
    omega
  rw [← t.fld_rampIndex ho hi, Nat.add_assoc, fld_within t.block (8 * o) (m := 64) (by omega), h, pow_add,
    ← Nat.div_div_eq_div_mul, hpast]
  exact packFields_equal_widths indices 3 i

end Holds

/-! ### The channel encoder (R290 to R293) -/

theorem storedByte_lt (r : Int) : storedByte r < 256 := by
  rw [storedByte]
  omega

theorem channelEndpoints_lt (cfg : Config) (signed : Bool) (V : List ℚ) :
    (channelEndpoints cfg signed V).1 < 256 ∧ (channelEndpoints cfg signed V).2 < 256 := by
  rw [channelEndpoints]
  split <;> exact ⟨storedByte_lt _, storedByte_lt _⟩

/-- The values of one channel of the tile, as the channel encoders take them (R140). -/
def State.channel (s : State) (c : Chan) : List ℚ := (s.colours config).map (·.get c)

theorem State.channel_length (s : State) (c : Chan) : (s.channel c).length = 16 :=
  (List.length_map _).trans (s.colours_length config)

theorem State.channel_getElem (s : State) (c : Chan) (i : Fin 16) (h : i.val < (s.channel c).length) :
    (s.channel c)[i.val] = val ((s.pix[i.val]).get c) := by
  simp only [State.channel, List.getElem_map, s.colours_getElem config i]
  cases c <;> rfl

theorem encChan_lt (cfg : Config) (signed : Bool) {V : List ℚ} (h : V.length = 16) : encChan cfg signed V < 2 ^ 64 :=
  rampBlock_lt _ _ ((List.length_map _).trans h)

theorem firstLeast_channelRamp (signed : Bool) (b0 b1 : Nat) (v : ℚ) :
    firstLeast (fun k => |(channelRamp signed b0 b1).getD k 0 - v|) 8 (nearestEntry (channelRamp signed b0 b1) v) := by
  have hlength := channelRamp_length signed b0 b1
  rw [← hlength]
  exact firstLeast_nearestEntry (List.ne_nil_of_length_eq_add_one hlength) v

/-- Where the bytes of a channel block are those of the channel encoder, each index is the nearest entry's, in the table a decoder makes of the endpoints stored. -/
theorem State.rampIndex_of_encChan {s t : State} {signed : Bool} {o : Nat} {c : Chan} (ho : o + 8 ≤ 16)
    (h : fld t.block (8 * o) 64 = encChan config signed (s.channel c)) (i : Fin 16) : rampIndex t o i =
      nearestEntry (channelRamp signed (t.blk.read o).toNat (t.blk.read (o + 1)).toNat) (val ((s.pix[i.val]).get c)) := by
  obtain ⟨he0, he1⟩ := channelEndpoints_lt config signed (s.channel c)
  have hi : i.val < (s.channel c).length := i.isLt.trans_eq (s.channel_length c).symm
  have hindex := (firstLeast_channelRamp signed (channelEndpoints config signed (s.channel c)).1
    (channelEndpoints config signed (s.channel c)).2 (val ((s.pix[i.val]).get c))).1
  rw [State.rampIndex_eq_getD ho h i.isLt, State.read_endpoint0 ho h he0, State.read_endpoint1 ho h he1,
    List.getD_eq_getElem _ _ (by simpa using hi), List.getElem_map, s.channel_getElem c i hi, Nat.mod_eq_of_lt hindex]

theorem nearestIndices_of_encChan {s t : State} {signed : Bool} {o : Nat} {c : Chan} (ho : o + 8 ≤ 16)
    (h : fld t.block (8 * o) 64 = encChan config signed (s.channel c)) : nearestIndices s t signed o c := by
  intro i
  rw [State.rampIndex_of_encChan ho h i]
  exact (firstLeast_channelRamp ..).2

/-! ### The commands (R300 to R303) -/

/-- A BC4 encoder of a finite tile writes the channel block of red. -/
theorem exec_encBc4 {s : State} (h : tileFinite s [.r]) (signed : Bool) : exec (if signed then .encBc4s else .encBc4u) s =
    .next (s.writeFormat config (if signed then .bc4s else .bc4u) (encChan config signed (s.channel .r))) := by
  have hfinite := (s.finiteChans_config_iff _).2 h
  cases signed with
  | false => exact encodeOr_finite .encBc4u s _ hfinite
  | true => exact encodeOr_finite .encBc4s s _ hfinite

/-- A BC5 encoder of a finite tile writes the channel block of red below that of green. -/
theorem exec_encBc5 {s : State} (h : tileFinite s [.r, .g]) (signed : Bool) : exec (if signed then .encBc5s else .encBc5u) s =
    .next (s.writeFormat config (if signed then .bc5s else .bc5u)
      (halves (encChan config signed (s.channel .r)) (encChan config signed (s.channel .g)))) := by
  have hfinite := (s.finiteChans_config_iff _).2 h
  cases signed with
  | false => exact encodeOr_finite .encBc5u s _ hfinite
  | true => exact encodeOr_finite .encBc5s s _ hfinite

/-- Settles O53: each channel block written is read back as the number the channel encoder made, so `nearestIndices_of_encChan` holds of it. -/
theorem channelIndicesAreNearest : Obligations.ChannelIndicesAreNearest := by
  intro s signed hwf
  have hr := encChan_lt config signed (s.channel_length .r)
  have hg := encChan_lt config signed (s.channel_length .g)
  have hbc4 : (config.blockBytes (if signed then .bc4s else .bc4u)).val = 8 := by cases signed <;> rfl
  have hbc5 : (config.blockBytes (if signed then .bc5s else .bc5u)).val = 16 := by cases signed <;> rfl
  refine ⟨fun hfin => ⟨_, exec_encBc4 hfin signed, nearestIndices_of_encChan (by decide) ?bc4⟩,
    fun hfin => ⟨_, exec_encBc5 hfin signed, nearestIndices_of_encChan (by decide) ?bc5Red,
      nearestIndices_of_encChan (by decide) ?bc5Green⟩⟩
  case bc4 =>
    rw [State.fld_writeFormat hwf config _ _ (by omega)]
    omega
  case bc5Red =>
    rw [State.fld_writeFormat hwf config _ _ (by omega), halves_eq hr hg]
    omega
  case bc5Green =>
    rw [State.fld_writeFormat hwf config _ _ (by omega), halves_eq hr hg]
    omega

end Sys2Proof.Machine
end

section
/-! SUPPORT. The values of the BC6H mode selector, those without a mode, and the statement on the reserved ones (45_bc6h_decode.md R331, R332). -/

namespace Sys2Proof.Machine

open Claims

/-! ### The mode selector (R331) -/

theorem selector6H_lt (b : Block) : selector6H b < 32 := by
  have hlow := fld_lt b 0 2
  have hhigh := fld_lt b 2 3
  rw [selector6H]
  split <;> omega

/-- A selector is short, 0 or 1, or its first two bits are 2 or 3 (R331). -/
theorem selector6H_short_or_long (b : Block) : selector6H b < 2 ∨ 2 ≤ selector6H b % 4 := by
  have hlow := fld_lt b 0 2
  rw [selector6H]
  split <;> omega

/-- Of the values a selector can have, exactly the reserved ones have no mode (R332, R380). -/
theorem mode6H_eq_none_iff : ∀ sel < 32, sel < 2 ∨ 2 ≤ sel % 4 → (mode6H sel = none ↔ sel ∈ reservedSelectors) := by
  decide

theorem mode6H_selector6H_eq_none_iff (b : Block) : mode6H (selector6H b) = none ↔ selector6H b ∈ reservedSelectors :=
  mode6H_eq_none_iff _ (selector6H_lt b) (selector6H_short_or_long b)

/-! ### The commands (R345, R346) -/

theorem exec_decBc6hu (s : State) : exec .decBc6hu s = .next (decodeBc6h config .bc6hu false s) := rfl

theorem exec_decBc6hs (s : State) : exec .decBc6hs s = .next (decodeBc6h config .bc6hs true s) := rfl

theorem decodeBc6h_of_reserved {s : State} {cfg : Config} {fmt : Format} (hbytes : (cfg.blockBytes fmt).val = 16)
    (h : selector6H s.block ∈ reservedSelectors) (signed : Bool) :
    decodeBc6h cfg fmt signed s = (decodeTo cfg s fun _ => opaqueBlack).diag bc6hReservedMode := by
  have hnone := (mode6H_selector6H_eq_none_iff s.block).2 h
  simp only [decodeBc6h, State.formatBlock_whole hbytes, hnone]

/-- On a reserved selector both decoders store opaque black and report the one diagnostic (R332). -/
theorem exec_decBc6h_of_reserved {s : State} {i : Instr} (hi : i = .decBc6hu ∨ i = .decBc6hs)
    (h : selector6H s.block ∈ reservedSelectors) :
    exec i s = .next ((decodeTo config s fun _ => opaqueBlack).diag bc6hReservedMode) := by
  obtain rfl | rfl := hi
  · rw [exec_decBc6hu, decodeBc6h_of_reserved rfl h]
  · rw [exec_decBc6hs, decodeBc6h_of_reserved rfl h]

/-- Settles O31: `mode6H_selector6H_eq_none_iff`, and the next state of `exec_decBc6h_of_reserved`, read register by register. -/
theorem reservedBc6hGivesBlackAndOneDiagnostic : Obligations.ReservedBc6hGivesBlackAndOneDiagnostic := by
  refine ⟨mode6H_selector6H_eq_none_iff, fun s i hi h => ⟨_, exec_decBc6h_of_reserved hi h, rfl, ?count, ?fault, fun k => ?pixels⟩⟩
  case count =>
    rw [State.diag_diagcnt, decodeTo_diagcnt]
    exact countUp_toNat s.diagcnt
  case fault =>
    rw [State.faulted_diag, State.faulted, decodeTo_status, State.faulted]
  case pixels => exact pixelHolds_decodeTo s (fun _ => opaqueBlack) k

end Sys2Proof.Machine
end

section
/-! SUPPORT. The mode of a BC7 block as the first set bit of its first byte, the block that has none, and the statement on both (48_bc7.md R441, R442, R448). -/

namespace Sys2Proof.Machine

open Claims

/-! ### The unary prefix (R442) -/

/-- The scan for the first set bit is the library's search in the positions scanned. -/
theorem firstBit_eq_find? (b : Block) (k n : Nat) : firstBit b k n = (List.range' k n).find? b.getLsbD := by
  induction n generalizing k with
  | zero => rfl
  | succ n ih => cases h : b.getLsbD k <;> simp [firstBit, bit, List.range'_succ, h, ih]

theorem firstBit_eq_some_iff {b : Block} {n p : Nat} :
    firstBit b 0 n = some p ↔ b.getLsbD p = true ∧ p < n ∧ ∀ q < p, b.getLsbD q = false := by
  simp [firstBit_eq_find?, ← List.range_eq_range', List.find?_range_eq_some]

theorem firstBit_eq_none_iff {b : Block} {n : Nat} : firstBit b 0 n = none ↔ ∀ q < n, b.getLsbD q = false := by
  simp [firstBit_eq_find?, ← List.range_eq_range']

/-- The mode records stand in the order of their numbers (R490). -/
theorem modes7_getElem?_num : ∀ p < 8, ∃ M, modes7[p]? = some M ∧ M.num = p := by decide

/-- The mode is the number of zeros before the first one (R442). -/
theorem mode7_num_of_prefix {b : Block} {p : Nat} (hp : p < 8) (hzeros : ∀ q < p, b.getLsbD q = false)
    (hone : b.getLsbD p = true) : ∃ M, mode7 b = some M ∧ M.num = p := by
  obtain ⟨M, hM, hnum⟩ := modes7_getElem?_num p hp
  have hfirst : firstBit b 0 8 = some p := firstBit_eq_some_iff.2 ⟨hone, hp, hzeros⟩
  exact ⟨M, by rw [mode7, hfirst, Option.bind_some, hM], hnum⟩

/-! ### The reserved block (R442) -/

theorem State.mode7_block_eq_none {s : State} (h : s.blk.read 0 = 0#8) : mode7 s.block = none := by
  have hfirst : firstBit s.block 0 8 = none := firstBit_eq_none_iff.2 fun q hq => by
    rw [s.block_getLsbD (by omega), Nat.div_eq_of_lt hq, h, BitVec.getLsbD_zero]
  rw [mode7, hfirst, Option.bind_none]

theorem bc7Ldr_of_reserved {b : Block} (h : mode7 b = none) (i : Nat) : bc7Ldr b i = ⟨0, 0, 0, 0⟩ := by
  rw [bc7Ldr, h]

theorem bc7Pixel_of_reserved {b : Block} (h : mode7 b = none) (i : Nat) : bc7Pixel b i = ⟨0, 0, 0, 0⟩ := by
  simp [bc7Pixel, bc7Ldr_of_reserved h, Quad.map, ldrToReal]

/-! ### The command (R448) -/

theorem exec_decBc7 (s : State) : exec .decBc7 s = .next (decodeTo config s (bc7Pixel s.block)) := rfl

/-- Settles O37: `mode7_num_of_prefix`; and a zero first byte has no mode, so that each pixel decodes to transparent black. -/
theorem bc7ModeIsTheUnaryPrefix : Obligations.Bc7ModeIsTheUnaryPrefix := by
  refine ⟨fun _ _ => mode7_num_of_prefix, fun s h => ⟨_, exec_decBc7 s, decodeTo_frame .., fun i => ?_⟩⟩
  rw [← bc7Pixel_of_reserved (s.mode7_block_eq_none h) i]
  exact pixelHolds_decodeTo s (bc7Pixel s.block) i

end Sys2Proof.Machine
end

section
/-! SUPPORT. The word of a decoded command is its encoding: a row makes its command from the bits its mask leaves free, and `encode` puts them back in their places beside the row's code (30_encoding.md R90, R94, R98). -/

namespace Sys2Proof

/-! ### A field put back in its place -/

/-- A field read from a word and put back is the word under the field's mask. -/
theorem extractLsb'_put_back (w : Word) (lo len : Nat) :
    (w.extractLsb' lo len).setWidth 32 <<< lo = w &&& (BitVec.allOnes len).setWidth 32 <<< lo := by
  apply BitVec.eq_of_getLsbD_eq
  intro p hp
  by_cases hlo : p < lo
  · simp [hlo]
  · have hback : lo + (p - lo) = p := by omega
    simp [hlo, hp, hback, Bool.and_comm]

theorem fieldN_put_back (w : Word) : BitVec.ofNat 32 (fieldN w % 16) <<< 8 = w &&& 0x00000F00#32 := by
  have hN : BitVec.ofNat 32 (fieldN w % 16) = (w.extractLsb' 8 4).setWidth 32 := by
    rw [Nat.mod_eq_of_lt (show fieldN w < 16 from (w.extractLsb' 8 4).isLt)]
    exact BitVec.ofNat_toNat 32 (w.extractLsb' 8 4)
  rw [hN]
  exact extractLsb'_put_back w 8 4

theorem fieldVAL_put_back (w : Word) : (fieldVAL w).setWidth 32 <<< 16 = w &&& 0x00FF0000#32 :=
  extractLsb'_put_back w 16 8

theorem flagAt_put_back (w : Word) (k : Nat) : flagAt (w.getLsbD k) k = w &&& 1#32 <<< k := by
  have hbit : BitVec.ofBool (w.getLsbD k) = w.extractLsb' k 1 := by
    apply BitVec.eq_of_getLsbD_eq
    intro i hi
    obtain rfl : i = 0 := by omega
    simp
  rw [flagAt, hbit]
  exact extractLsb'_put_back w k 1

theorem fieldVAL0_put_back (w : Word) : flagAt (fieldVAL0 w) 16 = w &&& 0x00010000#32 := flagAt_put_back w 16

theorem fieldDR_put_back (w : Word) : flagAt (fieldDR w) 24 = w &&& 0x01000000#32 := flagAt_put_back w 24

theorem fieldDA_put_back (w : Word) : flagAt (fieldDA w) 25 = w &&& 0x02000000#32 := flagAt_put_back w 25

theorem fieldCK_put_back (w : Word) : flagAt (fieldCK w) 26 = w &&& 0x04000000#32 := flagAt_put_back w 26

/-! ### The rows -/

/-- The word of the command a row makes is the row's code beside the bits of the word that the row's mask leaves free. -/
theorem encode_make (w : Word) : ∀ row ∈ opRows, encode (row.make w) = row.code ||| w &&& ~~~row.mask := by
  simp only [opRows, cursorRows, decRows, encRows, List.cons_append, List.nil_append, List.forall_mem_cons]
  simp [encode, fieldN_put_back, fieldVAL_put_back, fieldVAL0_put_back, fieldDR_put_back, fieldDA_put_back,
    fieldCK_put_back, BitVec.or_assoc, ← BitVec.and_or_distrib_left]

/-- A word that decodes is the encoding of its command: no bit of it is dropped (R90, R94). -/
theorem encode_of_decode {w : Word} {i : Instr} (h : decode w = some i) : encode i = w := by
  obtain ⟨row, hrow, hhit, rfl⟩ := row_of_decode h
  have hcode : w &&& row.mask = row.code := by simpa [OpRow.hit] using hhit
  rw [encode_make w row hrow, ← hcode, ← BitVec.and_or_distrib_left, BitVec.or_not_self, BitVec.and_allOnes]

end Sys2Proof
end

section
/-! SUPPORT. When an issued word faults and what it leaves: a command that faults enters fault and does nothing else, and the statements on fault entry and on the order of the checks (60_exceptions.md R502, R505, R509). -/

namespace Sys2Proof.Machine

open Claims

/-! ### Fault entry (R502) -/

/-- Of the effects a command can have, only fault entry sets `STATUS.FAULT`. -/
theorem Effect.raised {cfg : Config} {i : Instr} {s t : State} (h : Effect cfg i s t) (hs : s.faulted = false)
    (ht : t.faulted = true) : ∃ c, c ≠ .tableRange ∧ t = s.raise c (encode i) := by
  have hne : t.faulted ≠ s.faulted := by simp [hs, ht]
  cases h with
  | faulted c hc _ => exact ⟨c, hc, rfl⟩
  | read => exact absurd rfl hne
  | wrote => exact absurd rfl hne
  | decoded => exact absurd rfl hne
  | diagnosed f => exact absurd (State.faulted_diag (s.setTile f) _) hne
  | encoded => exact absurd rfl hne

/-- An issued word that leaves the unit faulted has entered fault with that word, and has done nothing else. -/
theorem raised_of_issue {w : Word} {s t : State} (hs : s.faulted = false) (h : issue w s = .next t)
    (ht : t.faulted = true) : ∃ c, c ≠ .tableRange ∧ t = s.raise c w := by
  rcases issue_cases h with ⟨hf, -⟩ | ⟨-, -, rfl⟩ | ⟨-, i, hdec, hexec⟩
  · simp [hs] at hf
  · exact ⟨.illegalCmd, by decide, rfl⟩
  · rw [← encode_of_decode hdec]
    exact (effect_of_exec hexec).raised hs ht

theorem causeCode_mem_raisedCodes {c : Cause} (hc : c ≠ .tableRange) : causeCode c ∈ raisedCodes := by
  cases c with
  | tableRange => exact absurd rfl hc
  | _ => decide

/-- Settles O22: by `raised_of_issue`; the code is that of the cause raised. -/
theorem faultEntryIsPrecise : Obligations.FaultEntryIsPrecise := by
  intro w s t hs hissue ht
  obtain ⟨c, hc, rfl⟩ := raised_of_issue hs hissue ht
  exact ⟨causeCode c, causeCode_mem_raisedCodes hc, s.raise_eq_faultEntered c w⟩

/-! ### The encoders' check (R140, R503) -/

/-- But for ENC.BC1 with the colour key on, an encoder's inputs are its channels. -/
theorem finiteChans_iff_inputsFinite {i : Instr} (hi : ∀ dr, i ≠ .encBc1 dr true) (cs : List Chan) (s : State) :
    s.finiteChans config cs = true ↔ inputsFinite i cs s := by
  have hathr : ∀ dr, i = .encBc1 dr true → athrFinite s := fun dr h => absurd h (hi dr)
  exact (s.finiteChans_config_iff cs).trans (and_iff_left hathr).symm

/-- ENC.BC1 checks `ATHR` too when the colour key is on. -/
theorem finiteChans_athr_iff_inputsFinite (dr ck : Bool) (cs : List Chan) (s : State) :
    (s.finiteChans config cs && (!ck || isFiniteIn config.chanFmt s.athr)) = true
      ↔ inputsFinite (.encBc1 dr ck) cs s := by
  have hathr : isFiniteIn config.chanFmt s.athr = true ↔ athrFinite s := isFinite32_iff s.athr
  rw [Bool.and_eq_true, s.finiteChans_config_iff]
  refine and_congr Iff.rfl ?_
  cases ck <;> simp [hathr]

/-- Every encode command is the encoders' guard on the finiteness of the inputs it reads. -/
theorem exec_encoder (s : State) (dr f : Bool) : ∀ e ∈ encoders dr f, ∃ finite written,
    exec e.1 s = encodeOr finite e.1 s written ∧ (finite = true ↔ inputsFinite e.1 e.2.2 s) := by
  simp only [encoders, List.forall_mem_cons]
  refine ⟨⟨_, _, rfl, finiteChans_athr_iff_inputsFinite dr f _ s⟩, ?_⟩
  refine ⟨?_, ?_, ?_, ?_, ?_, ?_, ?_, ?_, ?_, List.forall_mem_nil _⟩ <;>
    exact ⟨_, _, rfl, finiteChans_iff_inputsFinite (by simp) _ s⟩

theorem exec_of_nonfinite {s : State} {dr f : Bool} {e : Instr × Nat × List Chan} (he : e ∈ encoders dr f)
    (hnonfinite : ¬ inputsFinite e.1 e.2.2 s) : exec e.1 s = .next (faultEntered s 5#8 (encode e.1)) := by
  obtain ⟨finite, written, hexec, hfinite⟩ := exec_encoder s dr f e he
  rw [hexec, encodeOr_nonfinite _ _ _ (by simpa [hnonfinite] using hfinite)]
  rfl

/-! ### The order of the checks (R509) -/

/-- While `STATUS.FAULT` is 1 a word changes nothing (R505). -/
theorem issue_of_faulted {s : State} (hs : s.faulted = true) (w : Word) : issue w s = .next s := by
  simp [issue, issueBy, hs]

/-- A command that faults records the word issued. -/
theorem issue_of_exec_faultEntered {s : State} (hs : s.faulted = false) {w : Word} {i : Instr} (hdec : decode w = some i)
    {code : Byte} (h : exec i s = .next (faultEntered s code (encode i))) : issue w s = .next (faultEntered s code w) := by
  rw [issue_of_decode hs hdec, h, encode_of_decode hdec]

/-- GETBITS and SETBITS: the width is checked before the range (R121, R123). -/
theorem issue_of_width_before_range {s u : State} (hs : s.faulted = false) {w : Word} {i : Instr}
    (hdec : decode w = some i) {n : Nat}
    (hexec : exec i s =
      if n = 0 ∨ 8 < n then .next (faultEntered s 2#8 (encode i))
      else if 128 < s.cur.toNat + n then .next (faultEntered s 1#8 (encode i)) else .next u) :
    (n = 0 ∨ 8 < n → issue w s = .next (faultEntered s 2#8 w))
      ∧ (1 ≤ n → n ≤ 8 → 128 < s.cur.toNat + n → issue w s = .next (faultEntered s 1#8 w)) := by
  constructor
  · intro hwidth
    exact issue_of_exec_faultEntered hs hdec (hexec.trans (if_pos hwidth))
  · intro h1 h8 hover
    exact issue_of_exec_faultEntered hs hdec (by rw [hexec, if_neg (by omega), if_pos hover])

/-- Settles O24: each check by the equation of its command; a word that faults has raised and left the diagnostic registers, by `raised_of_issue`. -/
theorem faultPriority : Obligations.FaultPriority := by
  intro s w
  refine ⟨fun hs => issue_of_faulted hs w, fun hs => issue_of_decode_none hs, ?getbits, ?setbits, ?getbit, ?setbit, ?enc, ?diag⟩
  case getbits =>
    intro n hs hdec
    exact issue_of_width_before_range hs hdec (exec_getbits n s)
  case setbits =>
    intro n v hs hdec
    exact issue_of_width_before_range hs hdec (exec_setbits n v s)
  case getbit =>
    intro hs hdec hend
    exact issue_of_exec_faultEntered hs hdec (by rw [exec_getbit, if_pos (by omega)])
  case setbit =>
    intro v hs hdec hend
    exact issue_of_exec_faultEntered hs hdec (by rw [exec_setbit, if_pos (by omega)])
  case enc =>
    intro dr f e he hs hdec hnonfinite
    exact issue_of_exec_faultEntered hs hdec (exec_of_nonfinite he hnonfinite)
  case diag =>
    intro t hs hissue ht
    obtain ⟨c, -, rfl⟩ := raised_of_issue hs hissue ht
    exact ⟨s.diagged_raise c w, s.raise_diagcode c w, s.raise_diagcnt c w⟩

end Sys2Proof.Machine
end

section
/-! SUPPORT. The decoder and the encoder undo each other: the commands with a count by their rows, every other command by evaluation of its one, two or four words (30_encoding.md R90, R94, R98). -/

namespace Sys2Proof

/-- Settles O1: GETBITS and SETBITS by `decode_getbits` and `decode_setbits`; a command with flags has a word for each of their values. -/
theorem decodeOfEncodeIsTheCommand : Obligations.DecodeOfEncodeIsTheCommand := by
  intro i hwf
  cases i with
  | getbits n =>
    have hn : n < 16 := of_decide_eq_true hwf
    rw [encode, Nat.mod_eq_of_lt hn]
    exact decode_getbits hn
  | setbits n val =>
    have hn : n < 16 := of_decide_eq_true hwf
    rw [encode, Nat.mod_eq_of_lt hn]
    exact decode_setbits hn val
  | setbit v => revert v; decide
  | encBc1 dr ck => revert dr ck; decide
  | encBc2 dr da => revert dr da; decide
  | encBc3 dr da => revert dr da; decide
  | _ => decide

/-- The command a row makes is well formed: a count is read from four bits (R92). -/
theorem OpRow.wf_make (w : Word) : ∀ row ∈ opRows, (row.make w).wf = true := by
  have hN : fieldN w < 16 := (w.extractLsb' 8 4).isLt
  simp [opRows, cursorRows, decRows, encRows, Instr.wf, hN]

/-- Settles O2: the word by `encode_of_decode`, the form by the row the word selects. -/
theorem encodeOfDecodeIsTheWord : Obligations.EncodeOfDecodeIsTheWord := by
  intro w i h
  obtain ⟨row, hrow, -, rfl⟩ := row_of_decode h
  exact ⟨encode_of_decode h, row.wf_make w hrow⟩

/-- Settles O5: each word selects the row it was written from, or none. -/
theorem specWordsDecode : Obligations.SpecWordsDecode := by
  unfold Obligations.SpecWordsDecode
  decide

end Sys2Proof
end

section
/-! SUPPORT. What a step does with the action at the head of the queue, one equation per action, and the statements on steps and on the host's accesses (60_exceptions.md R505, 70_reset_and_hazards.md R543, R546, 20_memory.md R69). -/

namespace Sys2Proof.Machine

open Claims

/-! ### One equation per action -/

section Actions

variable {s : State} {rest : List HostAction}

theorem step_of_command {w : Word} (h : s.queue = .command w :: rest) : step s = issue w { s with queue := rest } :=
  step_cons h

theorem step_of_wrCur {v : Byte} (h : s.queue = .wrCur v :: rest) : step s = .next { s with queue := rest, cur := v } :=
  step_cons h

theorem step_of_wrAthr {v : Word} (h : s.queue = .wrAthr v :: rest) : step s = .next { s with queue := rest, athr := v } :=
  step_cons h

theorem step_of_wrPix {i : Fin 16} {c : Chan} {v : Word} (h : s.queue = .wrPix i c v :: rest) :
    step s = .next (State.setPix { s with queue := rest } i c v) :=
  step_cons h

theorem step_of_wrBlk {k : Nat} {v : Byte} (h : s.queue = .wrBlk k v :: rest) (hk : k < 16) :
    step s = .next { s with queue := rest, blk := s.blk.write k v } :=
  (step_cons h).trans (if_pos hk)

theorem step_of_wrBlk_absent {k : Nat} {v : Byte} (h : s.queue = .wrBlk k v :: rest) (hk : 16 ≤ k) :
    step s = .refused (.noBlkAddress k) :=
  (step_cons h).trans (if_neg (by omega))

/-- What is pending has no part in what a register reads. -/
theorem State.readReg_queue (s : State) (rest : List HostAction) (reg : RegName) :
    State.readReg { s with queue := rest } reg = s.readReg reg := by
  cases reg <;> rfl

theorem step_of_rd {reg : RegName} {v : RegVal} (h : s.queue = .rd reg :: rest) (hv : s.readReg reg = some v) :
    step s = .next { s with queue := rest, hostRd := some v } := by
  simp only [step_cons h, perform, performBy, hostRead, s.readReg_queue rest, hv]

theorem step_of_rd_absent {k : Nat} (h : s.queue = .rd (.blk k) :: rest) (hk : 16 ≤ k) :
    step s = .refused (.noBlkAddress k) := by
  have hnone : s.readReg (.blk k) = none := if_neg (by omega)
  simp only [step_cons h, perform, performBy, hostRead, s.readReg_queue rest, hnone]

end Actions

/-! ### Channels of a pixel -/

theorem Quad.get_set {α : Type} (q : Quad α) (c d : Chan) (v : α) : (q.set c v).get d = if d = c then v else q.get d := by
  cases c <;> cases d <;> rfl

/-- A host write of one channel replaces it and leaves every other (R546). -/
theorem State.setPix_get (s : State) (i j : Fin 16) (c d : Chan) (v : Word) :
    ((s.setPix i c v).pix[j.val]).get d = if j = i ∧ d = c then v else (s.pix[j.val]).get d := by
  rw [State.setPix_pix]
  by_cases hij : j = i
  · subst hij
    simp [Quad.get_set]
  · have hne : i.val ≠ j.val := fun h => hij (Fin.ext h.symm)
    simp [hij, hne]

/-! ### A step that stops (R69) -/

theorem issue_goes_on (w : Word) (s : State) : ∃ t, issue w s = .next t := by
  cases hs : s.faulted with
  | true => exact ⟨s, issue_of_faulted hs w⟩
  | false =>
    cases hdec : decode w with
    | none => exact ⟨_, issue_of_decode_none hs hdec⟩
    | some i =>
      obtain ⟨t, ht, -⟩ := exec_effect i s
      exact ⟨t, (issue_of_decode hs hdec).trans ht⟩

/-- Every register but an absent byte of `BLK` can be read. -/
theorem State.readReg_isSome (s : State) {reg : RegName} (h : ∀ k, reg = .blk k → k < 16) : ∃ v, s.readReg reg = some v := by
  cases reg with
  | blk k => exact ⟨_, if_pos (h k rfl)⟩
  | _ => exact ⟨_, rfl⟩

/-- Settles O11: each action by its equation; a command by `issue_goes_on`. -/
theorem stepStopsOnlyAtAbsentAddress : Obligations.StepStopsOnlyAtAbsentAddress := by
  intro s hvalid
  rw [State.nextActionValid] at hvalid
  rcases hq : s.queue with _ | ⟨act, rest⟩
  · exact ⟨s, by simp [step, stepBy, hq]⟩
  · rw [hq] at hvalid
    cases act with
    | reset => exact ⟨_, step_of_reset hq⟩
    | wrBlk k v => exact ⟨_, step_of_wrBlk hq hvalid⟩
    | wrCur v => exact ⟨_, step_of_wrCur hq⟩
    | wrPix i c v => exact ⟨_, step_of_wrPix hq⟩
    | wrAthr v => exact ⟨_, step_of_wrAthr hq⟩
    | rd reg =>
      obtain ⟨v, hv⟩ := s.readReg_isSome (reg := reg) (by rintro k rfl; exact hvalid)
      exact ⟨_, step_of_rd hq hv⟩
    | command w =>
      obtain ⟨t, ht⟩ := issue_goes_on w { s with queue := rest }
      exact ⟨t, (step_of_command hq).trans ht⟩

/-! ### Commands -/

/-- Settles O6: the word at the head of the queue is issued, and its command executed. -/
theorem stepRunsTheDecodedCommand : Obligations.StepRunsTheDecodedCommand := by
  intro s w rest i hq hs hdec
  rw [step_of_command hq]
  exact issue_of_decode (s := { s with queue := rest }) hs hdec

theorem tableWord_of_word (w : Word) : tableWord 32 w.toNat = w := by
  rw [tableWord, Nat.mod_eq_of_lt w.isLt, BitVec.ofNat_toNat, BitVec.setWidth_eq]

/-- Settles O7: the placed word is at the head of the queue and decodes to its command; what was pending before is left. -/
theorem placedWordRunsNext : Obligations.PlacedWordRunsNext := by
  intro s i hs hwf
  have hq : (s.withFetchWord 32 (encode i).toNat).queue = .command (encode i) :: s.queue := by
    rw [State.withFetchWord, tableWord_of_word]
  exact stepRunsTheDecodedCommand _ _ _ i hq hs (decodeOfEncodeIsTheCommand i hwf)

/-! ### The host's accesses -/

/-- Of the host's actions on a faulted unit only reset changes the record of the fault. -/
theorem fault_record_kept_of_faulted {s t : State} {act : HostAction} (hs : s.faulted = true) (hact : act ≠ .reset)
    (h : perform act s = .next t) : t.status = s.status ∧ t.fcause = s.fcause ∧ t.finfo = s.finfo := by
  rcases perform_cases h with ⟨rfl, -⟩ | ⟨k, v, -, -, rfl⟩ | ⟨v, -, rfl⟩ | ⟨i, c, v, -, rfl⟩ | ⟨v, -, rfl⟩
    | ⟨reg, v, -, -, rfl⟩ | ⟨w, -, hissue⟩
  case inl => exact absurd rfl hact
  case inr.inr.inr.inr.inr.inr =>
    rw [issue_of_faulted hs] at hissue
    cases hissue
    exact ⟨rfl, rfl, rfl⟩
  all_goals exact ⟨rfl, rfl, rfl⟩

/-- Settles O9: each action by its equation; the record of the fault by `fault_record_kept_of_faulted`. -/
theorem faultedUnitRefusesCommands : Obligations.FaultedUnitRefusesCommands := by
  intro s act rest hs hq
  refine ⟨?command, ?rd, ?wrCur, ?wrAthr, ?wrBlk, ?wrPix, ?record, ?reset⟩
  case command =>
    rintro w rfl
    rw [step_of_command hq]
    exact issue_of_faulted (s := { s with queue := rest }) hs w
  case rd =>
    rintro reg v rfl hv
    exact step_of_rd hq hv
  case wrCur =>
    rintro v rfl
    exact step_of_wrCur hq
  case wrAthr =>
    rintro v rfl
    exact step_of_wrAthr hq
  case wrBlk =>
    rintro k v rfl hk hwf
    exact ⟨_, step_of_wrBlk hq hk, by simp [Memory.read_write hwf.1]⟩
  case wrPix =>
    rintro i c v rfl
    exact ⟨_, step_of_wrPix hq, by rw [State.setPix_get, if_pos ⟨rfl, rfl⟩]⟩
  case record =>
    intro t hact ht
    rw [step_cons hq] at ht
    exact fault_record_kept_of_faulted (s := { s with queue := rest }) hs hact ht
  case reset =>
    rintro rfl
    exact ⟨_, step_of_reset hq, by rw [State.faulted, State.doReset_status]; rfl⟩

/-- Settles O10: each access by its equation; what a write leaves by `Memory.read_write` and `State.setPix_get`. -/
theorem hostAccessesAreWholeElements : Obligations.HostAccessesAreWholeElements := by
  intro s rest
  refine ⟨fun reg v hq hv => step_of_rd hq ?rd, fun v => step_of_wrCur, fun v => step_of_wrAthr, ?wrBlk, ?wrPix, ?absent⟩
  case rd =>
    cases reg with
    | blk k => rw [hv.2, State.readReg, if_pos hv.1]
    | _ => rw [hv, State.readReg]
  case wrBlk =>
    intro k v hwf hk hq
    exact ⟨_, step_of_wrBlk hq hk, rfl, Memory.wf_write hwf hk v, fun j => Memory.read_write hwf.1 k j v⟩
  case wrPix =>
    intro i c v hq
    exact ⟨_, step_of_wrPix hq, rfl, fun j d => State.setPix_get _ i j c d v⟩
  case absent =>
    intro k hk
    exact ⟨fun v hq => step_of_wrBlk_absent hq hk, fun hq => step_of_rd_absent hq hk⟩

end Sys2Proof.Machine
end

section
/-! SUPPORT. What a step can do to the five status registers, said once, and the statements on the invariant and on the flags (10_state.md R28 to R30, 60_exceptions.md R502, R503, R507, R508). -/

namespace Sys2Proof.Machine

open Claims

/-! ### The status registers -/

/-- The registers `STATUS`, `FCAUSE`, `FINFO`, `DIAGCODE` and `DIAGCNT`. -/
def State.statusRegs (s : State) : Byte × Byte × Word × Byte × Word := (s.status, s.fcause, s.finfo, s.diagcode, s.diagcnt)

theorem State.statusRegs_eq_iff {s t : State} : t.statusRegs = s.statusRegs ↔
    t.status = s.status ∧ t.fcause = s.fcause ∧ t.finfo = s.finfo ∧ t.diagcode = s.diagcode ∧ t.diagcnt = s.diagcnt := by
  simp only [State.statusRegs, Prod.mk.injEq]

/-- All that an action other than reset can do to the status registers: nothing, fault entry on a unit that is not faulted, or one diagnostic. -/
inductive StatusEffect (s t : State) : Prop
  | kept (h : t.statusRegs = s.statusRegs)
  | raised (hs : s.faulted = false) (c : Cause) (hc : c ≠ .tableRange) (cmd : Word)
      (h : t.statusRegs = (s.raise c cmd).statusRegs)
  | diagnosed (h : t.statusRegs = (s.diag bc6hReservedMode).statusRegs)

theorem Effect.statusEffect {cfg : Config} {i : Instr} {s t : State} (hs : s.faulted = false) (h : Effect cfg i s t) :
    StatusEffect s t := by
  cases h with
  | faulted c hc _ => exact .raised hs c hc _ rfl
  | read => exact .kept rfl
  | wrote => exact .kept rfl
  | decoded f => exact .kept (by simp [State.statusRegs])
  | diagnosed f => exact .diagnosed (by simp [State.statusRegs])
  | encoded => exact .kept rfl

theorem statusEffect_of_issue {w : Word} {s t : State} (h : issue w s = .next t) : StatusEffect s t := by
  rcases issue_cases h with ⟨-, rfl⟩ | ⟨hs, -, rfl⟩ | ⟨hs, i, -, hexec⟩
  · exact .kept rfl
  · exact .raised hs .illegalCmd (by decide) w rfl
  · exact (effect_of_exec hexec).statusEffect hs

theorem statusEffect_of_perform {act : HostAction} {s t : State} (hact : act ≠ .reset) (h : perform act s = .next t) :
    StatusEffect s t := by
  rcases perform_cases h with ⟨rfl, -⟩ | ⟨k, v, -, -, rfl⟩ | ⟨v, -, rfl⟩ | ⟨i, c, v, -, rfl⟩ | ⟨v, -, rfl⟩
    | ⟨reg, v, -, -, rfl⟩ | ⟨w, -, hissue⟩
  case inl => exact absurd rfl hact
  case inr.inr.inr.inr.inr.inr => exact statusEffect_of_issue hissue
  all_goals exact .kept rfl

/-- Taking an action from the queue leaves the status registers to the action. -/
theorem StatusEffect.of_queue {s t : State} {rest : List HostAction} (h : StatusEffect { s with queue := rest } t) :
    StatusEffect s t := by
  cases h with
  | kept h => exact .kept h
  | raised hs c hc cmd h => exact .raised hs c hc cmd h
  | diagnosed h => exact .diagnosed h

theorem statusEffect_of_step {s t : State} (hact : s.queue.head? ≠ some .reset) (h : step s = .next t) :
    StatusEffect s t := by
  rcases step_cases h with ⟨-, rfl⟩ | ⟨act, rest, hq, hperform⟩
  · exact .kept rfl
  · have hne : act ≠ .reset := by
      rintro rfl
      exact hact (by rw [hq, List.head?_cons])
    exact (statusEffect_of_perform hne hperform).of_queue

/-! ### The flags (R28, R29, R508) -/

/-- Settles O14: of the three things a step can do to the status registers fault entry needs a unit that is not faulted, and the diagnostic sets and counts. -/
theorem flagsAreStickyUntilReset : Obligations.FlagsAreStickyUntilReset := by
  intro s t hact h
  cases statusEffect_of_step hact h with
  | kept hregs =>
    obtain ⟨hstatus, hcause, hinfo, hcode, hcnt⟩ := State.statusRegs_eq_iff.1 hregs
    simp [State.faulted, State.diagged, hstatus, hcause, hinfo, hcode, hcnt]
  | raised hs c hc cmd hregs =>
    obtain ⟨hstatus, -, -, hcode, hcnt⟩ := State.statusRegs_eq_iff.1 hregs
    have hdiag : t.diagged = s.diagged := by rw [← s.diagged_raise c cmd, State.diagged, hstatus, State.diagged]
    simp [hs, hdiag, hcode, hcnt]
  | diagnosed hregs =>
    obtain ⟨hstatus, hcause, hinfo, hcode, hcnt⟩ := State.statusRegs_eq_iff.1 hregs
    have hfault : t.faulted = s.faulted := by
      rw [← s.faulted_diag bc6hReservedMode, State.faulted, hstatus, State.faulted]
    have hdiag : t.diagged = true := by rw [← s.diagged_diag bc6hReservedMode, State.diagged, hstatus, State.diagged]
    have hcount : t.diagcnt.toNat = min (s.diagcnt.toNat + 1) (2 ^ 32 - 1) := by
      rw [hcnt, State.diag_diagcnt, countUp_toNat]
    have hlt := s.diagcnt.isLt
    refine ⟨fun hs => ⟨hfault.trans hs, hcause, hinfo⟩, fun _ => hdiag, fun _ => hcode, ?_, ?_⟩ <;> omega

/-! ### The invariant -/

/-- Settles O12: every register of the reset state is zero. -/
theorem resetMeetsInvariant : Obligations.ResetMeetsInvariant :=
  ⟨by decide, by decide, by decide, by decide, by decide, by decide⟩

/-- But for the block register the invariant speaks of the status registers alone. -/
theorem State.Inv.of_statusRegs {s t : State} (hs : s.Inv) (hwf : t.blk.wf) (hregs : t.statusRegs = s.statusRegs) :
    t.Inv := by
  obtain ⟨hstatus, hcause, hinfo, hcode, hcnt⟩ := State.statusRegs_eq_iff.1 hregs
  have hfault : t.faulted = s.faulted := by rw [State.faulted, hstatus, State.faulted]
  have hdiag : t.diagged = s.diagged := by rw [State.diagged, hstatus, State.diagged]
  refine ⟨hwf, ?_, ?_, ?_, ?_, ?_⟩
  · rw [hstatus]; exact hs.status_reserved
  · rw [hfault, hcause, hinfo]; exact hs.no_fault
  · rw [hfault, hcause]; exact hs.fault
  · rw [hdiag, hcode, hcnt]; exact hs.no_diag
  · rw [hdiag, hcode, hcnt]; exact hs.diag

/-- Fault entry keeps the invariant (R502, R503). -/
theorem State.Inv.raise {s : State} (hs : s.Inv) {c : Cause} (hc : c ≠ .tableRange) (cmd : Word) : (s.raise c cmd).Inv where
  blk_wf := hs.blk_wf
  status_reserved := withFault_reserved hs.status_reserved
  no_fault := by simp
  fault _ := causeCode_mem_raisedCodes hc
  no_diag := by simpa using hs.no_diag
  diag := by simpa using hs.diag

theorem countUp_ne_zero (c : Word) : countUp c ≠ 0#32 := by
  intro h
  have hcount := countUp_toNat c
  rw [h, BitVec.toNat_ofNat] at hcount
  omega

/-- A diagnostic keeps the invariant (R507). -/
theorem State.Inv.diagnosed {s : State} (hs : s.Inv) : (s.diag bc6hReservedMode).Inv where
  blk_wf := hs.blk_wf
  status_reserved := withDiag_reserved hs.status_reserved
  no_fault := by simpa using hs.no_fault
  fault := by simpa using hs.fault
  no_diag := by simp
  diag _ := ⟨rfl, countUp_ne_zero _⟩

theorem StatusEffect.inv {s t : State} (h : StatusEffect s t) (hs : s.Inv) (hwf : t.blk.wf) : t.Inv := by
  cases h with
  | kept h => exact hs.of_statusRegs hwf h
  | raised _ c hc cmd h => exact (hs.raise hc cmd).of_statusRegs hwf h
  | diagnosed h => exact hs.diagnosed.of_statusRegs hwf h

/-- A command keeps the block register canonical. -/
theorem Effect.blk_wf {cfg : Config} {i : Instr} {s t : State} (h : Effect cfg i s t) (hs : s.blk.wf) : t.blk.wf := by
  cases h with
  | wrote n v _ _ _ hfit => exact State.wf_writeBits hs hfit v
  | encoded fmt v _ => exact State.wf_writeFormat hs cfg fmt v
  | decoded f => rwa [State.setTile_blk]
  | diagnosed f => rwa [State.diag_blk, State.setTile_blk]
  | faulted => exact hs
  | read => exact hs

/-- Every action of the host keeps the block register canonical. -/
theorem blk_wf_of_perform {act : HostAction} {s t : State} (hs : s.blk.wf) (h : perform act s = .next t) : t.blk.wf := by
  rcases perform_cases h with ⟨-, rfl⟩ | ⟨k, v, -, hk, rfl⟩ | ⟨v, -, rfl⟩ | ⟨i, c, v, -, rfl⟩ | ⟨v, -, rfl⟩
    | ⟨reg, v, -, -, rfl⟩ | ⟨w, -, hissue⟩
  case inl => exact resetMeetsInvariant.blk_wf
  case inr.inl => exact Memory.wf_write hs hk v
  case inr.inr.inr.inr.inr.inr =>
    rcases issue_cases hissue with ⟨-, rfl⟩ | ⟨-, -, rfl⟩ | ⟨-, i, -, hexec⟩
    · exact hs
    · exact hs
    · exact (effect_of_exec hexec).blk_wf hs
  all_goals exact hs

theorem blk_wf_of_step {s t : State} (hs : s.blk.wf) (h : step s = .next t) : t.blk.wf := by
  rcases step_cases h with ⟨-, rfl⟩ | ⟨act, rest, -, hperform⟩
  · exact hs
  · exact blk_wf_of_perform (s := { s with queue := rest }) hs hperform

/-- Settles O13: reset gives the registers of the reset state; any other action leaves the status registers as `StatusEffect` says and the block register canonical. -/
theorem stepKeepsInvariant : Obligations.StepKeepsInvariant := by
  intro s t hs h
  by_cases hact : s.queue.head? = some .reset
  · obtain ⟨rest, hq⟩ := List.head?_eq_some_iff.1 hact
    rw [step_of_reset hq] at h
    cases h
    exact resetMeetsInvariant.of_statusRegs resetMeetsInvariant.blk_wf rfl
  · exact (statusEffect_of_step hact h).inv hs (blk_wf_of_step hs.blk_wf h)

end Sys2Proof.Machine
end

section
/-! SUPPORT. Which registers each command writes, and which commands fault (10_state.md section 1, 60_exceptions.md R503, R504). -/

namespace Sys2Proof.Machine

open Claims

/-! ### The writers of each register -/

theorem withFault_and_reserved (x : Byte) : withFault x &&& 0xFC#8 = x &&& 0xFC#8 := by
  rw [withFault, BitVec.and_or_distrib_right]
  simp

theorem withDiag_and_reserved (x : Byte) : withDiag x &&& 0xFC#8 = x &&& 0xFC#8 := by
  rw [withDiag, BitVec.and_or_distrib_right]
  simp

theorem encodesTo_not_mem_decoders {i : Instr} {fmt : Format} (h : encodesTo i fmt) :
    i ∉ decoders ∧ i ≠ .getbit ∧ ∀ n, i ≠ .getbits n := by
  cases fmt with
  | bc1 => obtain ⟨dr, ck, rfl⟩ := h; simp [decoders]
  | bc2 => obtain ⟨dr, da, rfl⟩ := h; simp [decoders]
  | bc3 => obtain ⟨dr, da, rfl⟩ := h; simp [decoders]
  | _ => obtain rfl := h; simp [decoders]

@[simp] theorem State.faulted_setTile (s : State) (f : Nat → Pixel) : (s.setTile f).faulted = s.faulted := by
  rw [State.faulted, State.setTile_status, State.faulted]

@[simp] theorem State.diagged_setTile (s : State) (f : Nat → Pixel) : (s.setTile f).diagged = s.diagged := by
  rw [State.diagged, State.setTile_status, State.diagged]

/-- Settles O15: by the shapes of a command's effect; which command has which shape is part of `Effect`. -/
theorem eachRegisterHasItsOwnWriters : Obligations.EachRegisterHasItsOwnWriters := by
  intro i s t h
  cases effect_of_exec h with
  | faulted c hc hi =>
    exact ⟨fun _ => rfl, fun _ _ => rfl, fun _ _ => ⟨s.diagged_raise c _, rfl, rfl⟩, fun _ => rfl, fun _ => rfl,
      .inr ⟨hi, causeCode c, causeCode_mem_raisedCodes hc, rfl⟩, withFault_and_reserved s.status, rfl, rfl, rfl⟩
  | read n hi =>
    have hcursor : isBitCursor i = true := by obtain rfl | rfl := hi <;> rfl
    refine ⟨fun h => by simp [hcursor] at h, fun hn h1 => ?_, fun _ _ => ⟨rfl, rfl, rfl⟩, fun _ => rfl, fun _ => rfl,
      .inl ⟨rfl, rfl, rfl⟩, rfl, rfl, rfl, rfl⟩
    exact (hi.elim h1 (hn n)).elim
  | wrote n v hi =>
    have hcursor : isBitCursor i = true := by obtain ⟨b, rfl⟩ | ⟨b, rfl⟩ := hi <;> rfl
    have hother : ¬ (i ∈ decoders ∨ i = .getbit ∨ ∃ n, i = .getbits n) := by
      obtain ⟨b, rfl⟩ | ⟨b, rfl⟩ := hi <;> simp [decoders]
    exact ⟨fun h => by simp [hcursor] at h, fun _ _ => rfl, fun _ _ => ⟨rfl, rfl, rfl⟩, fun _ => rfl,
      fun h => absurd h hother, .inl ⟨rfl, rfl, rfl⟩, rfl, rfl, rfl, rfl⟩
  | decoded f hi =>
    have hdec : i ∈ decoders := hi
    simp [hdec]
  | diagnosed f hi =>
    have hdec : i ∈ decoders := by obtain rfl | rfl := hi <;> simp [decoders]
    have hnone : i ≠ .decBc6hu → ¬ i ≠ .decBc6hs := fun hu hs => hi.elim hu hs
    simp [hdec, withDiag_and_reserved]
    tauto
  | encoded fmt v hi =>
    obtain ⟨hdec, hgetbit, hgetbits⟩ := encodesTo_not_mem_decoders hi
    exact ⟨fun _ => rfl, fun _ _ => rfl, fun _ _ => ⟨rfl, rfl, rfl⟩, fun _ => rfl,
      fun h => (h.elim hdec fun h => h.elim hgetbit fun ⟨n, hn⟩ => hgetbits n hn).elim, .inl ⟨rfl, rfl, rfl⟩, rfl, rfl, rfl, rfl⟩

/-! ### The commands that fault (R504) -/

@[simp] theorem faulted_faultEntered (s : State) (code : Byte) (cmd : Word) : (faultEntered s code cmd).faulted = true :=
  s.faulted_raise .illegalCmd cmd

/-- A decode command leaves `STATUS.FAULT` as it is. -/
theorem Effect.faulted_of_decoder {cfg : Config} {i : Instr} {s t : State} (h : Effect cfg i s t) (hi : i ∈ decoders) :
    t.faulted = s.faulted := by
  cases h with
  | faulted c hc hdec => exact absurd hi hdec
  | decoded f => exact s.faulted_setTile f
  | diagnosed f => rw [State.faulted_diag, State.faulted_setTile]
  | read => rfl
  | wrote => rfl
  | encoded => rfl

theorem exec_decoder_not_faulted {i : Instr} {s : State} (hs : s.faulted = false) (hi : i ∈ decoders) :
    ∃ t, exec i s = .next t ∧ (t.faulted = true ↔ False) := by
  obtain ⟨t, ht, heffect⟩ := exec_effect i s
  exact ⟨t, ht, by simp [heffect.faulted_of_decoder hi, hs]⟩

/-- Every encode command is the encoders' guard on the bytes of its format (R8, R500, R503). -/
theorem exec_encoder_writes (s : State) (dr f : Bool) : ∀ e ∈ encoders dr f, ∃ finite fmt v,
    exec e.1 s = encodeOr finite e.1 s (s.writeFormat config fmt v) ∧ (config.blockBytes fmt).val = e.2.1
      ∧ (finite = true ↔ inputsFinite e.1 e.2.2 s) := by
  simp only [encoders, List.forall_mem_cons]
  refine ⟨⟨_, .bc1, _, rfl, rfl, finiteChans_athr_iff_inputsFinite dr f _ s⟩,
    ⟨_, .bc2, _, rfl, rfl, ?_⟩, ⟨_, .bc3, _, rfl, rfl, ?_⟩, ⟨_, .bc4u, _, rfl, rfl, ?_⟩, ⟨_, .bc4s, _, rfl, rfl, ?_⟩,
    ⟨_, .bc5u, _, rfl, rfl, ?_⟩, ⟨_, .bc5s, _, rfl, rfl, ?_⟩, ⟨_, .bc6hu, _, rfl, rfl, ?_⟩, ⟨_, .bc6hs, _, rfl, rfl, ?_⟩,
    ⟨_, .bc7, _, rfl, rfl, ?_⟩, List.forall_mem_nil _⟩ <;>
    exact finiteChans_iff_inputsFinite (by simp) _ s

/-- With finite inputs an encode command writes the bytes of its format and does nothing else (R548). -/
theorem exec_of_finite {s : State} {dr f : Bool} {e : Instr × Nat × List Chan} (he : e ∈ encoders dr f)
    (hfin : inputsFinite e.1 e.2.2 s) :
    ∃ fmt v, exec e.1 s = .next (s.writeFormat config fmt v) ∧ (config.blockBytes fmt).val = e.2.1 := by
  obtain ⟨finite, fmt, v, hexec, hbytes, hfinite⟩ := exec_encoder_writes s dr f e he
  exact ⟨fmt, v, hexec.trans (encodeOr_finite _ _ _ (hfinite.2 hfin)), hbytes⟩

/-- An encode command faults exactly when an input it reads is not finite. -/
theorem exec_encoder_faulted {s : State} (hs : s.faulted = false) {dr f : Bool} {e : Instr × Nat × List Chan}
    (he : e ∈ encoders dr f) : ∃ t, exec e.1 s = .next t ∧ (t.faulted = true ↔ ¬ inputsFinite e.1 e.2.2 s) := by
  by_cases hfin : inputsFinite e.1 e.2.2 s
  · obtain ⟨fmt, v, hexec, -⟩ := exec_of_finite he hfin
    have hkept : (s.writeFormat config fmt v).faulted = false := hs
    exact ⟨_, hexec, by simp [hkept, hfin]⟩
  · exact ⟨_, exec_of_nonfinite he hfin, by simp [hfin]⟩

/-- A check before an outcome: the fault is entered when the check fails, or by what follows. -/
theorem faulted_of_check {s : State} {c p : Prop} [Decidable c] (code : Byte) (cmd : Word)
    {o : Host.Outcome State Fault Refusal} (ho : ∃ t, o = .next t ∧ (t.faulted = true ↔ p)) :
    ∃ t, (if c then .next (faultEntered s code cmd) else o) = .next t ∧ (t.faulted = true ↔ c ∨ p) := by
  by_cases hc : c
  · exact ⟨_, if_pos hc, by simp [hc]⟩
  · obtain ⟨t, ht, hp⟩ := ho
    exact ⟨t, (if_neg hc).trans ht, by simp [hp, hc]⟩

/-- Settles O23: the BitCursor commands are checks before an update that leaves `STATUS`; the encoders by `exec_encoder_faulted`, the decoders by their effect. -/
theorem commandsFaultExactlyWhen : Obligations.CommandsFaultExactlyWhen := by
  intro i s hs
  have hread (n : Nat) : ∃ t, (.next (s.readBits n) : Host.Outcome State Fault Refusal) = .next t
      ∧ (t.faulted = true ↔ False) := ⟨_, rfl, by rw [State.faulted, s.readBits_status n]; simpa [State.faulted] using hs⟩
  have hwrite (n v : Nat) : ∃ t, (.next (s.writeBits n v) : Host.Outcome State Fault Refusal) = .next t
      ∧ (t.faulted = true ↔ False) := ⟨_, rfl, by rw [State.faulted, s.writeBits_status n v]; simpa [State.faulted] using hs⟩
  have henc {e : Instr × Nat × List Chan} {dr f : Bool} (he : e ∈ encoders dr f) := exec_encoder_faulted hs he
  cases i with
  | getbit =>
    obtain ⟨t, ht, hfault⟩ := faulted_of_check (s := s) (c := 128 < s.cur.toNat + 1) 1#8 (encode .getbit) (hread 1)
    exact ⟨t, (exec_getbit s).trans ht, hfault.trans (by simp only [faultsWhen, or_false]; omega)⟩
  | getbits n =>
    obtain ⟨t, ht, hfault⟩ := faulted_of_check (s := s) (c := n = 0 ∨ 8 < n) 2#8 (encode (.getbits n))
      (faulted_of_check (s := s) (c := 128 < s.cur.toNat + n) 1#8 (encode (.getbits n)) (hread n))
    exact ⟨t, (exec_getbits n s).trans ht, hfault.trans (by simp only [faultsWhen, or_false]; omega)⟩
  | setbit v =>
    obtain ⟨t, ht, hfault⟩ := faulted_of_check (s := s) (c := 128 < s.cur.toNat + 1) 1#8 (encode (.setbit v))
      (hwrite 1 v.toNat)
    exact ⟨t, (exec_setbit v s).trans ht, hfault.trans (by simp only [faultsWhen, or_false]; omega)⟩
  | setbits n val =>
    obtain ⟨t, ht, hfault⟩ := faulted_of_check (s := s) (c := n = 0 ∨ 8 < n) 2#8 (encode (.setbits n val))
      (faulted_of_check (s := s) (c := 128 < s.cur.toNat + n) 1#8 (encode (.setbits n val)) (hwrite n val.toNat))
    exact ⟨t, (exec_setbits n val s).trans ht, hfault.trans (by simp only [faultsWhen, or_false]; omega)⟩
  | encBc1 dr ck =>
    obtain ⟨t, ht, hfault⟩ := henc (e := (.encBc1 dr ck, 8, [.r, .g, .b, .a])) (dr := dr) (f := ck) (by simp [encoders])
    refine ⟨t, ht, hfault.trans ?_⟩
    cases ck <;> simp [inputsFinite, faultsWhen, ← not_and_or]
  | encBc2 dr da =>
    simpa [inputsFinite, faultsWhen] using
      henc (e := (.encBc2 dr da, 16, [.r, .g, .b, .a])) (dr := dr) (f := da) (by simp [encoders])
  | encBc3 dr da =>
    simpa [inputsFinite, faultsWhen] using
      henc (e := (.encBc3 dr da, 16, [.r, .g, .b, .a])) (dr := dr) (f := da) (by simp [encoders])
  | encBc4u =>
    simpa [inputsFinite, faultsWhen] using henc (e := (.encBc4u, 8, [.r])) (dr := false) (f := false) (by simp [encoders])
  | encBc4s =>
    simpa [inputsFinite, faultsWhen] using henc (e := (.encBc4s, 8, [.r])) (dr := false) (f := false) (by simp [encoders])
  | encBc5u =>
    simpa [inputsFinite, faultsWhen] using
      henc (e := (.encBc5u, 16, [.r, .g])) (dr := false) (f := false) (by simp [encoders])
  | encBc5s =>
    simpa [inputsFinite, faultsWhen] using
      henc (e := (.encBc5s, 16, [.r, .g])) (dr := false) (f := false) (by simp [encoders])
  | encBc6hu =>
    simpa [inputsFinite, faultsWhen] using
      henc (e := (.encBc6hu, 16, [.r, .g, .b])) (dr := false) (f := false) (by simp [encoders])
  | encBc6hs =>
    simpa [inputsFinite, faultsWhen] using
      henc (e := (.encBc6hs, 16, [.r, .g, .b])) (dr := false) (f := false) (by simp [encoders])
  | encBc7 =>
    simpa [inputsFinite, faultsWhen] using
      henc (e := (.encBc7, 16, [.r, .g, .b, .a])) (dr := false) (f := false) (by simp [encoders])
  | _ => exact exec_decoder_not_faulted hs (by simp [decoders])

/-- Settles O41: `exec_of_finite`, the bytes past the format by `State.read_writeFormat`; and `exec_of_nonfinite`. -/
theorem encodersWriteTheirBytesOnly : Obligations.EncodersWriteTheirBytesOnly := by
  intro dr f e s he
  refine ⟨fun hwf hfin => ?_, exec_of_nonfinite he⟩
  obtain ⟨fmt, v, hexec, hbytes⟩ := exec_of_finite he hfin
  refine ⟨_, hexec, s.writeFormat_frame config fmt v, fun k hk => ?_⟩
  rw [State.read_writeFormat hwf, if_neg (by omega)]

end Sys2Proof.Machine
end

section
/-! SUPPORT. Fields in sequence: what a list of fields packs, field by field and part by part, and where the indices of a block stand (20_memory.md R65, 45_bc6h_decode.md R338). -/

namespace Sys2Proof.Machine

/-! ### Field lists -/

theorem totalBits_append (l l' : List (Nat × Nat)) : totalBits (l ++ l') = totalBits l + totalBits l' := by
  simp [totalBits]

theorem packFields_append (l l' : List (Nat × Nat)) :
    packFields (l ++ l') = packFields l + 2 ^ totalBits l * packFields l' := by
  induction l with
  | nil => simp [packFields, totalBits]
  | cons f rest ih =>
    rw [List.cons_append, packFields, packFields, ih, totalBits_cons, pow_add]
    ring

/-- The field behind other fields. -/
theorem packFields_field (l : List (Nat × Nat)) (f : Nat × Nat) (l' : List (Nat × Nat)) :
    packFields (l ++ f :: l') / 2 ^ totalBits l % 2 ^ f.2 = f.1 % 2 ^ f.2 := by
  rw [packFields_append, Nat.add_mul_div_left _ _ (by positivity), Nat.div_eq_of_lt (packFields_lt l), Nat.zero_add,
    packFields, Nat.add_mul_mod_self_left, Nat.mod_mod]

/-- Bit `p` of a list of one-bit fields. -/
theorem testBit_packFields_bits (l : List Nat) (p : Nat) : (packFields (l.map (·, 1))).testBit p = (l.getD p 0).testBit 0 := by
  induction l generalizing p with
  | nil => simp [packFields]
  | cons x xs ih =>
    rw [List.map_cons, packFields_testBit_cons]
    cases p with
    | zero => simp
    | succ p => rw [if_neg (by simp), ih]; simp

theorem totalBits_bits {α : Type} (l : List α) (f : α → Nat) : totalBits (l.map fun x => (f x, 1)) = l.length := by
  simp [totalBits, Function.comp_def]

/-- A field of a block given as a number. -/
theorem fld_ofNat (v : Nat) {p n : Nat} (h : p + n ≤ 128) : fld (BitVec.ofNat 128 v) p n = v / 2 ^ p % 2 ^ n := by
  refine Nat.eq_of_testBit_eq fun i => ?_
  rw [testBit_fld, BitVec.getLsbD_ofNat, Nat.testBit_mod_two_pow, Nat.testBit_div_two_pow, Nat.add_comm p i]
  by_cases hi : i < n
  · simp [hi, show i + p < 128 by omega]
  · simp [hi]

theorem fld_zero_width (b : Block) (p : Nat) : fld b p 0 = 0 := Nat.mod_one _

/-! ### Where the indices stand (R338) -/

section Indices

variable (ip : Nat) (fix : Nat → Bool)

theorem indexPos_eq_add (start i : Nat) : indexPos start ip fix i = start + indexPos 0 ip fix i := by
  induction i with
  | zero => rfl
  | succ i ih => rw [indexPos, indexPos, ih, Nat.add_assoc]

theorem indexFields_concat (l : List Nat) (k : Nat) :
    indexFields ip fix (l ++ [k]) = indexFields ip fix l ++ [(k, indexWidth ip fix l.length)] := by
  simp [indexFields]

theorem totalBits_indexFields (l : List Nat) : totalBits (indexFields ip fix l) = indexPos 0 ip fix l.length := by
  induction l using List.reverseRecOn with
  | nil => rfl
  | append_singleton l k ih =>
    rw [indexFields_concat, totalBits_append, ih, List.length_append, List.length_singleton, indexPos]
    rfl

/-- Indices read from a block one after the other are packed into the bits they were read from. -/
theorem packFields_indexAt (b : Block) (start n : Nat) :
    packFields (indexFields ip fix ((List.range n).map (indexAt b start ip fix))) = fld b start (indexPos 0 ip fix n) := by
  induction n with
  | zero => exact (fld_zero_width b start).symm
  | succ n ih =>
    rw [List.range_succ, List.map_append, List.map_singleton, indexFields_concat, packFields_append, ih,
      totalBits_indexFields, List.length_map, List.length_range, indexPos, fld_add, ← indexPos_eq_add]
    simp [packFields, indexAt, fld]

/-- Index `i` of a packed list of indices, behind a header of `start` bits. -/
theorem packFields_index {header : List (Nat × Nat)} {l : List Nat} {i : Nat} (hi : i < l.length) :
    packFields (header ++ indexFields ip fix l) / 2 ^ indexPos (totalBits header) ip fix i % 2 ^ indexWidth ip fix i
      = l.getD i 0 % 2 ^ indexWidth ip fix i := by
  have hsplit : indexFields ip fix l = indexFields ip fix (l.take i)
      ++ (l.getD i 0, indexWidth ip fix i) :: (indexFields ip fix l).drop (i + 1) := by
    have hlen : i < (indexFields ip fix l).length := by simpa [indexFields] using hi
    conv_lhs => rw [← List.take_append_drop i (indexFields ip fix l), List.drop_eq_getElem_cons hlen]
    congr 1
    · apply List.ext_getElem <;> simp [indexFields]
    · simp [indexFields, hi]
  have hpos : indexPos (totalBits header) ip fix i = totalBits (header ++ indexFields ip fix (l.take i)) := by
    rw [totalBits_append, totalBits_indexFields, List.length_take, Nat.min_eq_left hi.le, indexPos_eq_add]
  rw [hpos, hsplit, ← List.append_assoc]
  exact packFields_field _ _ _

/-- The place of an index: `ip` bits for each index before it, less one for each fix-up pixel among them. -/
theorem indexPos_add_countP (hip : 1 ≤ ip) (start i : Nat) :
    indexPos start ip fix i + (List.range i).countP fix = start + ip * i := by
  induction i with
  | zero => simp [indexPos]
  | succ i ih =>
    rw [List.range_succ, List.countP_append, List.countP_singleton, indexPos, indexWidth, Nat.mul_succ]
    cases fix i <;> simp <;> omega

end Indices

end Sys2Proof.Machine
end

section
/-! SUPPORT. The header of a BC6H block: which field bit each block bit holds, once for every field bit, so that the scatter of a header and its emission undo each other (45_bc6h_decode.md R334, 46_bc6h_tables.md R382, R383, 47_bc6h_encode.md R413). -/

namespace Sys2Proof.Machine

open Claims

/-! ### The layouts (R382, R383) -/

/-- The bits of a layout: a block bit, the field it belongs to, and the field bit it holds. -/
def headerBits (layout : List BitRun) : List (Nat × Field6H × Nat) :=
  layout.flatMap fun run => (List.range' run.lo (run.hi + 1 - run.lo)).map fun p => (p, run.field, run.fieldBit p)

/-- The bits of each field that a mode stores. -/
def fieldWidth6H (M : Mode6H) : Field6H → Nat
  | .m => if M.sel < 2 then 2 else 5
  | .d => if M.parts = 1 then 5 else 0
  | .ep c e => if e ∈ endpointIds M then prec6H M e c else 0

def fields6H : List Field6H := [.m, .d, rW, gW, bW, rX, gX, bX, rY, gY, bY, rZ, gZ, bZ]

theorem mem_fields6H (f : Field6H) : f ∈ fields6H := by
  cases f with
  | ep c e => cases c <;> cases e <;> decide
  | _ => decide

/-- Every bit of every field that a mode stores. -/
def fieldBits6H (M : Mode6H) : List (Field6H × Nat) := fields6H.flatMap fun f => (List.range (fieldWidth6H M f)).map (f, ·)

/-- The runs of a layout follow one another from block bit 0 to the end of the header. -/
theorem headerBits_positions : ∀ M ∈ modes6H, (headerBits M.layout).map (·.1) = List.range (headerBits6H M) := by decide +kernel

/-- Every bit of every field stands in exactly one place of the header (R383). -/
theorem headerBits_perm : ∀ M ∈ modes6H, ((headerBits M.layout).map (·.2)).Perm (fieldBits6H M) := by decide +kernel

/-- The selector stands in the first bits of the block, in order (R331). -/
theorem selector_mem_headerBits : ∀ M ∈ modes6H, ∀ k < fieldWidth6H M .m, (k, Field6H.m, k) ∈ headerBits M.layout := by decide +kernel

theorem mem_fieldBits6H {M : Mode6H} {f : Field6H} {k : Nat} : (f, k) ∈ fieldBits6H M ↔ k < fieldWidth6H M f := by
  simp [fieldBits6H, mem_fields6H]

theorem fieldBits6H_nodup (M : Mode6H) : (fieldBits6H M).Nodup := by
  refine List.nodup_flatMap.2 ⟨fun f _ => List.nodup_range.map fun _ _ h => (Prod.mk.inj h).2, ?_⟩
  refine (show fields6H.Nodup by decide).imp fun hne => ?_
  simp [Function.onFun, List.disjoint_left, Ne.symm hne]

section Header

variable {M : Mode6H} (hM : M ∈ modes6H)

include hM

theorem headerBits_length : (headerBits M.layout).length = headerBits6H M := by
  simpa using congrArg List.length (headerBits_positions M hM)

theorem headerBits_getElem_fst {p : Nat} (h : p < (headerBits M.layout).length) : ((headerBits M.layout)[p]).1 = p := by
  have hp := List.getElem_of_eq (headerBits_positions M hM) (i := p) (by simpa using h)
  simpa using hp

theorem getElem?_of_mem_headerBits {p : Nat} {f : Field6H} {k : Nat} (h : (p, f, k) ∈ headerBits M.layout) :
    (headerBits M.layout)[p]? = some (p, f, k) := by
  obtain ⟨q, hq, hget⟩ := List.getElem_of_mem h
  have hfst := headerBits_getElem_fst hM hq
  rw [hget] at hfst
  obtain rfl : p = q := hfst
  rw [List.getElem?_eq_getElem hq, hget]

/-- Block bit `p` of the header holds a field bit. -/
theorem exists_mem_headerBits {p : Nat} (hp : p < headerBits6H M) : ∃ f k, (p, f, k) ∈ headerBits M.layout := by
  have hlen : p < (headerBits M.layout).length := hp.trans_eq (headerBits_length hM).symm
  have hmem := List.getElem_mem hlen
  rcases hget : (headerBits M.layout)[p] with ⟨q, f, k⟩
  have hfst := headerBits_getElem_fst hM hlen
  rw [hget] at hfst hmem
  obtain rfl : q = p := hfst
  exact ⟨f, k, hmem⟩

/-- A field has the bits of its width, each in the header. -/
theorem mem_headerBits_iff {f : Field6H} {k : Nat} : (∃ p, (p, f, k) ∈ headerBits M.layout) ↔ k < fieldWidth6H M f := by
  rw [← mem_fieldBits6H, ← (headerBits_perm M hM).mem_iff]
  simp

/-- No field bit stands in two places. -/
theorem headerBits_place_unique {p q : Nat} {f : Field6H} {k : Nat} (hp : (p, f, k) ∈ headerBits M.layout)
    (hq : (q, f, k) ∈ headerBits M.layout) : p = q := by
  have hnodup := (headerBits_perm M hM).nodup_iff.2 (fieldBits6H_nodup M)
  exact congrArg (·.1) (List.inj_on_of_nodup_map hnodup hp hq rfl)

end Header

/-! ### The scatter (R334) -/

theorem testBit_foldl_or {α : Type} (g : α → Nat) (l : List α) (a k : Nat) :
    (l.foldl (fun acc x => acc ||| g x) a).testBit k = (a.testBit k || l.any fun x => (g x).testBit k) := by
  induction l generalizing a with
  | nil => simp
  | cons x xs ih => rw [List.foldl_cons, ih, Nat.testBit_or, List.any_cons, Bool.or_assoc]

theorem testBit_bit_shiftLeft (b : Block) (p j k : Nat) : (bit b p <<< j).testBit k = (b.getLsbD p && decide (k = j)) := by
  rw [bit]
  cases b.getLsbD p
  · simp
  · simp [Nat.one_shiftLeft, Nat.testBit_two_pow, eq_comm]

theorem testBit_runValue (b : Block) (run : BitRun) (k : Nat) : (runValue b run).testBit k = true
    ↔ ∃ p ∈ List.range' run.lo (run.hi + 1 - run.lo), run.fieldBit p = k ∧ b.getLsbD p = true := by
  rw [runValue, testBit_foldl_or, Nat.zero_testBit, Bool.false_or, List.any_eq_true]
  simp only [testBit_bit_shiftLeft, Bool.and_eq_true, decide_eq_true_eq, eq_comm (a := k), and_comm (b := _ = k)]

/-- A bit of a scattered field is set when a block bit that holds it is. -/
theorem testBit_scatter6H (b : Block) (layout : List BitRun) (f : Field6H) (k : Nat) :
    (scatter6H b layout f).testBit k = true ↔ ∃ p, (p, f, k) ∈ headerBits layout ∧ b.getLsbD p = true := by
  have hfold : scatter6H b layout f = layout.foldl (fun acc run => acc ||| if run.field = f then runValue b run else 0) 0 := by
    rw [scatter6H]
    congr 1
    funext acc run
    split <;> simp
  rw [hfold, testBit_foldl_or, Nat.zero_testBit, Bool.false_or, List.any_eq_true]
  simp only [headerBits, List.mem_flatMap, List.mem_map, Prod.mk.injEq]
  constructor
  · rintro ⟨run, hrun, hbit⟩
    split at hbit
    · next hf =>
      obtain ⟨p, hp, hk, hb⟩ := (testBit_runValue b run k).1 hbit
      exact ⟨p, ⟨run, hrun, p, hp, rfl, hf, hk⟩, hb⟩
    · simp at hbit
  · rintro ⟨p, ⟨run, hrun, q, hq, rfl, hf, hk⟩, hb⟩
    exact ⟨run, hrun, by rw [if_pos hf]; exact (testBit_runValue b run k).2 ⟨q, hq, hk, hb⟩⟩

section Scatter

variable {M : Mode6H} (hM : M ∈ modes6H) (b : Block)

include hM

/-- The one block bit that holds a field bit is that bit of the scattered field. -/
theorem testBit_scatter6H_of_mem {p : Nat} {f : Field6H} {k : Nat} (h : (p, f, k) ∈ headerBits M.layout) :
    (scatter6H b M.layout f).testBit k = b.getLsbD p := by
  rw [Bool.eq_iff_iff, testBit_scatter6H]
  constructor
  · rintro ⟨q, hq, hb⟩
    rwa [headerBits_place_unique hM h hq]
  · exact fun hb => ⟨p, h, hb⟩

theorem scatter6H_lt (f : Field6H) : scatter6H b M.layout f < 2 ^ fieldWidth6H M f := by
  refine Nat.lt_pow_two_of_testBit _ fun k hk => ?_
  by_contra hbit
  obtain ⟨p, hp, -⟩ := (testBit_scatter6H b M.layout f k).1 (by simpa using hbit)
  exact absurd ((mem_headerBits_iff hM).1 ⟨p, hp⟩) hk.not_gt

/-! ### The selector (R331, R333) -/

theorem selector6H_eq_iff : selector6H b = M.sel ↔ fld b 0 (fieldWidth6H M .m) = M.sel := by
  have hsel : M.sel < 2 ∨ 2 ≤ M.sel % 4 :=
    (show ∀ M ∈ modes6H, M.sel < 2 ∨ 2 ≤ M.sel % 4 by decide) M hM
  have hlong : fld b 0 5 = fld b 0 2 + 4 * fld b 2 3 := fld_add b 0 2 3
  have hlow := fld_lt b 0 2
  rw [selector6H, fieldWidth6H]
  split_ifs <;> omega

theorem mode6H_sel : mode6H M.sel = some M := (show ∀ M ∈ modes6H, mode6H M.sel = some M by decide) M hM

end Scatter

theorem mode6H_eq_some {sel : Nat} {M : Mode6H} (h : mode6H sel = some M) : M ∈ modes6H ∧ M.sel = sel :=
  ⟨List.mem_of_find?_eq_some h, by simpa using List.find?_some h⟩

/-! ### The emitted header (R413) -/

theorem headerFields_eq (M : Mode6H) (cand : Cand6H) : headerFields M cand =
    (headerBits M.layout).map fun x => (candField M cand x.2.1 >>> x.2.2 % 2, 1) := by
  simp [headerFields, headerBits, List.map_flatMap, Function.comp_def]

section Emission

variable {M : Mode6H} (hM : M ∈ modes6H) (cand : Cand6H)

include hM

theorem totalBits_headerFields : totalBits (headerFields M cand) = headerBits6H M := by
  rw [headerFields_eq, totalBits_bits, headerBits_length hM]

omit hM in
theorem headerBits6H_le : headerBits6H M ≤ 82 := by
  rw [headerBits6H]
  split <;> omega

/-- A header bit of the emitted block is the field bit it holds. -/
theorem emit6H_getLsbD {p : Nat} {f : Field6H} {k : Nat} (h : (p, f, k) ∈ headerBits M.layout) :
    (emit6H M cand).getLsbD p = (candField M cand f).testBit k := by
  have hget := getElem?_of_mem_headerBits hM h
  obtain ⟨hlt, -⟩ := List.getElem?_eq_some_iff.1 hget
  rw [headerBits_length hM] at hlt
  have hH := headerBits6H_le (M := M)
  rw [emit6H, BitVec.getLsbD_ofNat, packFields_testBit_append, totalBits_headerFields hM, if_pos hlt, headerFields_eq,
    show ((headerBits M.layout).map fun x => (candField M cand x.2.1 >>> x.2.2 % 2, 1))
      = ((headerBits M.layout).map fun x => candField M cand x.2.1 >>> x.2.2 % 2).map (·, 1) by simp,
    testBit_packFields_bits, List.getD_eq_getElem?_getD, List.getElem?_map, hget]
  simp [show p < 128 by omega]

/-- The scatter of the emitted block gives back each field, within its width. -/
theorem scatter6H_emit6H (f : Field6H) :
    scatter6H (emit6H M cand) M.layout f = candField M cand f % 2 ^ fieldWidth6H M f := by
  refine Nat.eq_of_testBit_eq fun k => ?_
  rw [Nat.testBit_mod_two_pow]
  by_cases hk : k < fieldWidth6H M f
  · obtain ⟨p, hp⟩ := (mem_headerBits_iff hM).2 hk
    rw [testBit_scatter6H_of_mem hM _ hp, emit6H_getLsbD hM cand hp]
    simp [hk]
  · rw [Nat.testBit_lt_two_pow ((scatter6H_lt hM _ f).trans_le (Nat.pow_le_pow_right (by decide) (by omega)))]
    simp [hk]

end Emission

end Sys2Proof.Machine
end

section
/-! SUPPORT. The shape and the indices of a BC6H block, and the block of the candidate that a block holds (45_bc6h_decode.md R338, 46_bc6h_tables.md R383, R385). -/

namespace Sys2Proof.Machine

open Claims

/-! ### Fix-up pixels (R338, R385) -/

theorem fixup2_range : ∀ shape < 64, 1 ≤ fixup2 shape ∧ fixup2 shape ≤ 15 := by decide +kernel

/-- A shape that the mode can store. -/
def shapeFits (M : Mode6H) (shape : Nat) : Prop := if M.parts = 1 then shape < 32 else shape = 0

theorem shapeFits.fixup2_le {M : Mode6H} {shape : Nat} (h : shapeFits M shape) :
    M.parts = 1 → 1 ≤ fixup2 shape ∧ fixup2 shape ≤ 15 := by
  intro hparts
  rw [shapeFits, if_pos hparts] at h
  exact fixup2_range shape (by omega)

theorem isFixup6H_iff (parts shape i : Nat) : isFixup6H parts shape i = true ↔ i = 0 ∨ (parts = 1 ∧ i = fixup2 shape) := by
  simp [isFixup6H]

/-- The fix-up pixels before pixel `i`: pixel 0, and that of the second region. -/
theorem countP_isFixup6H {parts shape : Nat} (h : parts = 1 → 1 ≤ fixup2 shape) (i : Nat) :
    (List.range i).countP (isFixup6H parts shape)
      = (if 0 < i then 1 else 0) + if parts = 1 ∧ fixup2 shape < i then 1 else 0 := by
  induction i with
  | zero => simp
  | succ i ih =>
    simp only [List.range_succ, List.countP_append, ih, List.countP_singleton, isFixup6H_iff]
    split_ifs <;> omega

theorem modes6H_ip_parts : ∀ M ∈ modes6H, (M.parts = 1 ∧ M.ip = 3) ∨ (M.parts = 0 ∧ M.ip = 4) := by decide

section Blocks

variable {M : Mode6H} (hM : M ∈ modes6H)

include hM

theorem one_le_ip : 1 ≤ M.ip := by
  have hip := modes6H_ip_parts M hM
  omega

/-- Header and indices fill the block (R383). -/
theorem indexPos_last {shape : Nat} (h : shapeFits M shape) :
    indexPos (headerBits6H M) M.ip (isFixup6H M.parts shape) 16 = 128 := by
  have hfix := h.fixup2_le
  have hpos := indexPos_add_countP M.ip (isFixup6H M.parts shape) (one_le_ip hM) (headerBits6H M) 16
  rw [countP_isFixup6H fun hp => (hfix hp).1, headerBits6H] at hpos
  rw [headerBits6H]
  rcases modes6H_ip_parts M hM with ⟨hparts, hip⟩ | ⟨hparts, hip⟩ <;> rw [hip] at hpos ⊢
  · have := hfix hparts
    split_ifs at hpos ⊢ <;> omega
  · split_ifs at hpos ⊢ <;> omega

/-- An index lies within the block. -/
theorem indexPos_add_width_le {shape i : Nat} (h : shapeFits M shape) (hi : i < 16) :
    indexPos (headerBits6H M) M.ip (isFixup6H M.parts shape) i + indexWidth M.ip (isFixup6H M.parts shape) i ≤ 128 := by
  have hmono : Monotone (indexPos (headerBits6H M) M.ip (isFixup6H M.parts shape)) :=
    monotone_nat_of_le_succ fun j => Nat.le_add_right _ _
  exact (hmono (Nat.succ_le_of_lt hi)).trans_eq (indexPos_last hM h)

theorem shape6H_fits (b : Block) : shapeFits M (shape6H M b) := by
  rw [shapeFits, shape6H]
  split
  · next hparts =>
    have hlt := scatter6H_lt hM b .d
    rwa [fieldWidth6H, if_pos hparts] at hlt
  · rfl

/-! ### Emission of what a block holds (R413) -/

/-- The fields that the candidate of a block holds are those its header scatters. -/
theorem candField_heldCandidate {b : Block} (hsel : selector6H b = M.sel) {p : Nat} {f : Field6H} {k : Nat}
    (h : (p, f, k) ∈ headerBits M.layout) : (candField M (heldCandidate M b) f).testBit k = b.getLsbD p := by
  have hk : k < fieldWidth6H M f := (mem_headerBits_iff hM).1 ⟨p, h⟩
  have hscatter := testBit_scatter6H_of_mem hM b h
  cases f with
  | m =>
    obtain rfl := headerBits_place_unique hM h (selector_mem_headerBits M hM k hk)
    rw [candField, ← (selector6H_eq_iff hM b).1 hsel, testBit_fld, Nat.zero_add, decide_eq_true hk, Bool.true_and]
  | d =>
    have hparts : M.parts = 1 := by
      by_contra hne
      simp [fieldWidth6H, hne] at hk
    rw [candField, heldCandidate, shape6H, if_pos hparts, hscatter]
  | ep c e =>
    have hfield : candField M (heldCandidate M b) (.ep c e) = scatter6H b M.layout (.ep c e) % 2 ^ prec6H M e c := by
      have hcomp : comp ((heldCandidate M b).stored e) c = (scatter6H b M.layout (.ep c e) : Int) := by cases c <;> rfl
      rw [candField, hcomp]
      norm_cast
    have hprec : k < prec6H M e c := by
      rw [fieldWidth6H] at hk
      split at hk <;> omega
    rw [hfield, Nat.testBit_mod_two_pow, decide_eq_true hprec, Bool.true_and, hscatter]

end Blocks

/-- Settles O34: a header bit by `candField_heldCandidate`; the index bits because indices read one after the other pack into the bits they were read from. -/
theorem bc6hEmissionInvertsDecoding : Obligations.Bc6hEmissionInvertsDecoding := by
  intro M b hmode
  obtain ⟨hM, hsel⟩ := mode6H_eq_some hmode
  apply BitVec.eq_of_getLsbD_eq
  intro p hp
  by_cases hheader : p < headerBits6H M
  · obtain ⟨f, k, hmem⟩ := exists_mem_headerBits hM hheader
    rw [emit6H_getLsbD hM _ hmem, candField_heldCandidate hM hsel.symm hmem]
  · have hindices : packFields (indexFields M.ip (isFixup6H M.parts (shape6H M b)) ((List.range 16).map (index6H M b)))
        = fld b (headerBits6H M) (indexPos 0 M.ip (isFixup6H M.parts (shape6H M b)) 16) := packFields_indexAt ..
    have hlast := indexPos_last hM (shape6H_fits hM b)
    rw [indexPos_eq_add] at hlast
    rw [emit6H, BitVec.getLsbD_ofNat, packFields_testBit_append, totalBits_headerFields hM, if_neg hheader, heldCandidate,
      hindices, testBit_fld, Nat.add_sub_of_le (by omega)]
    simp [hp, show p - headerBits6H M < indexPos 0 M.ip (isFixup6H M.parts (shape6H M b)) 16 by omega]

end Sys2Proof.Machine
end

section
/-! SUPPORT. What the decoder reads from the block of a candidate: selector, shape, indices and endpoints (47_bc6h_encode.md R410, R413, R423). -/

namespace Sys2Proof.Machine

open Claims

/-! ### Numbers of a given width (R336, R410) -/

/-- A number in the range of `n` bits of two's complement is read back from its low bits. -/
theorem sext_of_range {n : Nat} (hn : 1 ≤ n) {v x : Int} (hx : x % 2 ^ n = v % 2 ^ n) (hlo : -2 ^ (n - 1) ≤ v)
    (hhi : v < 2 ^ (n - 1)) : sext n x = v := by
  obtain ⟨m, rfl⟩ := Nat.exists_eq_add_of_le' hn
  rw [Nat.add_sub_cancel] at hlo hhi
  rw [sext, hx, Nat.add_sub_cancel, pow_succ]
  generalize (2 : Int) ^ m = q at hlo hhi
  rcases lt_or_ge v 0 with hneg | hpos
  · have hmod : v % (q * 2) = v + q * 2 := by
      rw [← Int.add_mul_emod_self_left v (q * 2) 1, Int.emod_eq_of_lt] <;> omega
    rw [hmod, if_pos (by omega)]
    omega
  · rw [Int.emod_eq_of_lt hpos (by omega), if_neg (by omega)]

theorem fitsField_twos {n : Nat} {v : Int} : fitsField true n v = true ↔ -2 ^ (n - 1) ≤ v ∧ v < 2 ^ (n - 1) := by
  simp [fitsField]

theorem fitsField_unsigned {n : Nat} {v : Int} : fitsField false n v = true ↔ 0 ≤ v ∧ v < 2 ^ n := by
  simp [fitsField]

/-- A number that fits a field is read back from the field, sign-extended where the field is two's complement. -/
theorem read_of_fitsField {twos : Bool} {n : Nat} (hn : 1 ≤ n) {v : Int} (h : fitsField twos n v = true) :
    (if twos then sext n (v % 2 ^ n) else v % 2 ^ n) = v := by
  cases twos with
  | true =>
    obtain ⟨hlo, hhi⟩ := fitsField_twos.1 h
    exact sext_of_range hn (Int.emod_emod_of_dvd _ dvd_rfl) hlo hhi
  | false =>
    obtain ⟨hlo, hhi⟩ := fitsField_unsigned.1 h
    exact Int.emod_eq_of_lt hlo hhi

theorem modes6H_precisions : ∀ M ∈ modes6H, ∀ e ∈ [EndpointId.w, .x, .y, .z], ∀ c ∈ [Comp.r, .g, .b],
    1 ≤ prec6H M e c ∧ 1 ≤ comp M.precW c := by decide

section Read

variable {M : Mode6H} (hM : M ∈ modes6H) (cand : Cand6H)

include hM

theorem one_le_prec6H (e : EndpointId) (c : Comp) : 1 ≤ prec6H M e c ∧ 1 ≤ comp M.precW c :=
  modes6H_precisions M hM e (by cases e <;> decide) c (by cases c <;> decide)

/-- The emitted block has the mode's selector. -/
theorem selector6H_emit6H : selector6H (emit6H M cand) = M.sel := by
  rw [selector6H_eq_iff hM]
  refine Nat.eq_of_testBit_eq fun k => ?_
  rw [testBit_fld, Nat.zero_add]
  by_cases hk : k < fieldWidth6H M .m
  · rw [emit6H_getLsbD hM cand (selector_mem_headerBits M hM k hk), decide_eq_true hk, Bool.true_and, candField]
  · have hsel : M.sel < 2 ^ fieldWidth6H M .m := (show ∀ M ∈ modes6H, M.sel < 2 ^ fieldWidth6H M .m by decide) M hM
    rw [decide_eq_false hk, Bool.false_and,
      Nat.testBit_lt_two_pow (hsel.trans_le (Nat.pow_le_pow_right (by decide) (by omega)))]

theorem shape6H_emit6H (h : shapeFits M cand.shape) : shape6H M (emit6H M cand) = cand.shape := by
  rw [shape6H]
  by_cases hparts : M.parts = 1
  · rw [shapeFits, if_pos hparts] at h
    rw [if_pos hparts, scatter6H_emit6H hM, fieldWidth6H, if_pos hparts]
    exact Nat.mod_eq_of_lt h
  · rw [shapeFits, if_neg hparts] at h
    rw [if_neg hparts, h]

/-- The indices of the emitted block, each within its width. -/
theorem index6H_emit6H (hshape : shapeFits M cand.shape) (hlen : cand.indices.length = 16) {i : Nat} (hi : i < 16) :
    index6H M (emit6H M cand) i = cand.indices.getD i 0 % 2 ^ indexWidth M.ip (isFixup6H M.parts cand.shape) i := by
  have hpack := packFields_index M.ip (isFixup6H M.parts cand.shape) (header := headerFields M cand) (hi.trans_eq hlen.symm)
  have hfits := indexPos_add_width_le hM hshape hi
  rw [totalBits_headerFields hM] at hpack
  rw [index6H, indexAt, shape6H_emit6H hM cand hshape, emit6H, fld_ofNat _ hfits, hpack]

/-- The stored endpoint components of the emitted block, where they fit (R410). -/
theorem stored6H_emit6H {sg : Bool} (hfits : fits6H M sg cand = true) {e : EndpointId} (he : e ∈ endpointIds M) (c : Comp) :
    stored6H M (emit6H M cand) sg e c = comp (cand.stored e) c := by
  have hfit : fitsField (sg || (e != .w && M.tr)) (prec6H M e c) (comp (cand.stored e) c) = true := by
    have hall := List.all_eq_true.1 hfits e he
    exact List.all_eq_true.1 hall c (by cases c <;> simp)
  have hraw : (scatter6H (emit6H M cand) M.layout (.ep c e) : Int) = comp (cand.stored e) c % 2 ^ prec6H M e c := by
    have hnonneg : 0 ≤ comp (cand.stored e) c % 2 ^ prec6H M e c := Int.emod_nonneg _ (by positivity)
    rw [scatter6H_emit6H hM, fieldWidth6H, if_pos he, candField]
    push_cast
    rw [Int.toNat_of_nonneg hnonneg, Int.emod_emod_of_dvd _ dvd_rfl]
  rw [← read_of_fitsField (one_le_prec6H hM e c).1 hfit, stored6H]
  simp only [hraw, Bool.or_eq_true, Bool.and_eq_true, bne_iff_ne]

end Read

theorem comp_map₂_sub (s t : IntColor) (c : Comp) : comp (Triple.map₂ (· - ·) s t) c = comp s c - comp t c := by
  cases c <;> rfl

/-- The endpoint is the anchor plus the stored difference, modulo the anchor's width (R337). -/
theorem comp_transform6H (M : Mode6H) (E : EndpointId → IntColor) (e : EndpointId) (c : Comp) :
    comp (transform6H M E e) c = if e ≠ .w ∧ M.tr then comp (E e) c - comp (E .w) c else comp (E e) c := by
  rw [transform6H]
  split
  · exact comp_map₂_sub ..
  · rfl

theorem anchor_mem_endpointIds (M : Mode6H) : EndpointId.w ∈ endpointIds M := by
  rw [endpointIds]
  split <;> simp

/-- Settles O35: selector, shape and indices by the emitted fields; an endpoint that is stored as a difference is recovered modulo the anchor's width, in whose range it lies. -/
theorem bc6hDecodingInvertsEmission : Obligations.Bc6hDecodingInvertsEmission := by
  intro M sg shape E idx hM hshape hlen hidx hrange hfits b
  have hshapeFits : shapeFits M shape := hshape
  have hstored (e : EndpointId) (he : e ∈ endpointIds M) (c : Comp) :
      stored6H M b sg e c = if e ≠ .w ∧ M.tr then comp (E e) c - comp (E .w) c else comp (E e) c := by
    rw [← comp_transform6H]
    exact stored6H_emit6H hM _ hfits he c
  refine ⟨by rw [selector6H_emit6H hM, mode6H_sel hM], shape6H_emit6H hM _ hshapeFits, fun i hi => ?index,
    fun e he c => ⟨hstored e he c, ?endpoint⟩⟩
  case index =>
    have hlt := hidx i hi
    simp only [← isFixup6H_iff M.parts shape i] at hlt
    rw [index6H_emit6H hM _ hshapeFits hlen hi, indexWidth]
    refine Nat.mod_eq_of_lt (hlt.trans_eq ?_)
    split <;> rfl
  case endpoint =>
    have hn := (one_le_prec6H hM e c).2
    have hin := hrange e he c
    rw [endpoint6H]
    split
    · next hdelta =>
      have hsum : stored6H M b sg e c + stored6H M b sg .w c = comp (E e) c := by
        rw [hstored e he, hstored .w (anchor_mem_endpointIds M), if_pos hdelta, if_neg (by simp)]
        omega
      rw [hsum]
      cases sg with
      | true => exact sext_of_range hn (Int.emod_emod_of_dvd _ dvd_rfl) hin.1 hin.2
      | false => exact Int.emod_eq_of_lt hin.1 hin.2
    · next hdirect => rw [hstored e he, if_neg hdirect]

end Sys2Proof.Machine
end

section
/-! SUPPORT. The range of a BC6H palette integer, step by step: endpoint, unquantised endpoint, interpolation, rescale; and the statements on it (45_bc6h_decode.md R337 to R344, 46_bc6h_tables.md R386). -/

namespace Sys2Proof.Machine

open Claims

/-! ### Interpolation (R341, R386) -/

/-- The weights of the indices at equal distance from the two ends make up 64. -/
theorem weight_add_weight {ip k : Nat} (hip : ip = 3 ∨ ip = 4) (hk : k < 2 ^ ip) :
    weight ip k + weight ip (2 ^ ip - 1 - k) = 64 := by
  obtain rfl | rfl := hip
  · exact (show ∀ k < 2 ^ 3, weight 3 k + weight 3 (2 ^ 3 - 1 - k) = 64 by decide) k hk
  · exact (show ∀ k < 2 ^ 4, weight 4 k + weight 4 (2 ^ 4 - 1 - k) = 64 by decide) k hk

theorem interp6H_swap (a b : Int) {w w' : Nat} (h : w + w' = 64) : interp6H a b w = interp6H b a w' := by
  obtain rfl : w' = 64 - w := by omega
  rw [interp6H, interp6H, Nat.cast_sub (by omega)]
  congr 1
  push_cast
  ring

/-- Settles O36: `interp6H_swap` on the unquantised endpoints. -/
theorem endpointSwapWithComplementIsNeutral : Obligations.EndpointSwapWithComplementIsNeutral := by
  intro signed n ip k a b hip hk
  rw [paletteInt, paletteInt, interp6H_swap _ _ (weight_add_weight hip hk)]

theorem weight_le (ip k : Nat) : weight ip k ≤ 64 := by
  have htables : ∀ l ∈ [weights2, weights3, weights4], ∀ x ∈ l, x ≤ 64 := by decide
  have hgetD {l : List Nat} (hl : l ∈ [weights2, weights3, weights4]) : l.getD k 0 ≤ 64 := by
    rcases lt_or_ge k l.length with hk | hk
    · rw [List.getD_eq_getElem _ _ hk]
      exact htables l hl _ (List.getElem_mem hk)
    · rw [List.getD_eq_default _ _ hk]
      omega
  rw [weight]
  split_ifs <;> exact hgetD (by simp)

/-- Interpolation stays between bounds of its endpoints. -/
theorem interp6H_range {lo hi a b : Int} (ha : lo ≤ a ∧ a ≤ hi) (hb : lo ≤ b ∧ b ≤ hi) {w : Nat} (hw : w ≤ 64) :
    lo ≤ interp6H a b w ∧ interp6H a b w ≤ hi := by
  have hw0 : (0 : Int) ≤ w := Int.natCast_nonneg w
  have hw1 : (0 : Int) ≤ 64 - w := by omega
  have hlow : lo * 64 ≤ a * (64 - w) + b * w := by
    linarith [mul_le_mul_of_nonneg_right ha.1 hw1, mul_le_mul_of_nonneg_right hb.1 hw0]
  have hhigh : a * (64 - w) + b * w ≤ hi * 64 := by
    linarith [mul_le_mul_of_nonneg_right ha.2 hw1, mul_le_mul_of_nonneg_right hb.2 hw0]
  rw [interp6H]
  omega

/-! ### Unquantising (R339, R340) -/

theorem unquantU_range {v : Int} {n : Nat} (hn : n ≤ 16) (hlo : 0 ≤ v) (hhi : v < 2 ^ n) :
    0 ≤ unquantU v n ∧ unquantU v n ≤ 0xFFFF := by
  have hpow : (2 : Int) ^ n ≤ 2 ^ 16 := pow_le_pow_right₀ (by decide) hn
  have hpos : (0 : Int) < 2 ^ n := by positivity
  rw [unquantU]
  split_ifs with hwide hzero hlast
  · omega
  · omega
  · omega
  · refine ⟨Int.ediv_nonneg (by omega) hpos.le, Int.lt_add_one_iff.1 (Int.ediv_lt_of_lt_mul hpos ?_)⟩
    omega

/-- The magnitude that a magnitude unquantises to below 16 bits of precision (R340). -/
def unquantMagnitude (a : Int) (n : Nat) : Int :=
  if a = 0 then 0 else if 2 ^ (n - 1) - 1 ≤ a then 0x7FFF else (a * 2 ^ 15 + 0x4000) / 2 ^ (n - 1)

theorem unquantS_narrow (v : Int) {n : Nat} (hn : n < 16) :
    unquantS v n = if v < 0 then -unquantMagnitude |v| n else unquantMagnitude |v| n := by
  rw [unquantS, if_neg (by omega)]
  rfl

theorem unquantMagnitude_range {a : Int} (ha : 0 ≤ a) (n : Nat) :
    0 ≤ unquantMagnitude a n ∧ unquantMagnitude a n ≤ 0x7FFF := by
  have hpos : (0 : Int) < 2 ^ (n - 1) := by positivity
  rw [unquantMagnitude]
  split_ifs with hzero hlast
  · omega
  · omega
  · refine ⟨Int.ediv_nonneg (by omega) hpos.le, Int.lt_add_one_iff.1 (Int.ediv_lt_of_lt_mul hpos ?_)⟩
    omega

/-- Below 16 bits of precision every signed value unquantises to at most `0x7FFF` in magnitude. -/
theorem unquantS_range_narrow (v : Int) {n : Nat} (hn : n < 16) : -0x7FFF ≤ unquantS v n ∧ unquantS v n ≤ 0x7FFF := by
  have hmag := unquantMagnitude_range (abs_nonneg v) n
  rw [unquantS_narrow v hn]
  split_ifs <;> omega

theorem unquantS_wide (v : Int) : unquantS v 16 = v := if_pos (by decide)

/-! ### Endpoints (R336, R337) -/

theorem sext_range {n : Nat} (hn : 1 ≤ n) (v : Int) : -2 ^ (n - 1) ≤ sext n v ∧ sext n v < 2 ^ (n - 1) := by
  obtain ⟨m, rfl⟩ := Nat.exists_eq_add_of_le' hn
  have hpos : (0 : Int) < 2 ^ (m + 1) := by positivity
  have hlow := Int.emod_nonneg v hpos.ne'
  have hhigh := Int.emod_lt_of_pos v hpos
  rw [sext, Nat.add_sub_cancel]
  rw [pow_succ] at hlow hhigh ⊢
  generalize (2 : Int) ^ m = q at *
  split_ifs <;> omega

/-- Where endpoints are not differences they are all stored in the anchor's width. -/
theorem modes6H_prec : ∀ M ∈ modes6H, ∀ e ∈ [EndpointId.w, .x, .y, .z], ∀ c ∈ [Comp.r, .g, .b],
    (e = .w ∨ M.tr = false → prec6H M e c = comp M.precW c)
      ∧ (comp M.precW c < 16 ∨ (comp M.precW c = 16 ∧ M.num = 14 ∧ M.parts = 0)) := by decide

section Endpoints

variable {M : Mode6H} (hM : M ∈ modes6H) (b : Block)

include hM

theorem prec6H_direct {e : EndpointId} (c : Comp) (h : ¬ (e ≠ .w ∧ M.tr = true)) : prec6H M e c = comp M.precW c := by
  refine (modes6H_prec M hM e (by cases e <;> decide) c (by cases c <;> decide)).1 ?_
  by_contra hne
  simp only [not_or, Bool.not_eq_false] at hne
  exact h hne

theorem precW_cases (c : Comp) : comp M.precW c < 16 ∨ (comp M.precW c = 16 ∧ M.num = 14 ∧ M.parts = 0) :=
  (modes6H_prec M hM .w (by decide) c (by cases c <;> decide)).2

/-- A decoded endpoint of the unsigned format is in the range of the anchor's width. -/
theorem endpoint6H_range_unsigned (e : EndpointId) (c : Comp) :
    0 ≤ endpoint6H M b false e c ∧ endpoint6H M b false e c < 2 ^ comp M.precW c := by
  have hpos : (0 : Int) < 2 ^ comp M.precW c := by positivity
  rw [endpoint6H]
  split
  · exact ⟨Int.emod_nonneg _ hpos.ne', Int.emod_lt_of_pos _ hpos⟩
  · next hdirect =>
    have hlt : scatter6H b M.layout (.ep c e) < 2 ^ comp M.precW c := by
      refine (scatter6H_lt hM b _).trans_le (Nat.pow_le_pow_right (by decide) ?_)
      rw [fieldWidth6H, ← prec6H_direct hM c hdirect]
      split <;> omega
    rw [stored6H, if_neg (by simpa using hdirect)]
    exact ⟨Int.natCast_nonneg _, by exact_mod_cast hlt⟩

/-- A decoded endpoint of the signed format is in the range of the anchor's width. -/
theorem endpoint6H_range_signed (e : EndpointId) (c : Comp) :
    -2 ^ (comp M.precW c - 1) ≤ endpoint6H M b true e c ∧ endpoint6H M b true e c < 2 ^ (comp M.precW c - 1) := by
  have hprec := one_le_prec6H hM e c
  rw [endpoint6H]
  split
  · exact sext_range hprec.2 _
  · next hdirect =>
    rw [stored6H, if_pos (.inl rfl), ← prec6H_direct hM c hdirect]
    exact sext_range hprec.1 _

/-! ### Palette integers (R342, R344) -/

theorem unquant_range_unsigned (e : EndpointId) (c : Comp) :
    0 ≤ unquant false (endpoint6H M b false e c) (comp M.precW c)
      ∧ unquant false (endpoint6H M b false e c) (comp M.precW c) ≤ 0xFFFF := by
  obtain ⟨hlo, hhi⟩ := endpoint6H_range_unsigned hM b e c
  have hn := precW_cases hM c
  exact unquantU_range (by omega) hlo hhi

/-- In the signed format `-0x8000` arises from the endpoint component -2^15 of mode 14 alone. -/
theorem unquant_range_signed (e : EndpointId) (c : Comp) :
    let u := unquant true (endpoint6H M b true e c) (comp M.precW c)
    (-0x7FFF ≤ u ∧ u ≤ 0x7FFF) ∨ (u = -0x8000 ∧ M.num = 14 ∧ M.parts = 0 ∧ endpoint6H M b true e c = -2 ^ 15) := by
  obtain ⟨hlo, hhi⟩ := endpoint6H_range_signed hM b e c
  rcases precW_cases hM c with hn | ⟨hn, hnum, hparts⟩
  · exact .inl (unquantS_range_narrow _ hn)
  · rw [hn] at hlo hhi ⊢
    simp only [unquant, if_true, unquantS_wide]
    norm_num at hlo hhi ⊢
    omega

theorem unquant_bounds_signed (e : EndpointId) (c : Comp) :
    -0x8000 ≤ unquant true (endpoint6H M b true e c) (comp M.precW c)
      ∧ unquant true (endpoint6H M b true e c) (comp M.precW c) ≤ 0x7FFF := by
  rcases unquant_range_signed hM b e c with h | ⟨h, -⟩ <;> omega

end Endpoints

/-- The rescale of the signed format, at the least interpolated value and above it (R342). -/
theorem rescale6H_signed_range {t : Int} (hlo : -0x8000 ≤ t) (hhi : t ≤ 0x7FFF) :
    -0x7C00 ≤ rescale6H true t ∧ rescale6H true t ≤ 0x7BFF ∧ (rescale6H true t = -0x7C00 → t = -0x8000) := by
  simp only [rescale6H, if_true]
  split_ifs <;> omega

/-- Settles O33: the interpolation stays in the range of the unquantised endpoints; `-0x7C00` needs the least interpolated value, hence an unquantised endpoint that is least. -/
theorem bc6hHalvesAreInRange : Obligations.Bc6hHalvesAreInRange := by
  intro M b i c hmode
  obtain ⟨hM, -⟩ := mode6H_eq_some hmode
  have hw := weight_le M.ip (index6H M b i)
  refine ⟨?unsigned, ?signed⟩
  case unsigned =>
    simp only [pixelInt6H, paletteInt, rescale6H]
    have ht := interp6H_range (unquant_range_unsigned hM b (if region6H M.parts (shape6H M b) i = 1 then .y else .w) c)
      (unquant_range_unsigned hM b (if region6H M.parts (shape6H M b) i = 1 then .z else .x) c) hw
    simp only [Bool.false_eq_true, if_false]
    omega
  case signed =>
    simp only [pixelInt6H, paletteInt]
    have ht := interp6H_range (unquant_bounds_signed hM b (if region6H M.parts (shape6H M b) i = 1 then .y else .w) c)
      (unquant_bounds_signed hM b (if region6H M.parts (shape6H M b) i = 1 then .z else .x) c) hw
    obtain ⟨hlow, hhigh, hleast⟩ := rescale6H_signed_range ht.1 ht.2
    refine ⟨hhigh, hlow, fun heq => ?_⟩
    have hminimal := hleast heq
    have hendpoint {e e' : EndpointId} (h : M.num = 14 ∧ M.parts = 0
        ∧ endpoint6H M b true (if region6H M.parts (shape6H M b) i = 1 then e' else e) c = -2 ^ 15)
        (he : e ∈ endpointIds M) : M.num = 14 ∧ ∃ e ∈ endpointIds M, endpoint6H M b true e c = -2 ^ 15 := by
      obtain ⟨hnum, hparts, hend⟩ := h
      rw [if_neg (by simp [region6H, hparts])] at hend
      exact ⟨hnum, e, he, hend⟩
    have hw' : EndpointId.w ∈ endpointIds M := anchor_mem_endpointIds M
    have hx : EndpointId.x ∈ endpointIds M := by rw [endpointIds]; split <;> simp
    rcases unquant_range_signed hM b (if region6H M.parts (shape6H M b) i = 1 then .y else .w) c with hA | ⟨-, hA⟩
    · rcases unquant_range_signed hM b (if region6H M.parts (shape6H M b) i = 1 then .z else .x) c with hB | ⟨-, hB⟩
      · have hinner := interp6H_range hA hB hw
        omega
      · exact hendpoint hB hx
    · exact hendpoint hA hw'

end Sys2Proof.Machine
end

section
/-! SUPPORT. The fields of a BC6H block in the words of the statements: a header field as the sum of its bits, each at its weight, and the endpoints and indices made of the fields (45_bc6h_decode.md R331 to R340). -/

namespace Sys2Proof.Machine

open Claims

/-! ### Sums of bits -/

theorem mod_two_pow_eq_sum_bits (x n : Nat) :
    x % 2 ^ n = ((List.range n).map fun k => (x.testBit k).toNat * 2 ^ k).sum := by
  induction n with
  | zero => simp [Nat.mod_one]
  | succ n ih =>
    rw [List.range_succ, List.map_append, List.sum_append, ← ih, Nat.mod_pow_succ, ← Nat.toNat_testBit]
    simp [Nat.mul_comm]

theorem State.blkBit_eq (s : State) {p : Nat} (hp : p < 128) : blkBit s.blk p = s.block.getLsbD p :=
  (s.block_getLsbD hp).symm

/-- A field of the statements is the field of the block register (R11). -/
theorem State.bitsAt_eq_fld (s : State) {p n : Nat} (h : p + n ≤ 128) : bitsAt s p n = fld s.block p n := by
  have hmod : fld s.block p n % 2 ^ n = fld s.block p n := Nat.mod_eq_of_lt (fld_lt ..)
  rw [bitsAt, ← hmod, mod_two_pow_eq_sum_bits]
  refine congrArg List.sum (List.map_congr_left fun k hk => ?_)
  have hlt := List.mem_range.1 hk
  rw [testBit_fld, decide_eq_true hlt, Bool.true_and, s.blkBit_eq (by omega)]

theorem sum_flatMap {α β : Type} (l : List α) (g : α → List β) (h : β → Nat) :
    ((l.flatMap g).map h).sum = (l.map fun x => ((g x).map h).sum).sum := by
  induction l with
  | nil => rfl
  | cons x xs ih => rw [List.flatMap_cons, List.map_append, List.sum_append, ih, List.map_cons, List.sum_cons]

theorem sum_map_ite_zero {α : Type} (l : List α) (c : Prop) [Decidable c] (h : α → Nat) :
    (l.map fun x => if c then h x else 0).sum = if c then (l.map h).sum else 0 := by
  split <;> simp

/-! ### The header -/

/-- The field of the statements, bit by bit of the layout. -/
theorem bc6Field_eq_sum (s : State) (M : Mode6H) (f : Field6H) : bc6Field s M f =
    ((headerBits M.layout).map fun x => if x.2.1 = f then (blkBit s.blk x.1).toNat * 2 ^ x.2.2 else 0).sum := by
  rw [headerBits, sum_flatMap, bc6Field]
  refine congrArg List.sum (List.map_congr_left fun run _ => ?_)
  rw [List.map_map, List.range'_eq_map_range, List.map_map]
  simp only [Function.comp_def, sum_map_ite_zero, BitRun.fieldBit, Nat.add_sub_cancel_left]

section Header

variable {M : Mode6H} (hM : M ∈ modes6H) (s : State)

include hM

/-- The sum of a field's bits at their weights is the scattered field: every bit of the field stands in one place. -/
theorem bc6Field_eq_scatter6H (f : Field6H) : bc6Field s M f = scatter6H s.block M.layout f := by
  have hbits (x : Nat × Field6H × Nat) (hx : x ∈ headerBits M.layout) :
      (if x.2.1 = f then (blkBit s.blk x.1).toNat * 2 ^ x.2.2 else 0)
        = if x.2.1 = f then ((scatter6H s.block M.layout f).testBit x.2.2).toNat * 2 ^ x.2.2 else 0 := by
    obtain ⟨p, g, k⟩ := x
    refine if_ctx_congr Iff.rfl (fun hg => ?_) fun _ => rfl
    obtain rfl : g = f := hg
    have hp : p < headerBits6H M := by
      obtain ⟨hlt, -⟩ := List.getElem?_eq_some_iff.1 (getElem?_of_mem_headerBits hM hx)
      rwa [headerBits_length hM] at hlt
    have hH := headerBits6H_le (M := M)
    rw [testBit_scatter6H_of_mem hM s.block hx, s.blkBit_eq (by simp only; omega)]
  calc bc6Field s M f
    _ = ((headerBits M.layout).map fun x =>
          if x.2.1 = f then ((scatter6H s.block M.layout f).testBit x.2.2).toNat * 2 ^ x.2.2 else 0).sum := by
      rw [bc6Field_eq_sum, List.map_congr_left hbits]
    _ = ((fieldBits6H M).map fun x =>
          if x.1 = f then ((scatter6H s.block M.layout f).testBit x.2).toNat * 2 ^ x.2 else 0).sum := by
      rw [← ((headerBits_perm M hM).map _).sum_nat, List.map_map]
      rfl
    _ = (fields6H.map fun g => if g = f then scatter6H s.block M.layout f % 2 ^ fieldWidth6H M g else 0).sum := by
      rw [fieldBits6H, sum_flatMap]
      refine congrArg List.sum (List.map_congr_left fun g _ => ?_)
      rw [List.map_map, mod_two_pow_eq_sum_bits, ← sum_map_ite_zero]
      rfl
    _ = scatter6H s.block M.layout f := by
      rw [List.sum_map_eq_nsmul_single f _ fun g hg _ => if_neg hg,
        List.count_eq_one_of_mem (by decide) (mem_fields6H f), if_pos rfl, Nat.mod_eq_of_lt (scatter6H_lt hM _ f), one_smul]

theorem bc6Shape_eq : bc6Shape s M = shape6H M s.block := by
  rw [bc6Shape, shape6H, bc6Field_eq_scatter6H hM]

/-! ### Endpoints (R336, R337) -/

omit hM in
theorem sext_eq_wrapSigned {n : Nat} (hn : 1 ≤ n) (v : Int) : sext n v = wrapSigned n v := by
  obtain ⟨m, rfl⟩ := Nat.exists_eq_add_of_le' hn
  have hpos : (0 : Int) < 2 ^ (m + 1) := by positivity
  have hlow := Int.emod_nonneg v hpos.ne'
  have hhigh := Int.emod_lt_of_pos v hpos
  rw [sext, wrapSigned, Nat.add_sub_cancel, ← Int.emod_add_emod v]
  rw [pow_succ] at hlow hhigh ⊢
  generalize (2 : Int) ^ m = q at *
  generalize v % (q * 2) = r at *
  split_ifs
  · rw [← Int.sub_emod_right, Int.emod_eq_of_lt] <;> omega
  · rw [Int.emod_eq_of_lt] <;> omega

omit hM in
theorem wrapSigned_emod (n : Nat) (v : Int) : wrapSigned n (v % 2 ^ n) = wrapSigned n v := by
  rw [wrapSigned, wrapSigned, Int.emod_add_emod]

theorem bc6Stored_eq (signed : Bool) (e : EndpointId) (c : Comp) :
    bc6Stored s M signed e c = stored6H M s.block signed e c := by
  have hprec : comp (if e = .w then M.precW else M.precX) c = prec6H M e c := by
    rw [prec6H]
    split <;> rfl
  rw [bc6Stored, stored6H, bc6Field_eq_scatter6H hM, hprec, ← sext_eq_wrapSigned (one_le_prec6H hM e c).1]

theorem bc6Endpoint_eq (signed : Bool) (e : EndpointId) (c : Comp) :
    bc6Endpoint s M signed e c = endpoint6H M s.block signed e c := by
  simp only [bc6Endpoint, endpoint6H, bc6Stored_eq hM, sext_eq_wrapSigned (one_le_prec6H hM e c).2, wrapSigned_emod]

/-! ### Indices (R338) -/

theorem bc6Index_eq {i : Nat} (hi : i < 16) : bc6Index s M i = index6H M s.block i := by
  have hfits := shape6H_fits hM s.block
  have hfix := hfits.fixup2_le
  have hpos := indexPos_add_countP M.ip (isFixup6H M.parts (shape6H M s.block)) (one_le_ip hM) (headerBits6H M) i
  rw [countP_isFixup6H fun hp => (hfix hp).1] at hpos
  have hend := indexPos_add_width_le hM hfits hi
  have hwidth : (if i = 0 ∨ (M.parts = 1 ∧ i = fixup2 (shape6H M s.block)) then M.ip - 1 else M.ip)
      = indexWidth M.ip (isFixup6H M.parts (shape6H M s.block)) i := by
    simp only [indexWidth, isFixup6H_iff]
  have hstart : headerBits6H M + M.ip * i - (if 0 < i then 1 else 0)
      - (if M.parts = 1 ∧ fixup2 (shape6H M s.block) < i then 1 else 0)
        = indexPos (headerBits6H M) M.ip (isFixup6H M.parts (shape6H M s.block)) i := by omega
  rw [bc6Index, index6H, indexAt, bc6Shape_eq hM]
  simp only [hwidth]
  rw [← s.bitsAt_eq_fld hend, ← hstart]
  rfl

end Header

/-! ### Palette integers (R339 to R342) -/

theorem bc6Unquantise_eq (signed : Bool) (v : Int) (n : Nat) : bc6Unquantise signed v n = unquant signed v n := by
  cases signed with
  | false =>
    simp only [bc6Unquantise, unquant, unquantU, Bool.false_eq_true, if_false, eq_sub_iff_add_eq]
    norm_num
  | true =>
    by_cases hn : 16 ≤ n
    · simp [bc6Unquantise, unquant, unquantS, hn]
    · have hmag : (if v = 0 then 0 else if 2 ^ (n - 1) ≤ |v| + 1 then 32767 else (|v| * 32768 + 16384) / 2 ^ (n - 1))
          = unquantMagnitude |v| n := by
        simp only [unquantMagnitude, abs_eq_zero, sub_le_iff_le_add]
        norm_num
      simp only [bc6Unquantise, unquant, if_true, if_neg hn, hmag, unquantS_narrow v (Nat.not_le.1 hn)]
      rcases lt_trichotomy v 0 with h | rfl | h
      · rw [if_pos h, Int.sign_eq_neg_one_of_neg h]
        ring
      · simp [unquantMagnitude]
      · rw [if_neg (not_lt.2 h.le), Int.sign_eq_one_of_pos h, one_mul]

theorem weightFor_eq (bits k : Nat) : weightFor bits k = weight bits k := rfl

theorem rescale6H_eq (signed : Bool) (t : Int) :
    (if signed then t.sign * (|t| * 31 / 32) else t * 31 / 64) = rescale6H signed t := by
  rw [rescale6H]
  cases signed with
  | false => rfl
  | true =>
    rcases lt_trichotomy t 0 with h | rfl | h
    · simp [not_le.2 h, Int.sign_eq_neg_one_of_neg h, abs_of_neg h]
    · rfl
    · simp [h.le, Int.sign_eq_one_of_pos h, abs_of_pos h]

/-- The palette integer of the statements is the decoder's. -/
theorem bc6Integer_eq {M : Mode6H} (hM : M ∈ modes6H) (s : State) (signed : Bool) {i : Nat} (hi : i < 16) (c : Comp) :
    bc6Integer s M signed i c = pixelInt6H M s.block signed i c := by
  have hregion : (M.parts = 1 ∧ region2 (shape6H M s.block) i = 1) ↔ region6H M.parts (shape6H M s.block) i = 1 := by
    rw [region6H]
    split <;> simp [*]
  simp only [bc6Integer, pixelInt6H, paletteInt, interp6H, bc6Shape_eq hM, hregion, bc6Unquantise_eq, bc6Endpoint_eq hM,
    weightFor_eq, bc6Index_eq hM s hi, rescale6H_eq]

end Sys2Proof.Machine
end

section
/-! SUPPORT. Binary32 numbers as multiples of powers of two, the rounding of the default `RN32`, and the statement that it rounds to the nearest (00_scope.md R8, 41_color_axis.md R140). -/

namespace Sys2Proof.Machine

open Claims

theorem pow2_eq_zpow (k : Int) : pow2 k = (2 : ℚ) ^ k := by
  rw [pow2]
  split
  · next h =>
    push_cast
    rw [← zpow_natCast, Int.toNat_of_nonneg h]
  · next h =>
    push_cast
    rw [← zpow_natCast, Int.toNat_of_nonneg (by omega), zpow_neg, one_div, inv_inv]

/-! ### The value of a binary32 pattern (R140) -/

/-- The value of the low 31 bits of a finite binary32 pattern. -/
def magnitudeValue (M : Nat) : ℚ :=
  if M / 2 ^ 23 = 0 then (M % 2 ^ 23 : Nat) * 2 ^ (-149 : Int)
  else (2 ^ 23 + M % 2 ^ 23 : Nat) * 2 ^ ((M / 2 ^ 23 : Nat) - 1 + -149 : Int)

/-- The pattern with a sign bit above 31 magnitude bits. -/
def signedWord (neg : Bool) (M : Nat) : Word := BitVec.ofNat 32 (if neg then 0x80000000 + M else M)

section Patterns

variable {M : Nat} (neg : Bool) (h : M < 2 ^ 31)

include h

theorem signedWord_toNat : (signedWord neg M).toNat = if neg then 0x80000000 + M else M := by
  rw [signedWord, BitVec.toNat_ofNat]
  split <;> omega

theorem signedWord_exponent : ((signedWord neg M).extractLsb' 23 8).toNat = M / 2 ^ 23 := by
  rw [BitVec.extractLsb'_toNat, signedWord_toNat neg h, Nat.shiftRight_eq_div_pow]
  split <;> omega

theorem signedWord_fraction : ((signedWord neg M).extractLsb' 0 23).toNat = M % 2 ^ 23 := by
  rw [BitVec.extractLsb'_toNat, signedWord_toNat neg h, Nat.shiftRight_zero]
  split <;> omega

theorem signedWord_sign : (signedWord neg M).getLsbD 31 = neg := by
  rw [BitVec.getLsbD, signedWord_toNat neg h, Nat.testBit_eq_decide_div_mod_eq]
  cases neg <;> simp <;> omega

theorem val_signedWord : val (signedWord neg M) = if neg then -magnitudeValue M else magnitudeValue M := by
  have hexp := signedWord_exponent neg h
  have hfrac := signedWord_fraction neg h
  have hsign := signedWord_sign neg h
  have hleast : leastExp ⟨8, 23⟩ = -149 := by decide
  simp only [val, valIn, binary32, hleast, pow2_eq_zpow, magnitudeValue, hexp, hfrac, hsign]

theorem isFinite32_signedWord : isFinite32 (signedWord neg M) = true ↔ M < 0x7F800000 := by
  have hexp := signedWord_exponent neg h
  rw [isFinite32_iff, Ne, ← BitVec.toNat_inj, hexp]
  simp
  omega

end Patterns

theorem eq_signedWord (w : Word) : ∃ neg M, M < 2 ^ 31 ∧ w = signedWord neg M := by
  refine ⟨w.getLsbD 31, w.toNat % 2 ^ 31, Nat.mod_lt _ (by decide), BitVec.eq_of_toNat_eq ?_⟩
  have hw := w.isLt
  rw [signedWord_toNat _ (Nat.mod_lt _ (by decide)), BitVec.getLsbD, Nat.testBit_eq_decide_div_mod_eq]
  split <;> simp_all <;> omega

/-! ### Multiples of powers of two -/

/-- The value of exponent step `E` and significand `r`; a significand of `2^24` carries into the next step. -/
theorem magnitudeValue_of_step {E r : Nat} (hr : r ≤ 2 ^ 24) (hnormal : 2 ^ 23 ≤ r ∨ E = 0) :
    magnitudeValue (E * 2 ^ 23 + r) = r * 2 ^ ((E : Int) - 149) := by
  rw [magnitudeValue]
  rcases lt_or_ge r (2 ^ 23) with hsmall | hlarge
  · obtain rfl : E = 0 := by omega
    rw [if_pos (by omega), show (0 * 2 ^ 23 + r) % 2 ^ 23 = r by omega]
    norm_num
  · rcases hr.lt_or_eq with hlt | rfl
    · rw [if_neg (by omega), show (E * 2 ^ 23 + r) / 2 ^ 23 = E + 1 by omega, show 2 ^ 23 + (E * 2 ^ 23 + r) % 2 ^ 23 = r by omega]
      congr 2
      push_cast
      ring
    · rw [if_neg (by omega), show (E * 2 ^ 23 + 2 ^ 24) / 2 ^ 23 = E + 2 by omega,
        show 2 ^ 23 + (E * 2 ^ 23 + 2 ^ 24) % 2 ^ 23 = 2 ^ 23 by omega,
        show ((E + 2 : Nat) - 1 + -149 : Int) = (E - 149 : Int) + 1 by push_cast; ring, zpow_add_one₀ (by norm_num)]
      push_cast
      ring

/-- Every pattern has an exponent step and a significand. -/
theorem exists_step (M : Nat) : ∃ E r, M = E * 2 ^ 23 + r ∧ r < 2 ^ 24 ∧ (2 ^ 23 ≤ r ∨ E = 0) := by
  rcases lt_or_ge M (2 ^ 23) with hM | hM
  · exact ⟨0, M, by omega, by omega, .inr rfl⟩
  · exact ⟨M / 2 ^ 23 - 1, 2 ^ 23 + M % 2 ^ 23, by omega, by omega, .inl (by omega)⟩

/-- An integer within 1/2 of a number is as near to it as any integer. -/
theorem abs_sub_le_of_half {y : ℚ} {r : Int} (h : |(r : ℚ) - y| ≤ 1 / 2) (j : Int) : |(r : ℚ) - y| ≤ |(j : ℚ) - y| := by
  rcases eq_or_ne j r with rfl | hne
  · exact le_rfl
  · have hone : (1 : ℚ) ≤ |(j : ℚ) - r| := by exact_mod_cast Int.one_le_abs (sub_ne_zero.2 hne)
    have htri : |(j : ℚ) - r| ≤ |(j : ℚ) - y| + |(r : ℚ) - y| := by
      rw [abs_sub_comm (r : ℚ) y]
      exact abs_sub_le _ _ _
    linarith

/-- A significand rounded to the nearest integer at the right step is as near as any significand at any step. -/
theorem step_nearest {x : ℚ} {E r : Nat} (hround : |(r : ℚ) - x / 2 ^ ((E : Int) - 149)| ≤ 1 / 2)
    (hstep : E = 0 ∨ 2 ^ 23 ≤ x / 2 ^ ((E : Int) - 149)) {E' r' : Nat} (hr' : r' < 2 ^ 24) :
    |r * 2 ^ ((E : Int) - 149) - x| ≤ |r' * 2 ^ ((E' : Int) - 149) - x| := by
  set u : ℚ := 2 ^ ((E : Int) - 149) with hu
  have hpos : 0 < u := by positivity
  have hscale (z : ℚ) : |z * u - x| = |z - x / u| * u := by
    rw [← abs_of_pos hpos, ← abs_mul, abs_of_pos hpos, sub_mul, div_mul_cancel₀ _ hpos.ne']
  have hnear (j : Int) : |(r : ℚ) * u - x| ≤ |j * u - x| := by
    rw [hscale, hscale]
    exact mul_le_mul_of_nonneg_right (abs_sub_le_of_half (r := r) hround j) hpos.le
  rcases le_or_gt E E' with hle | hlt
  · have hmul : (r' : ℚ) * 2 ^ ((E' : Int) - 149) = ((r' * 2 ^ (E' - E) : Nat) : Int) * u := by
      rw [hu, show (E' : Int) - 149 = (E' - E : Nat) + ((E : Int) - 149) by omega, zpow_add₀ (by norm_num), zpow_natCast]
      push_cast
      ring
    rw [hmul]
    exact hnear _
  · have hlow : (r' : ℚ) * 2 ^ ((E' : Int) - 149) ≤ 2 ^ 23 * u := by
      have hhalf : (2 : ℚ) ^ ((E' : Int) - 149) ≤ u / 2 := by
        rw [hu, div_eq_mul_inv, ← zpow_neg_one, ← zpow_add₀ (by norm_num)]
        exact zpow_le_zpow_right₀ (by norm_num) (by omega)
      have hr : (r' : ℚ) ≤ 2 ^ 24 := by exact_mod_cast hr'.le
      calc (r' : ℚ) * 2 ^ ((E' : Int) - 149) ≤ 2 ^ 24 * (u / 2) := by gcongr
        _ = 2 ^ 23 * u := by ring
    have hx : 2 ^ 23 * u ≤ x := (le_div_iff₀ hpos).1 (hstep.resolve_left (by omega))
    calc |(r : ℚ) * u - x| ≤ |((2 ^ 23 : Int) : ℚ) * u - x| := hnear _
      _ = x - 2 ^ 23 * u := by rw [abs_sub_comm, abs_of_nonneg (by push_cast; linarith)]; push_cast; ring
      _ ≤ x - r' * 2 ^ ((E' : Int) - 149) := by linarith
      _ ≤ |r' * 2 ^ ((E' : Int) - 149) - x| := by rw [abs_sub_comm]; exact le_abs_self _

/-! ### The rounding (R8) -/

theorem divNearestEven_near (n : Nat) {d : Nat} (hd : 0 < d) : |(divNearestEven n d : ℚ) - n / d| ≤ 1 / 2 := by
  have hdQ : (0 : ℚ) < d := by exact_mod_cast hd
  have hdiv := Nat.div_add_mod n d
  have hmod := Nat.mod_lt n hd
  have hnear : 2 * (divNearestEven n d * d) ≤ 2 * n + d ∧ 2 * n ≤ 2 * (divNearestEven n d * d) + d := by
    have hsucc : (n / d + 1) * d = d * (n / d) + d := by ring
    have hsame : n / d * d = d * (n / d) := Nat.mul_comm ..
    rw [divNearestEven]
    split_ifs with hdown hup
    · omega
    · omega
    · rcases Nat.mod_two_eq_zero_or_one (n / d) with heven | hodd
      · rw [heven, Nat.add_zero]; omega
      · rw [hodd]; omega
  rw [abs_le, sub_le_iff_le_add, neg_le_sub_iff_le_add, div_le_iff₀ hdQ, ← sub_le_iff_le_add', le_div_iff₀ hdQ]
  have h1 : (2 : ℚ) * (divNearestEven n d * d) ≤ 2 * n + d := by exact_mod_cast hnear.1
  have h2 : (2 : ℚ) * n ≤ 2 * (divNearestEven n d * d) + d := by exact_mod_cast hnear.2
  constructor <;> linarith

/-- A ratio scaled by a power of two, as the rounding scales numerator and denominator. -/
theorem ratio_div_zpow (n : Nat) {d : Nat} (hd : 0 < d) (e : Int) :
    ((n * 2 ^ (-e).toNat : Nat) : ℚ) / (d * 2 ^ e.toNat : Nat) = (n : ℚ) / d / 2 ^ e := by
  have hdQ : (d : ℚ) ≠ 0 := by exact_mod_cast hd.ne'
  push_cast
  rcases le_total 0 e with he | he
  · rw [Int.toNat_of_nonpos (show -e ≤ 0 by omega), ← zpow_natCast (2 : ℚ) e.toNat, Int.toNat_of_nonneg he]
    field_simp
  · rw [Int.toNat_of_nonpos he, ← zpow_natCast (2 : ℚ) (-e).toNat, Int.toNat_of_nonneg (by omega), zpow_neg]
    field_simp

theorem floorLog2_spec {n d : Nat} (hn : 0 < n) (hd : 0 < d) :
    (2 : ℚ) ^ floorLog2 n d ≤ n / d ∧ (n : ℚ) / d < 2 ^ (floorLog2 n d + 1) := by
  have hdQ : (0 : ℚ) < d := by exact_mod_cast hd
  have hnlow : (2 : ℚ) ^ (Nat.log2 n : Int) ≤ n := by
    rw [zpow_natCast]; exact_mod_cast Nat.log2_self_le hn.ne'
  have hnhigh : (n : ℚ) < 2 ^ ((Nat.log2 n : Int) + 1) := by
    rw [← Nat.cast_succ, zpow_natCast]; exact_mod_cast Nat.lt_log2_self
  have hdlow : (2 : ℚ) ^ (Nat.log2 d : Int) ≤ d := by
    rw [zpow_natCast]; exact_mod_cast Nat.log2_self_le hd.ne'
  have hdhigh : (d : ℚ) < 2 ^ ((Nat.log2 d : Int) + 1) := by
    rw [← Nat.cast_succ, zpow_natCast]; exact_mod_cast Nat.lt_log2_self
  set k : Int := (Nat.log2 n : Int) - (Nat.log2 d : Int) with hk
  have hupper : (n : ℚ) / d < 2 ^ (k + 1) := by
    rw [div_lt_iff₀ hdQ]
    calc (n : ℚ) < 2 ^ ((Nat.log2 n : Int) + 1) := hnhigh
      _ = 2 ^ (k + 1) * 2 ^ (Nat.log2 d : Int) := by rw [← zpow_add₀ (by norm_num)]; congr 1; omega
      _ ≤ 2 ^ (k + 1) * d := by gcongr
  have hlower : (2 : ℚ) ^ (k - 1) ≤ n / d := by
    rw [le_div_iff₀ hdQ]
    calc (2 : ℚ) ^ (k - 1) * d ≤ 2 ^ (k - 1) * 2 ^ ((Nat.log2 d : Int) + 1) := by gcongr
      _ = 2 ^ (Nat.log2 n : Int) := by rw [← zpow_add₀ (by norm_num)]; congr 1; omega
      _ ≤ n := hnlow
  have htest : d * 2 ^ k.toNat ≤ n * 2 ^ (-k).toNat ↔ (2 : ℚ) ^ k ≤ n / d := by
    have hden : (0 : ℚ) < (d * 2 ^ k.toNat : Nat) := by positivity
    rw [← one_le_div₀ (zpow_pos (by norm_num : (0 : ℚ) < 2) k), ← ratio_div_zpow n hd k, one_le_div₀ hden, Nat.cast_le]
  have hdef : floorLog2 n d = if d * 2 ^ k.toNat ≤ n * 2 ^ (-k).toNat then k else k - 1 := rfl
  rw [hdef]
  split
  · next h => exact ⟨htest.1 h, hupper⟩
  · next h =>
    rw [sub_add_cancel]
    exact ⟨hlower, not_le.1 fun hle => h (htest.2 hle)⟩

/-- The magnitude the rounding gives: an exponent step and a significand rounded to the nearest integer at it. -/
theorem roundMagnitude_step {n d : Nat} (hn : 0 < n) (hd : 0 < d) (hbound : (n : ℚ) / d ≤ 65536) :
    ∃ E r, roundMagnitude 24 (-149) n d = E * 2 ^ 23 + r ∧ E ≤ 142 ∧ r ≤ 2 ^ 24 ∧ (2 ^ 23 ≤ r ∨ E = 0)
      ∧ |(r : ℚ) - n / d / 2 ^ ((E : Int) - 149)| ≤ 1 / 2 ∧ (E = 0 ∨ 2 ^ 23 ≤ (n : ℚ) / d / 2 ^ ((E : Int) - 149)) := by
  obtain ⟨hlow, hhigh⟩ := floorLog2_spec hn hd
  set L := floorLog2 n d with hL
  set e : Int := max (L - (24 - 1 : Nat)) (-149) with he
  obtain ⟨E, hE⟩ := Int.eq_ofNat_of_zero_le (show 0 ≤ e - -149 by omega)
  have heE : (E : Int) - 149 = e := by omega
  have hLle : L ≤ 16 := by
    have hlt : (2 : ℚ) ^ L < 2 ^ (17 : Int) := hlow.trans_lt (hbound.trans_lt (by norm_num))
    have := (zpow_lt_zpow_iff_right₀ (by norm_num : (1 : ℚ) < 2)).1 hlt
    omega
  have hupos : (0 : ℚ) < 2 ^ e := by positivity
  have hden : 0 < d * 2 ^ e.toNat := by positivity
  have hround := divNearestEven_near (n * 2 ^ (-e).toNat) hden
  rw [ratio_div_zpow n hd e] at hround
  have hsmall : (n : ℚ) / d / 2 ^ e ≤ 2 ^ 24 := by
    rw [div_le_iff₀ hupos]
    calc (n : ℚ) / d ≤ 2 ^ (L + 1) := hhigh.le
      _ ≤ 2 ^ (24 + e) := zpow_le_zpow_right₀ (by norm_num) (by omega)
      _ = 2 ^ 24 * 2 ^ e := by rw [zpow_add₀ (by norm_num)]; norm_num
  have hlarge : E = 0 ∨ 2 ^ 23 ≤ (n : ℚ) / d / 2 ^ e := by
    refine or_iff_not_imp_left.2 fun hE0 => ?_
    rw [le_div_iff₀ hupos]
    calc (2 : ℚ) ^ 23 * 2 ^ e = 2 ^ (23 + e) := by rw [zpow_add₀ (by norm_num)]; norm_num
      _ = 2 ^ L := by congr 1; omega
      _ ≤ n / d := hlow
  set r := divNearestEven (n * 2 ^ (-e).toNat) (d * 2 ^ e.toNat) with hr
  obtain ⟨hr1, hr2⟩ := abs_le.1 hround
  refine ⟨E, r, ?_, by omega, ?_, ?_, by rw [heE]; exact hround, by rw [heE]; exact hlarge⟩
  · have hdef : roundMagnitude 24 (-149) n d = (e - -149).toNat * 2 ^ (24 - 1) + r := rfl
    rw [hdef, hE]
    rfl
  · have : (r : ℚ) < (2 ^ 24 + 1 : Nat) := by push_cast; linarith
    exact Nat.lt_succ_iff.1 (by exact_mod_cast this)
  · refine or_comm.1 (hlarge.imp_right fun h => ?_)
    have : ((2 ^ 23 - 1 : Nat) : ℚ) < r := by push_cast; linarith
    have hlt : 2 ^ 23 - 1 < r := by exact_mod_cast this
    omega

theorem abs_eq_natAbs_div_den (q : ℚ) : |q| = (q.num.natAbs : ℚ) / q.den := by
  rw [Nat.cast_natAbs, Int.cast_abs, ← abs_of_pos (show (0 : ℚ) < q.den by exact_mod_cast q.pos), ← abs_div, Rat.num_div_den]

/-- The default `RN32` of a number up to 65536 is finite, and no significand below `2^24` at any step is nearer to the number's magnitude. -/
theorem rn32Default_nearest {q : ℚ} (hq : |q| ≤ 65536) : isFinite32 (rn32Default q) = true
    ∧ ∀ E' r' : Nat, r' < 2 ^ 24 → |val (rn32Default q) - q| ≤ |(r' * 2 ^ ((E' : Int) - 149) - |q|)| := by
  rcases eq_or_ne q 0 with rfl | hne
  · have hzero : rn32Default 0 = signedWord false 0 := rfl
    rw [hzero, isFinite32_signedWord false (by decide), val_signedWord false (by decide)]
    refine ⟨by decide, fun E' r' _ => ?_⟩
    simp only [magnitudeValue, Nat.zero_div, Nat.zero_mod, Bool.false_eq_true, if_false, if_true, Nat.cast_zero, zero_mul,
      sub_zero, abs_zero]
    exact abs_nonneg _
  · have hn : 0 < q.num.natAbs := Int.natAbs_pos.2 (Rat.num_ne_zero.2 hne)
    rw [abs_eq_natAbs_div_den] at hq
    obtain ⟨E, r, hmag, hE, hr, hnormal, hround, hstep⟩ := roundMagnitude_step hn q.pos hq
    rw [← abs_eq_natAbs_div_den] at hround hstep
    have hbits : E * 2 ^ 23 + r < 0x7F800000 := by omega
    have hword : rn32Default q = signedWord (decide (q < 0)) (E * 2 ^ 23 + r) := by
      rw [rn32Default, if_neg hne, hmag, Nat.min_eq_left hbits.le, signedWord]
      simp only [decide_eq_true_eq]
    have hval : |val (rn32Default q) - q| = |(r * 2 ^ ((E : Int) - 149) - |q|)| := by
      rw [hword, val_signedWord _ (by omega), magnitudeValue_of_step hr hnormal]
      rcases lt_or_gt_of_ne hne with hneg | hpos
      · rw [decide_eq_true hneg, if_pos rfl, abs_of_neg hneg, ← abs_neg]
        congr 1
        ring
      · rw [decide_eq_false (not_lt.2 hpos.le), if_neg (by decide), abs_of_pos hpos]
    refine ⟨?_, fun E' r' hr' => ?_⟩
    · rw [hword, isFinite32_signedWord _ (by omega)]
      exact hbits
    · rw [hval]
      exact step_nearest hround hstep hr'

/-- Settles O59: the value of a finite pattern is, but for its sign, a significand below `2^24` at some step. -/
theorem roundingIsToTheNearest : Obligations.RoundingIsToTheNearest := by
  intro q w hq hfin
  obtain ⟨neg, M, hM, rfl⟩ := eq_signedWord w
  obtain ⟨E, r, rfl, hr, hnormal⟩ := exists_step M
  have hpos : (0 : ℚ) ≤ r * 2 ^ ((E : Int) - 149) := by positivity
  have habs : |val (signedWord neg (E * 2 ^ 23 + r))| = r * 2 ^ ((E : Int) - 149) := by
    rw [val_signedWord neg hM, magnitudeValue_of_step hr.le hnormal]
    cases neg <;> simp [abs_of_nonneg hpos]
  calc |val (rn32Default q) - q| ≤ |(r * 2 ^ ((E : Int) - 149) - |q|)| := (rn32Default_nearest hq).2 E r hr
    _ = |(|val (signedWord neg (E * 2 ^ 23 + r))| - |q|)| := by rw [habs]
    _ ≤ |val (signedWord neg (E * 2 ^ 23 + r)) - q| := abs_abs_sub_abs_le _ _

/-- A number that is a significand below `2^24` at some step is stored exactly. -/
theorem rn32Default_exact {q : ℚ} (hq : |q| ≤ 65536) {E r : Nat} (hr : r < 2 ^ 24) (h : |q| = r * 2 ^ ((E : Int) - 149)) :
    isFinite32 (rn32Default q) = true ∧ val (rn32Default q) = q := by
  obtain ⟨hfin, hnear⟩ := rn32Default_nearest hq
  have hzero := hnear E r hr
  rw [← h, sub_self, abs_zero, abs_nonpos_iff, sub_eq_zero] at hzero
  exact ⟨hfin, hzero⟩

end Sys2Proof.Machine
end

section
/-! SUPPORT. The value of a half and the channel word it is widened to, the pixels of a BC6H decode in the words of the statements, and the statements on both (41_color_axis.md R148, 45_bc6h_decode.md R343 to R346). -/

namespace Sys2Proof.Machine

open Claims

/-! ### Halves (R148) -/

theorem half_exponent (h : Half) : (h.extractLsb' 10 5).toNat = h.toNat / 1024 % 32 := by
  rw [BitVec.extractLsb'_toNat, Nat.shiftRight_eq_div_pow]

theorem half_fraction (h : Half) : (h.extractLsb' 0 10).toNat = h.toNat % 1024 := by
  rw [BitVec.extractLsb'_toNat, Nat.shiftRight_zero]

/-- The magnitude of a half: its significand at its exponent step. -/
theorem halfVal_eq (h : Half) : halfVal h = (if h.getLsbD 15 then -1 else 1) *
    ((if h.toNat / 1024 % 32 = 0 then h.toNat % 1024 else 1024 + h.toNat % 1024 : Nat)
      * 2 ^ (((h.toNat / 1024 % 32 - 1 + 125 : Nat) : Int) - 149) : ℚ) := by
  simp only [halfVal, half_exponent, half_fraction, pow2_eq_zpow]
  by_cases he : h.toNat / 1024 % 32 = 0
  · rw [if_pos he, if_pos he, he]
    split <;> norm_num
  · have hstep : (((h.toNat / 1024 % 32 : Nat) : Int) - 25) = ((h.toNat / 1024 % 32 - 1 + 125 : Nat) : Int) - 149 := by omega
    rw [if_neg he, if_neg he, hstep]
    split <;> simp

theorem abs_halfVal (h : Half) : |halfVal h| =
    (if h.toNat / 1024 % 32 = 0 then h.toNat % 1024 else 1024 + h.toNat % 1024 : Nat)
      * 2 ^ (((h.toNat / 1024 % 32 - 1 + 125 : Nat) : Int) - 149) := by
  have hnonneg : (0 : ℚ) ≤ (if h.toNat / 1024 % 32 = 0 then h.toNat % 1024 else 1024 + h.toNat % 1024 : Nat)
      * 2 ^ (((h.toNat / 1024 % 32 - 1 + 125 : Nat) : Int) - 149) := by positivity
  rw [halfVal_eq, abs_mul, abs_of_nonneg hnonneg]
  split <;> simp

theorem half_significand_lt (h : Half) :
    (if h.toNat / 1024 % 32 = 0 then h.toNat % 1024 else 1024 + h.toNat % 1024) < 2 ^ 11 := by
  split <;> omega

/-- A half whose exponent field is not 31 is below `2^16`. -/
theorem abs_halfVal_le {h : Half} (he : h.toNat / 1024 % 32 ≠ 31) : |halfVal h| ≤ 65536 := by
  have hr : ((if h.toNat / 1024 % 32 = 0 then h.toNat % 1024 else 1024 + h.toNat % 1024 : Nat) : ℚ) ≤ 2 ^ 11 := by
    exact_mod_cast (half_significand_lt h).le
  have hstep : (2 : ℚ) ^ (((h.toNat / 1024 % 32 - 1 + 125 : Nat) : Int) - 149) ≤ 2 ^ (5 : Int) :=
    zpow_le_zpow_right₀ (by norm_num) (by omega)
  calc |halfVal h| ≤ 2 ^ 11 * 2 ^ (5 : Int) := by rw [abs_halfVal]; gcongr
    _ = 65536 := by norm_num

/-! ### Widening (R343) -/

/-- A half with a value is widened to a zero with its sign, or to `RN32` of its value. -/
theorem halfToChan_config {h : Half} (he : h.toNat / 1024 % 32 ≠ 31) : halfToChan config h =
    if h.toNat % 0x8000 = 0 then signedWord (h.getLsbD 15) 0 else rn32Default (halfVal h) := by
  have hzero : (h.toNat / 1024 % 32 = 0 ∧ h.toNat % 1024 = 0) ↔ h.toNat % 0x8000 = 0 := by omega
  simp only [halfToChan, half_exponent, half_fraction, if_neg he, hzero]
  refine if_congr Iff.rfl ?_ rfl
  rw [signedWord]
  rfl

/-- Settles O60: a half's significand is below `2^24` at a step of binary32, so `rn32Default_exact` holds of it; a zero by its word. -/
theorem halfWideningIsExact : Obligations.HalfWideningIsExact := by
  intro h hfinite
  have he : h.toNat / 1024 % 32 ≠ 31 := by
    rw [← half_exponent]
    exact fun heq => hfinite (BitVec.eq_of_toNat_eq heq)
  rw [halfToChan_config he]
  split
  · next hzero =>
    rw [isFinite32_signedWord _ (by decide), val_signedWord _ (by decide), halfVal_eq, if_pos (show h.toNat / 1024 % 32 = 0 by omega),
      show h.toNat % 1024 = 0 by omega]
    refine ⟨by decide, ?_⟩
    split <;> simp [magnitudeValue]
  · exact rn32Default_exact (abs_halfVal_le he) ((half_significand_lt h).trans (by decide)) (abs_halfVal h)

/-! ### The half of a palette integer (R343) -/

section Palette

variable {u : Int} (hu : u.natAbs < 0x7C00)

include hu

theorem halfOfInt_toNat : (halfOfInt u).toNat = if 0 ≤ u then u.natAbs else 0x8000 + u.natAbs := by
  rw [halfOfInt, BitVec.toNat_ofNat]
  split <;> omega

theorem halfOfInt_magnitude : (halfOfInt u).toNat % 0x8000 = u.natAbs := by
  rw [halfOfInt_toNat hu]
  split <;> omega

theorem halfOfInt_sign : (halfOfInt u).getLsbD 15 = decide (u < 0) := by
  rw [BitVec.getLsbD, Nat.testBit_eq_decide_div_mod_eq, halfOfInt_toNat hu]
  congr 1
  rw [eq_iff_iff]
  split <;> omega

/-- The value of the half that stands for a palette integer, as the statements write it. -/
theorem halfVal_halfOfInt : halfVal (halfOfInt u) = halfValue u := by
  have hmag := halfOfInt_magnitude hu
  have hexp : (halfOfInt u).toNat / 1024 % 32 = u.natAbs / 1024 := by omega
  have hfrac : (halfOfInt u).toNat % 1024 = u.natAbs % 1024 := by omega
  rw [halfVal_eq, halfOfInt_sign hu, hexp, hfrac, halfValue]
  have hvalue : ((if u.natAbs / 1024 = 0 then u.natAbs % 1024 else 1024 + u.natAbs % 1024 : Nat)
        * 2 ^ (((u.natAbs / 1024 - 1 + 125 : Nat) : Int) - 149) : ℚ)
      = if u.natAbs < 1024 then (u.natAbs : ℚ) / 2 ^ 24
        else (((1024 + u.natAbs % 1024) * 2 ^ (u.natAbs / 1024) : Nat) : ℚ) / 2 ^ 25 := by
    by_cases hsmall : u.natAbs < 1024
    · rw [if_pos (show u.natAbs / 1024 = 0 by omega), if_pos hsmall, show u.natAbs / 1024 = 0 by omega,
        Nat.mod_eq_of_lt hsmall]
      norm_num
      ring
    · rw [if_neg (show u.natAbs / 1024 ≠ 0 by omega), if_neg hsmall,
        show ((u.natAbs / 1024 - 1 + 125 : Nat) : Int) - 149 = (u.natAbs / 1024 : Nat) - 25 by omega,
        zpow_sub₀ (by norm_num), zpow_natCast]
      push_cast
      norm_num
      ring
  rw [hvalue]
  rcases lt_trichotomy u 0 with h | rfl | h
  · simp [h, Int.sign_eq_neg_one_of_neg h]
  · simp
  · simp [not_lt.2 h.le, Int.sign_eq_one_of_pos h]

/-- The channel word of a palette integer other than `-0x7C00` stores the value of its half. -/
theorem stores_halfOfInt : stores (halfToChan config (halfOfInt u)) (halfValue u) := by
  have hmag := halfOfInt_magnitude hu
  have hvalue := halfVal_halfOfInt hu
  rw [stores, halfToChan_config (by omega), hmag]
  rcases eq_or_ne u 0 with rfl | hne
  · rw [if_pos Int.natAbs_zero, if_pos (by simp [halfValue]), halfOfInt_sign hu]
    rfl
  · have hnonzero : halfValue u ≠ 0 := by
      have hpos : 0 < |halfVal (halfOfInt u)| := by
        rw [abs_halfVal]
        have : 0 < (if (halfOfInt u).toNat / 1024 % 32 = 0 then (halfOfInt u).toNat % 1024 else 1024 + (halfOfInt u).toNat % 1024) := by
          split <;> omega
        positivity
      rw [← hvalue]
      exact abs_pos.1 hpos
    rw [if_neg (by omega), if_neg hnonzero, hvalue]
    rfl

end Palette

theorem holdsHalf_halfOfInt {u : Int} (hlo : -0x7C00 ≤ u) (hhi : u ≤ 0x7BFF) :
    holdsHalf (halfToChan config (halfOfInt u)) u := by
  rw [holdsHalf]
  split
  · next h => rw [h]; decide
  · next h => exact stores_halfOfInt (by omega)

/-! ### The decode (R331, R345, R346) -/

/-- The selector of the statements is the decoder's. -/
theorem bc6Selector_eq (s : State) : bc6Selector s = selector6H s.block := by
  have h2 : fld s.block 0 2 = (s.blk.read 0).toNat % 4 := by
    simpa using s.fld_block_in_byte (k := 0) (sh := 0) (n := 2) (by decide) (by decide)
  have h5 : fld s.block 0 5 = (s.blk.read 0).toNat % 32 := by
    simpa using s.fld_block_in_byte (k := 0) (sh := 0) (n := 5) (by decide) (by decide)
  have hlong : fld s.block 0 5 = fld s.block 0 2 + 4 * fld s.block 2 3 := fld_add s.block 0 2 3
  rw [bc6Selector, selector6H]
  split_ifs <;> omega

/-- With an assigned selector a decoder stores the pixels of its mode. -/
theorem exec_decBc6h_of_mode {s : State} {M : Mode6H} (h : mode6H (selector6H s.block) = some M) (signed : Bool) :
    exec (if signed then .decBc6hs else .decBc6hu) s = .next (s.setTile (bc6hPixel config M s.block signed)) := by
  have hdec (fmt : Format) (hbytes : (config.blockBytes fmt).val = 16) :
      decodeBc6h config fmt signed s = s.setTile (bc6hPixel config M s.block signed) := by
    simp only [decodeBc6h, State.formatBlock_whole hbytes, h]
  cases signed with
  | false => rw [if_neg (by decide), exec_decBc6hu, hdec _ rfl]
  | true => rw [if_pos rfl, exec_decBc6hs, hdec _ rfl]

theorem pixelInt6H_range {M : Mode6H} {b : Block} (h : mode6H (selector6H b) = some M) (signed : Bool) (i : Fin 16)
    (c : Comp) : -0x7C00 ≤ pixelInt6H M b signed i c ∧ pixelInt6H M b signed i c ≤ 0x7BFF := by
  obtain ⟨⟨hlo, hhi⟩, hshi, hslo, -⟩ := bc6hHalvesAreInRange M b i c h
  cases signed with
  | false => exact ⟨by omega, hhi⟩
  | true => exact ⟨hslo, hshi⟩

/-- Settles O32: the pixels by `exec_decBc6h_of_mode`, their halves by `holdsHalf_halfOfInt`; the integers and endpoints of the statement are the decoder's. -/
theorem assignedBc6hSelectorDecodes : Obligations.AssignedBc6hSelectorDecodes := by
  intro s hassigned
  rw [bc6Selector_eq] at hassigned ⊢
  obtain ⟨M, hmode⟩ := Option.ne_none_iff_exists'.1 (mt (mode6H_selector6H_eq_none_iff s.block).1 hassigned)
  obtain ⟨hM, hsel⟩ := mode6H_eq_some hmode
  refine ⟨M, hM, hsel, fun signed => ⟨_, exec_decBc6h_of_mode hmode signed, s.setTile_frame _, fun i => ?_⟩⟩
  have hholds (c : Comp) : holdsHalf (halfToChan config (halfOfInt (pixelInt6H M s.block signed i c)))
      (bc6Integer s M signed i c) := by
    rw [bc6Integer_eq hM s signed i.isLt c]
    exact holdsHalf_halfOfInt (pixelInt6H_range hmode signed i c).1 (pixelInt6H_range hmode signed i c).2
  rw [State.setTile_get]
  exact ⟨hholds .r, hholds .g, hholds .b, rfl, fun c => ⟨(bc6Integer_eq hM s signed i.isLt c).symm,
    fun e _ => (bc6Endpoint_eq hM s signed e c).symm⟩⟩

end Sys2Proof.Machine
end

section
/-! SUPPORT. Sequences of BitCursor commands, and the statements that what is written is read back (40_bitcursor.md R124, R125). -/

namespace Sys2Proof.Machine

open Claims

/-! ### One command -/

theorem exec_setbits_within {s : State} {n : Nat} (h1 : 1 ≤ n) (h8 : n ≤ 8) (hfit : s.cur.toNat + n ≤ 128) (val : Byte) :
    exec (.setbits n val) s = .next (s.writeBits n val.toNat) := by
  rw [exec_setbits, if_neg (by omega), if_neg (by omega)]

theorem exec_getbits_within {s : State} {n : Nat} (h1 : 1 ≤ n) (h8 : n ≤ 8) (hfit : s.cur.toNat + n ≤ 128) :
    exec (.getbits n) s = .next (s.readBits n) := by
  rw [exec_getbits, if_neg (by omega), if_neg (by omega)]

theorem exec_setbit_within {s : State} (h : s.cur.toNat < 128) (v : Bool) :
    exec (.setbit v) s = .next (s.writeBits 1 v.toNat) := by
  rw [exec_setbit, if_neg (by omega)]

theorem exec_getbit_within {s : State} (h : s.cur.toNat < 128) : exec .getbit s = .next (s.readBits 1) := by
  rw [exec_getbit, if_neg (by omega)]

/-- The field that was written is the field of the block register (R123, R124). -/
theorem State.fld_writeBits {s : State} (hwf : s.blk.wf) {n : Nat} (hfit : s.cur.toNat + n ≤ 128) (v : Nat) :
    fld (s.writeBits n v).block s.cur.toNat n = v % 2 ^ n := by
  refine Nat.eq_of_testBit_eq fun i => ?_
  rw [testBit_fld, Nat.testBit_mod_two_pow]
  by_cases hi : i < n
  · rw [State.block_getLsbD _ (by omega), State.writeBits_bit hwf, if_pos (by omega), Nat.add_sub_cancel_left]
  · simp [hi]

/-- Settles O20: the field read is the one written, by `State.fld_writeBits`. -/
theorem writeThenReadReturnsTheValue : Obligations.WriteThenReadReturnsTheValue := by
  intro s p w v hwf h1 h8 hfit
  have hp : (BitVec.ofNat 8 p).toNat = p := by
    rw [BitVec.toNat_ofNat]
    omega
  have hcur : (BitVec.ofNat 8 p).toNat + w ≤ 128 := by omega
  refine ⟨_, _, exec_setbits_within (s := { s with cur := BitVec.ofNat 8 p }) h1 h8 hcur v,
    exec_getbits_within h1 h8 (by exact hcur), ?res, ?cur, rfl⟩
  case res =>
    rw [State.readBits_res_toNat _ h8]
    exact State.fld_writeBits (s := { s with cur := BitVec.ofNat 8 p }) hwf hcur v.toNat
  case cur =>
    rw [State.readBits_cur_toNat _ (by exact hcur)]
    exact congrArg (· + w) hp

/-! ### Sequences (R125) -/

theorem execAll_cons {i : Instr} {rest : List Instr} {s t : State} (h : exec i s = .next t) :
    execAll (i :: rest) s = execAll rest t := by
  rw [execAll, h]

/-- One SETBIT per position from `CUR` on lays down a pattern and leaves every other bit. -/
theorem execAll_setbit (f : Nat → Bool) (n : Nat) {p : Nat} {s : State} (hwf : s.blk.wf) (hcur : s.cur.toNat = p)
    (hfit : p + n ≤ 128) : ∃ t, execAll ((List.range' p n).map fun i => .setbit (f i)) s = some t ∧ t.cur.toNat = p + n
      ∧ ∀ q, blkBit t.blk q = if p ≤ q ∧ q < p + n then f q else blkBit s.blk q := by
  induction n generalizing p s with
  | zero => exact ⟨s, rfl, hcur, fun q => by rw [if_neg (by omega)]⟩
  | succ n ih =>
    obtain ⟨t, hall, hend, hbits⟩ := ih (p := p + 1) (s := s.writeBits 1 (f p).toNat) (s.wf_writeBits hwf (by omega) _)
      (by rw [s.writeBits_cur_toNat _ (by omega), hcur]) (by omega)
    refine ⟨t, ?_, by omega, fun q => ?_⟩
    · rw [List.range'_succ, List.map_cons, execAll_cons (exec_setbit_within (by omega) _), hall]
    · have hone : blkBit (s.writeBits 1 (f p).toNat).blk q = if q = p then f p else blkBit s.blk q := by
        rw [blkBit, s.writeBits_bit hwf, hcur]
        by_cases hq : q = p
        · rw [if_pos (by omega), if_pos hq, hq, Nat.sub_self]
          cases f p <;> rfl
        · rw [if_neg (by omega), if_neg hq]
          rfl
      rw [hbits, hone]
      rcases eq_or_ne q p with rfl | hq
      · rw [if_neg (by omega), if_pos rfl, if_pos (by omega)]
      · rw [if_neg hq]
        exact if_congr (by omega) rfl rfl

/-- The last of `n + 1` GETBIT commands returns the bit `n` places past `CUR`, and the block register stays. -/
theorem execAll_getbit (n : Nat) {s : State} (hfit : s.cur.toNat + n < 128) :
    ∃ u, execAll (List.replicate (n + 1) .getbit) s = some u
      ∧ u.res = (if blkBit s.blk (s.cur.toNat + n) then 1#8 else 0#8) ∧ u.blk = s.blk := by
  induction n generalizing s with
  | zero =>
    refine ⟨s.readBits 1, execAll_cons (exec_getbit_within hfit), ?_, rfl⟩
    rw [s.readBits_res, s.fld_block_eq_sum (by omega)]
    cases h : blkBit s.blk s.cur.toNat <;> simp [h]
  | succ n ih =>
    have hnext : (s.readBits 1).cur.toNat = s.cur.toNat + 1 := s.readBits_cur_toNat (by omega)
    obtain ⟨u, hall, hres, hblk⟩ := ih (s := s.readBits 1) (by omega)
    refine ⟨u, ?_, ?_, hblk⟩
    · rw [List.replicate_succ, execAll_cons (exec_getbit_within (by omega)), hall]
    · rw [hres, hnext, show s.cur.toNat + 1 + n = s.cur.toNat + (n + 1) by omega, s.readBits_blk]

/-- Settles O21: `execAll_setbit` over all 128 positions, then `execAll_getbit` from position 0. -/
theorem sequentialWriteThenReadReproducesThePattern : Obligations.SequentialWriteThenReadReproducesThePattern := by
  intro s f hwf hcur
  obtain ⟨t, hall, hend, hbits⟩ := execAll_setbit f 128 hwf (by rw [hcur]; rfl) le_rfl
  have hpattern : ∀ p, p < 128 → blkBit t.blk p = f p := fun p hp => by rw [hbits, if_pos (by omega)]
  refine ⟨t, by rw [List.range_eq_range', hall], BitVec.eq_of_toNat_eq hend, hpattern, fun n hn => ?_⟩
  obtain ⟨u, hu, hres, hblk⟩ := execAll_getbit n (s := { t with cur := 0#8 }) (by simpa using hn)
  refine ⟨u, hu, ?_, hblk⟩
  rw [hres, ← hpattern n hn]
  simp

end Sys2Proof.Machine
end

section
/-! SUPPORT. The order of the decode table of a channel block (44_bc45.md R310). -/

namespace Sys2Proof.Machine

open Claims

/-- A greater stored endpoint has no smaller value (R281, R282). -/
theorem endpointValue_mono (signed : Bool) {r r' : Int} (h : r ≤ r') : endpointValue signed r ≤ endpointValue signed r' := by
  have hcast : (r : ℚ) ≤ r' := by exact_mod_cast h
  cases signed with
  | false => exact div_le_div_of_nonneg_right hcast (by norm_num)
  | true => exact div_le_div_of_nonneg_right (max_le_max_right _ hcast) (by norm_num)

theorem ramp_full_falls {E0 E1 : ℚ} (h : E1 < E0) (lo hi : ℚ) :
    let e (k : Nat) : ℚ := (ramp E0 E1 true lo hi).getD k 0
    e 2 < e 0 ∧ e 3 < e 2 ∧ e 4 < e 3 ∧ e 5 < e 4 ∧ e 6 < e 5 ∧ e 7 < e 6 ∧ e 1 < e 7 := by
  simp only [ramp, if_true, List.getD_cons_succ, List.getD_cons_zero]
  refine ⟨?_, ?_, ?_, ?_, ?_, ?_, ?_⟩ <;> linarith

theorem ramp_six_rises {E0 E1 : ℚ} (h : E0 < E1) (lo hi : ℚ) :
    let e (k : Nat) : ℚ := (ramp E0 E1 false lo hi).getD k 0
    e 0 < e 2 ∧ e 2 < e 3 ∧ e 3 < e 4 ∧ e 4 < e 5 ∧ e 5 < e 1 := by
  simp only [ramp, Bool.false_eq_true, if_false, List.getD_cons_succ, List.getD_cons_zero]
  refine ⟨?_, ?_, ?_, ?_, ?_⟩ <;> linarith

/-- Settles O30: the stored integers choose the ramp, and endpoints in the order of their stored integers are strictly ordered once they differ. -/
theorem channelRampIsMonotone : Obligations.ChannelRampIsMonotone := by
  intro signed b0 b1 _ _ e
  refine ⟨fun hfull hne => ?falls, fun hsix => ?rises⟩
  case falls =>
    have hramp : channelRamp signed b0 b1 = ramp (endpointValue signed (storedInt signed b0))
        (endpointValue signed (storedInt signed b1)) true (formatLo signed) 1 := by rw [channelRamp, decide_eq_true hfull]
    have hlt := (endpointValue_mono signed hfull.le).lt_of_ne fun heq => hne (by simp [e, hramp, ramp, heq])
    simp only [e, hramp]
    exact ramp_full_falls hlt _ _
  case rises =>
    have hramp : channelRamp signed b0 b1 = ramp (endpointValue signed (storedInt signed b0))
        (endpointValue signed (storedInt signed b1)) false (formatLo signed) 1 := by
      rw [channelRamp, decide_eq_false hsix.not_gt]
    simp only [e, hramp]
    refine ⟨?_, rfl, fun hlt => ramp_six_rises hlt _ _⟩
    cases signed <;> rfl

end Sys2Proof.Machine
end

section
/-! SUPPORT. The witness of the BC6H search: its integers, its quantised corners and its indices are in range, so that its candidate fits its mode (47_bc6h_encode.md R401, R407 to R410, R424). -/

namespace Sys2Proof.Machine

open Claims

/-! ### The integers of a tile (R401) -/

/-- The integers the encoders of a format work on. -/
def inputRange (sg : Bool) (v : Int) : Prop := (if sg then -0x7BFF else 0) ≤ v ∧ v ≤ 0x7BFF

theorem inputRange_halfToInt (sg : Bool) (h : Half) : inputRange sg (halfToInt sg h) := by
  simp only [inputRange, halfToInt]
  cases sg <;> cases h.getLsbD 15 <;> simp <;> omega

theorem comp_map {α β : Type} (f : α → β) (t : Triple α) (c : Comp) : comp (t.map f) c = f (comp t c) := by
  cases c <;> rfl

theorem inputRange_intColours (s : State) (sg : Bool) : ∀ v ∈ s.intColours config sg, ∀ c, inputRange sg (comp v c) := by
  intro v hv c
  obtain ⟨px, -, rfl⟩ := List.mem_map.1 hv
  rw [intColour, comp_map]
  exact inputRange_halfToInt sg _

/-! ### The corners (R407, R424) -/

theorem foldl_min_mem (l : List Int) (x : Int) : l.foldl min x ∈ x :: l := by
  induction l generalizing x with
  | nil => simp
  | cons y ys ih =>
    have h := ih (min x y)
    rw [List.foldl_cons]
    rcases min_choice x y with hmin | hmin <;> rw [hmin] at h ⊢ <;> simp only [List.mem_cons] at h ⊢ <;> tauto

theorem foldl_max_mem (l : List Int) (x : Int) : l.foldl max x ∈ x :: l := by
  induction l generalizing x with
  | nil => simp
  | cons y ys ih =>
    have h := ih (max x y)
    rw [List.foldl_cons]
    rcases max_choice x y with hmax | hmax <;> rw [hmax] at h ⊢ <;> simp only [List.mem_cons] at h ⊢ <;> tauto

/-- The extremes of a list lie in any range its elements lie in. -/
theorem minMaxZ_of_forall {P : Int → Prop} {l : List Int} (hzero : P 0) (h : ∀ x ∈ l, P x) :
    P (minMaxZ l).1 ∧ P (minMaxZ l).2 := by
  cases l with
  | nil => exact ⟨hzero, hzero⟩
  | cons x rest => exact ⟨h _ (foldl_min_mem rest x), h _ (foldl_max_mem rest x)⟩

/-- The values that ten bits of a format hold, but for the least of the signed ones. -/
def cornerRange (sg : Bool) (v : Int) : Prop := if sg then -511 ≤ v ∧ v ≤ 511 else 0 ≤ v ∧ v ≤ 1023

theorem cornerRange_quant6H {sg : Bool} {v : Int} (h : inputRange sg v) : cornerRange sg (quant6H sg v 10) := by
  cases sg with
  | false =>
    simp only [inputRange, Bool.false_eq_true, if_false] at h
    simp only [cornerRange, quant6H, Bool.false_eq_true, if_false]
    norm_num
    omega
  | true =>
    simp only [inputRange, if_true] at h
    simp only [cornerRange, quant6H, if_true]
    norm_num
    split <;> omega

theorem cornerRange_corner6H {sg : Bool} {l : List Int} (h : ∀ v ∈ l, inputRange sg v) :
    cornerRange sg (corner6H sg l).1 ∧ cornerRange sg (corner6H sg l).2 := by
  have hzero : inputRange sg 0 := by cases sg <;> simp [inputRange]
  obtain ⟨hmin, hmax⟩ := minMaxZ_of_forall hzero h
  exact ⟨cornerRange_quant6H hmin, cornerRange_quant6H hmax⟩

/-! ### The indices (R404, R408, R409) -/

theorem bestFrom_lt {α : Type} (better : α → α → Bool) (l : List α) {k kBest : Nat} (h : kBest < k) (best : α) :
    bestFrom better k kBest best l < k + l.length := by
  induction l generalizing k kBest best with
  | nil => exact h
  | cons x rest ih =>
    rw [bestFrom, List.length_cons]
    split
    · have := ih (k := k + 1) (kBest := k) (by omega) x; omega
    · have := ih (k := k + 1) (kBest := kBest) (by omega) best; omega

theorem argMinZ_lt {l : List Int} (h : l ≠ []) : argMinZ l < l.length := by
  cases l with
  | nil => exact absurd rfl h
  | cons x rest =>
    rw [argMinZ, List.length_cons, Nat.add_comm]
    exact bestFrom_lt _ rest (by decide) x

theorem palette6H_length (M : Mode6H) (sg : Bool) (E : EndpointId → IntColor) (r : Nat) : (palette6H M sg E r).length = 2 ^ M.ip := by
  simp [palette6H]

theorem assign6H_length (M : Mode6H) (sg : Bool) (shape : Nat) (E : EndpointId → IntColor) (V : List IntColor) :
    (assign6H M sg shape E V).length = V.length := List.length_mapIdx

/-- Every assigned index fits the width of an index. -/
theorem assign6H_getD_lt (M : Mode6H) (sg : Bool) (shape : Nat) (E : EndpointId → IntColor) (V : List IntColor) (i : Nat) :
    (assign6H M sg shape E V).getD i 0 < 2 ^ M.ip := by
  rcases lt_or_ge i V.length with hi | hi
  · have hne (r : Nat) (v : IntColor) : (palette6H M sg E r).map (fun u => dist6H u v) ≠ [] := by
      apply List.ne_nil_of_length_pos
      rw [List.length_map, palette6H_length]
      positivity
    rw [List.getD_eq_getElem _ _ (by rwa [assign6H_length])]
    simp only [assign6H, List.getElem_mapIdx]
    exact (argMinZ_lt (hne _ _)).trans_eq (by rw [List.length_map, palette6H_length])
  · rw [List.getD_eq_default _ _ (by rwa [assign6H_length])]
    positivity

/-- With one region the fix-up step complements all indices when the first has its top bit set (R409). -/
theorem fixedIndices6H_getD {M : Mode6H} (hparts : M.parts ≠ 1) (shape : Nat) {indices : List Nat} {i : Nat}
    (hi : i < indices.length) : (fixedIndices6H M shape indices).getD i 0 =
      if 2 ^ (M.ip - 1) ≤ indices.getD 0 0 then 2 ^ M.ip - 1 - indices.getD i 0 else indices.getD i 0 := by
  rw [List.getD_eq_getElem _ _ (by simpa [fixedIndices6H] using hi)]
  simp [fixedIndices6H, region6H, hparts, flips6H, hi]

/-! ### The witness (R424) -/

section Witness

variable {V : List IntColor} {sg : Bool}

/-- The bounding corners of the witness, quantised. -/
def lowCorner (V : List IntColor) (sg : Bool) : IntColor :=
  ⟨(corner6H sg (V.map (·.r))).1, (corner6H sg (V.map (·.g))).1, (corner6H sg (V.map (·.b))).1⟩

def highCorner (V : List IntColor) (sg : Bool) : IntColor :=
  ⟨(corner6H sg (V.map (·.r))).2, (corner6H sg (V.map (·.g))).2, (corner6H sg (V.map (·.b))).2⟩

theorem cornerRange_corners (h : ∀ v ∈ V, ∀ c, inputRange sg (comp v c)) (c : Comp) :
    cornerRange sg (comp (lowCorner V sg) c) ∧ cornerRange sg (comp (highCorner V sg) c) := by
  have hcorner : cornerRange sg (corner6H sg (V.map (comp · c))).1 ∧ cornerRange sg (corner6H sg (V.map (comp · c))).2 :=
    cornerRange_corner6H fun x hx => by
      obtain ⟨v, hv, rfl⟩ := List.mem_map.1 hx
      exact h v hv c
  cases c <;> exact hcorner

/-- The indices of the witness before the fix-up step. -/
def witnessAssigned (V : List IntColor) (sg : Bool) : List Nat :=
  assign6H mode11 sg 0 (fun e => if e = .w then lowCorner V sg else highCorner V sg) V

/-- The endpoints of the witness after the fix-up step. -/
def witnessEndpoints (V : List IntColor) (sg : Bool) : EndpointId → IntColor :=
  fixedEndpoints6H mode11 0 (witnessAssigned V sg) fun e => if e = .w then lowCorner V sg else highCorner V sg

theorem witness6H_eq (V : List IntColor) (sg : Bool) : witness6H V sg =
    ⟨0, transform6H mode11 (witnessEndpoints V sg), fixedIndices6H mode11 0 (witnessAssigned V sg)⟩ := rfl

theorem cornerRange_witness (h : ∀ v ∈ V, ∀ c, inputRange sg (comp v c)) (e : EndpointId) (c : Comp) :
    cornerRange sg (comp (witnessEndpoints V sg e) c) := by
  obtain ⟨hlow, hhigh⟩ := cornerRange_corners h c
  have hcase : witnessEndpoints V sg e = lowCorner V sg ∨ witnessEndpoints V sg e = highCorner V sg := by
    cases e <;> simp only [witnessEndpoints, fixedEndpoints6H] <;> split <;> simp
  rcases hcase with heq | heq <;> rw [heq]
  · exact hlow
  · exact hhigh

theorem mode11_prec (e : EndpointId) (c : Comp) : prec6H mode11 e c = 10 ∧ comp mode11.precW c = 10 := by
  cases e <;> cases c <;> decide

theorem transform6H_mode11 (E : EndpointId → IntColor) : transform6H mode11 E = E := by
  funext e
  exact if_neg (by simp [mode11])

theorem fits6H_witness (h : ∀ v ∈ V, ∀ c, inputRange sg (comp v c)) : fits6H mode11 sg (witness6H V sg) = true := by
  rw [fits6H, List.all_eq_true]
  intro e _
  rw [List.all_eq_true]
  intro c _
  have htwos : (sg || (e != .w && mode11.tr)) = sg := by simp [mode11]
  have hrange := cornerRange_witness h e c
  have hstored : (witness6H V sg).stored e = witnessEndpoints V sg e := by rw [witness6H_eq, transform6H_mode11]
  rw [htwos, (mode11_prec e c).1, hstored]
  simp only [cornerRange] at hrange
  cases sg with
  | false =>
    rw [if_neg (by decide)] at hrange
    exact fitsField_unsigned.2 ⟨hrange.1, by omega⟩
  | true =>
    rw [if_pos rfl] at hrange
    exact fitsField_twos.2 ⟨by omega, by omega⟩

theorem witness6H_indices_length : (witness6H V sg).indices.length = V.length := by
  rw [witness6H_eq, fixedIndices6H, List.length_mapIdx, witnessAssigned, assign6H_length]

theorem witness6H_index_lt {i : Nat} (hi : i < V.length) :
    (witness6H V sg).indices.getD i 0 < if i = 0 then 8 else 16 := by
  have hlen : i < (witnessAssigned V sg).length := by rw [witnessAssigned, assign6H_length]; exact hi
  have hlt : (witnessAssigned V sg).getD i 0 < 16 := assign6H_getD_lt ..
  have hfixed : (witness6H V sg).indices.getD i 0 = if 8 ≤ (witnessAssigned V sg).getD 0 0
      then 15 - (witnessAssigned V sg).getD i 0 else (witnessAssigned V sg).getD i 0 :=
    fixedIndices6H_getD (M := mode11) (by decide) 0 hlen
  rw [hfixed]
  rcases eq_or_ne i 0 with rfl | hne
  · rw [if_pos (c := 0 = 0) rfl]
    split <;> omega
  · rw [if_neg (c := i = 0) hne]
    split <;> omega

end Witness

/-- Settles O58: the integers by R401, the corners by `cornerRange_witness`, the first index by the fix-up step. -/
theorem bc6hWitnessAlwaysFits : Obligations.Bc6hWitnessAlwaysFits := by
  intro s sg
  have hlen : 0 < (s.intColours config sg).length := by rw [s.intColours_length]; decide
  refine ⟨inputRange_intColours s sg, fits6H_witness (inputRange_intColours s sg), ?_⟩
  have hindex := witness6H_index_lt (sg := sg) hlen
  rw [List.headD_eq_head?_getD, List.head?_eq_getElem?, ← List.getD_eq_getElem?_getD]
  exact hindex

/-- The decoder reads the witness's endpoints from the witness's block. -/
theorem mode11_reads_witness {V : List IntColor} {sg : Bool} (hlen : V.length = 16)
    (h : ∀ v ∈ V, ∀ c, inputRange sg (comp v c)) : mode6H (selector6H (enc6HBase V sg)) = some mode11
      ∧ ∀ e ∈ endpointIds mode11, ∀ c, endpoint6H mode11 (enc6HBase V sg) sg e c = comp (witnessEndpoints V sg e) c := by
  have hindices : (witness6H V sg).indices.length = 16 := witness6H_indices_length.trans hlen
  have hrange (e : EndpointId) (_ : e ∈ endpointIds mode11) (c : Comp) :
      if sg then -2 ^ (comp mode11.precW c - 1) ≤ comp (witnessEndpoints V sg e) c
          ∧ comp (witnessEndpoints V sg e) c < 2 ^ (comp mode11.precW c - 1)
        else 0 ≤ comp (witnessEndpoints V sg e) c ∧ comp (witnessEndpoints V sg e) c < 2 ^ comp mode11.precW c := by
    have hcorner := cornerRange_witness h e c
    rw [(mode11_prec e c).2]
    simp only [cornerRange] at hcorner
    cases sg with
    | false =>
      simp only [Bool.false_eq_true, if_false] at hcorner ⊢
      omega
    | true =>
      simp only [if_true] at hcorner ⊢
      omega
  have hread := bc6hDecodingInvertsEmission mode11 sg 0 (witnessEndpoints V sg) (witness6H V sg).indices (by decide) (by decide)
    hindices (fun i hi => by simpa [mode11] using witness6H_index_lt (sg := sg) (hi.trans_eq hlen.symm)) hrange (fits6H_witness h)
  exact ⟨hread.1, fun e he c => (hread.2.2.2 e he c).2⟩

/-- The witness is a block the search may keep (R423 items 1 and 5). -/
theorem admissible6H_witness {V : List IntColor} {sg : Bool} (hlen : V.length = 16)
    (h : ∀ v ∈ V, ∀ c, inputRange sg (comp v c)) : admissible6H sg (enc6HBase V sg) = true := by
  obtain ⟨hmode, hread⟩ := mode11_reads_witness hlen h
  rw [admissible6H, hmode]
  cases sg with
  | false => rfl
  | true =>
    simp only [Bool.not_true, Bool.false_or, List.all_eq_true, bne_iff_ne]
    intro e he c _
    have hcorner := cornerRange_witness h e c
    rw [hread e he c]
    rw [cornerRange, if_pos rfl] at hcorner
    omega

end Sys2Proof.Machine
end

section
/-! SUPPORT. What the BC6H and BC7 encoders write, and the statements on their contracts (47_bc6h_encode.md R420 to R423, 48_bc7.md R460 to R462). -/

namespace Sys2Proof.Machine

open Claims

/-! ### BC6H (R420 to R423) -/

/-- A BC6H encoder of a finite tile writes the block of its search. -/
theorem exec_encBc6h {s : State} (h : tileFinite s [.r, .g, .b]) (sg : Bool) : exec (if sg then .encBc6hs else .encBc6hu) s =
    .next (s.writeFormat config (if sg then .bc6hs else .bc6hu) (enc6H config (s.intColours config sg) sg).toNat) := by
  have hfinite := (s.finiteChans_config_iff _).2 h
  cases sg with
  | false => exact encodeOr_finite .encBc6hu s _ hfinite
  | true => exact encodeOr_finite .encBc6hs s _ hfinite

theorem block_encBc6h {s : State} (hwf : s.blk.wf) (sg : Bool) (b : Block) :
    (s.writeFormat config (if sg then .bc6hs else .bc6hu) b.toNat).block = b :=
  State.block_writeFormat hwf (by cases sg <;> rfl) b

theorem admissible6H_enc6H (s : State) (sg : Bool) : admissible6H sg (enc6H config (s.intColours config sg) sg) = true :=
  enc6H_of_admissible (P := fun b => admissible6H sg b = true) (fun _ h => h)
    (admissible6H_witness (s.intColours_length config sg) (inputRange_intColours s sg))

/-- An admissible block has a mode, and in the signed format no endpoint component -2^15. -/
theorem mode_of_admissible6H {sg : Bool} {b : Block} (h : admissible6H sg b = true) : ∃ M, mode6H (selector6H b) = some M
    ∧ (sg = true → ∀ e ∈ endpointIds M, ∀ c, endpoint6H M b true e c ≠ -2 ^ 15) := by
  rw [admissible6H] at h
  split at h
  · exact absurd h (by decide)
  · next M hM =>
    refine ⟨M, hM, ?_⟩
    rintro rfl e he c
    simp only [Bool.not_true, Bool.false_or, List.all_eq_true, bne_iff_ne] at h
    exact h e he c (by cases c <;> decide)

theorem blockError6H_of_mode {sg : Bool} {V : List IntColor} {b : Block} {M : Mode6H} (h : mode6H (selector6H b) = some M) :
    blockError6H sg V b = error6H M b sg V := by
  rw [blockError6H, h]

/-- Settles O55: the block kept is admissible, as the witness and every block the search may keep are, and none of them has a smaller error. -/
theorem bc6hEncoderKeepsItsContract : Obligations.Bc6hEncoderKeepsItsContract := by
  intro s sg hwf hfin
  obtain ⟨M, hM, hends⟩ := mode_of_admissible6H (admissible6H_enc6H s sg)
  have hwitness := (mode11_reads_witness (s.intColours_length config sg) (inputRange_intColours s sg)).1
  refine ⟨_, exec_encBc6h hfin sg, ?_⟩
  rw [block_encBc6h hwf]
  refine ⟨M, hM, ?_, hends, fun b hb hadm => ?_⟩
  · rw [← blockError6H_of_mode hM, ← blockError6H_of_mode hwitness]
    exact keepBest_le_witness _ _ _
  · rw [← blockError6H_of_mode hM]
    exact keepBest_le _ _ _ b (List.mem_filter.2 ⟨hb, hadm⟩)

/-- Settles O56: the block kept has a mode, so either decoder stores its pixels and nothing else. -/
theorem encodedBc6hNeverRaisesTheDiagnostic : Obligations.EncodedBc6hNeverRaisesTheDiagnostic := by
  intro s i j hi hj hwf hfin
  obtain ⟨sg, rfl⟩ : ∃ sg : Bool, i = if sg then .encBc6hs else .encBc6hu := by
    simp only [List.mem_cons, List.not_mem_nil, or_false] at hi
    rcases hi with rfl | rfl
    exacts [⟨false, rfl⟩, ⟨true, rfl⟩]
  obtain ⟨sg', rfl⟩ : ∃ sg : Bool, j = if sg then .decBc6hs else .decBc6hu := by
    simp only [List.mem_cons, List.not_mem_nil, or_false] at hj
    rcases hj with rfl | rfl
    exacts [⟨false, rfl⟩, ⟨true, rfl⟩]
  obtain ⟨M, hM, -⟩ := mode_of_admissible6H (admissible6H_enc6H s sg)
  rw [← block_encBc6h hwf sg (enc6H config (s.intColours config sg) sg)] at hM
  exact ⟨_, _, exec_encBc6h hfin sg, exec_decBc6h_of_mode hM sg', State.setTile_frame _ _, by simp, by simp, by simp⟩

/-! ### BC7 (R460 to R462) -/

/-- ENC.BC7 of a finite tile writes the block of its search. -/
theorem exec_encBc7 {s : State} (h : tileFinite s [.r, .g, .b, .a]) :
    exec .encBc7 s = .next (s.writeFormat config .bc7 (enc7 config (s.ldrColours config)).toNat) :=
  encodeOr_finite .encBc7 s _ ((s.finiteChans_config_iff _).2 h)

/-- The first byte of a mode-6 block has the one set bit that names its mode. -/
theorem emitMode6_first_byte (A B : LdrColor) (indices : List Nat) : fld (emitMode6 A B indices) 0 8 ≠ 0 := by
  rw [emitMode6, fld_ofNat _ (by decide), List.cons_append, packFields, pow_zero, Nat.div_one]
  simp only
  omega

theorem enc7Base_first_byte (L : List LdrColor) : fld (enc7Base L) 0 8 ≠ 0 := by
  simp only [enc7Base]
  split
  · exact emitMode6_first_byte _ _ _
  · exact emitMode6_first_byte _ _ _

/-- Settles O57: neither the witness nor any block the search may keep has a zero first byte, and none of them has a smaller error. -/
theorem bc7EncoderKeepsItsContract : Obligations.Bc7EncoderKeepsItsContract := by
  intro s hwf hfin
  have hblock := State.block_writeFormat hwf (cfg := config) (fmt := .bc7) rfl (enc7 config (s.ldrColours config))
  refine ⟨_, exec_encBc7 hfin, fun hzero => ?_, ?_, fun b hb hne => ?_⟩
  · refine enc7_nonzero (cfg := config) (enc7Base_first_byte (s.ldrColours config)) ?_
    rw [← hblock]
    exact (State.fld_byte _ (o := 0) (by decide)).trans (by rw [hzero]; rfl)
  · rw [hblock]
    exact keepBest_le_witness (fun b => error7 b (s.ldrColours config)) _ _
  · rw [hblock]
    exact keepBest_le (fun b => error7 b (s.ldrColours config)) _ _ b (List.mem_filter.2 ⟨hb, by simpa using hne⟩)

end Sys2Proof.Machine
end

section
/-! SUPPORT. What an encoder of BC1 to BC5 leaves in `BLK`: the number of each block fits its eight bytes and is read back from them, and the statements on what the encoders write and on the SNORM endpoints (43_bc123_encode.md R230, R240, R250; 44_bc45.md R290, R300 to R303). -/

namespace Sys2Proof.Machine

open Claims

/-! ### An eight-byte block in its place -/

section Written

variable {s : State} (hwf : s.blk.wf) {fmt : Format}

include hwf

theorem State.fld_written_eight (hfmt : 8 ≤ (config.blockBytes fmt).val) {v : Nat} (hv : v < 2 ^ 64) :
    fld (s.writeFormat config fmt v).block (8 * 0) 64 = v := by
  rw [State.fld_writeFormat hwf config fmt v (by omega)]
  omega

variable (hfmt : (config.blockBytes fmt).val = 16) {low high : Nat} (hlow : low < 2 ^ 64) (hhigh : high < 2 ^ 64)

include hfmt hlow hhigh

theorem State.fld_written_low : fld (s.writeFormat config fmt (halves low high)).block (8 * 0) 64 = low := by
  rw [State.fld_writeFormat hwf config fmt _ (by omega), halves_eq hlow hhigh]
  omega

theorem State.fld_written_high : fld (s.writeFormat config fmt (halves low high)).block (8 * 8) 64 = high := by
  rw [State.fld_writeFormat hwf config fmt _ (by omega), halves_eq hlow hhigh]
  omega

end Written

/-! ### The number of a block fits its eight bytes -/

theorem totalBits_equal_widths (l : List Nat) (w : Nat) : totalBits (l.map (·, w)) = l.length * w := by
  simp [totalBits, Function.comp_def]

theorem colourBlock_lt (c0 c1 : Nat) {indices : List Nat} (h : indices.length = 16) : colourBlock c0 c1 indices < 2 ^ 64 := by
  have hbits : totalBits ((c0, 16) :: (c1, 16) :: indices.map (·, 2)) = 64 := by
    simp [totalBits_cons, totalBits_equal_widths, h]
  rw [← hbits]
  exact packFields_lt _

theorem assignIndices_length (cfg : Config) (P : List Rgba) (dr : Bool) (steps : Nat) (thr : ℚ) (c0 c1 : Nat) (S0 S1 : Rgb) :
    (assignIndices cfg P dr steps thr c0 c1 S0 S1).length = P.length := by
  rw [assignIndices, pass_length, List.length_map]

/-! ### The quantised endpoints (R143, R254) -/

/-- A number of the unit interval quantised to `n` steps. -/
theorem quantUnit_le (n : Nat) (x : ℚ) : (rhu (clampQ x 0 1 * n)).toNat ≤ n := by
  have hle : clampQ x 0 1 * n ≤ n := mul_le_of_le_one_left (Nat.cast_nonneg n) (min_le_right _ _)
  have hlt : ⌊clampQ x 0 1 * n + 1 / 2⌋ < (n : Int) + 1 := by
    rw [Int.floor_lt]
    push_cast
    linarith
  have hrhu : rhu (clampQ x 0 1 * n) < (n : Int) + 1 := hlt
  omega

theorem enc565_lt (c : Rgb) : enc565 c < 65536 := by
  have hr := quantUnit_le 31 c.r
  have hg := quantUnit_le 63 c.g
  have hb := quantUnit_le 31 c.b
  push_cast at hr hg hb
  rw [enc565]
  omega

/-! ### The shape of a colour block (R221 to R228) -/

/-- The quantiser of the index pass: index 3 and no residual for the keyed pixels of a three-step block, else the axis index with the palette colour it stands for (R227). -/
def colourQuantiser (cfg : Config) (P : List Rgba) (steps : Nat) (thr : ℚ) (c0 c1 : Nat) (S0 S1 : Rgb) (i : Nat) (v : Rgb) :
    Nat × Option Rgb :=
  let axis := weigh cfg.weights (rgbOps.sub S1 S0)
  let dir := if c0 = c1 then rgbOps.zero else rgbOps.scale (((steps - 1 : Nat) : ℚ) / dot3 axis axis) axis
  let k := axisIndex cfg.weights steps S0 dir v
  if steps = 3 ∧ keyed thr (entry P i) then (3, none)
  else (k, some (rgbOf (entry (if steps = 3 then palette3 S0 S1 else palette4 S0 S1) k)))

theorem assignIndices_eq_pass (cfg : Config) (P : List Rgba) (dr : Bool) (steps : Nat) (thr : ℚ) (c0 c1 : Nat) (S0 S1 : Rgb) :
    assignIndices cfg P dr steps thr c0 c1 S0 S1
      = pass rgbOps dr (colourQuantiser cfg P steps thr c0 c1 S0 S1) (P.map rgbOf) := rfl

/-- On an axis of no length every colour has index 0. -/
theorem axisIndex_zero (w : Rgb) (steps : Nat) (S0 v : Rgb) : axisIndex w steps S0 rgbOps.zero v = 0 := by
  have hdot : dot3 (weigh w (rgbOps.sub v S0)) rgbOps.zero = 0 := by simp [dot3, rgbOps]
  rw [axisIndex, hdot, axisPos, if_pos le_rfl, colourPerm]
  split <;> rfl

section Blocks

variable (cfg : Config) {P : List Rgba} (hP : P.length = 16) (dr ck : Bool) (thr : ℚ)

omit hP in
theorem encColour_of_all_keyed {cfg : Config} {ck : Bool} {thr : ℚ} (h : ck = true ∧ P.all (keyed thr) = true) :
    encColour cfg P dr ck thr = colourBlock 0x0000 0xFFFF (List.replicate 16 3) := by
  rw [encColour, if_pos h]

include hP

/-- Equal endpoints of a four-step block give index 0 throughout: the degenerate block is no special case of the index pass (R225). -/
theorem assignIndices_degenerate (c : Nat) (S0 S1 : Rgb) :
    assignIndices cfg P dr 4 thr c c S0 S1 = List.replicate 16 0 := by
  have hindex (i : Nat) (v : Rgb) : (colourQuantiser cfg P 4 thr c c S0 S1 i v).1 = 0 := by
    rw [colourQuantiser, if_neg (by simp), if_pos rfl]
    exact axisIndex_zero ..
  rw [assignIndices_eq_pass, pass_eq_map_running rgbOps dr _ ((List.length_map _).trans hP)]
  exact List.ext_getElem (by simp) fun i _ _ => by simp [hindex]

/-- The block of two quantised endpoints: they are stored in the order that selects the mode of the step count, and every index is the index pass's (R225 to R229). -/
theorem emitColour_eq {cfg : Config} {dr : Bool} {thr : ℚ} {steps : Nat} (hsteps : steps = 3 ∨ steps = 4) {wA wB : Nat}
    (hA : wA < 65536) (hB : wB < 65536) : ∃ c0 < 65536, ∃ c1 < 65536, (if steps = 3 then c0 ≤ c1 else c1 ≤ c0)
      ∧ emitColour cfg P dr steps thr wA wB
        = colourBlock c0 c1 (assignIndices cfg P dr steps thr c0 c1 (dec565 c0) (dec565 c1)) := by
  obtain rfl | rfl := hsteps
  · rw [emitColour, if_neg (by simp)]
    by_cases hle : wA ≤ wB
    · exact ⟨wA, hA, wB, hB, by simpa using hle, if_pos (by simpa using hle)⟩
    · exact ⟨wB, hB, wA, hA, by simpa using (not_le.1 hle).le, if_neg (by simpa using hle)⟩
  · by_cases heq : wA = wB
    · subst heq
      refine ⟨wA, hA, wA, hA, by simp, ?_⟩
      rw [assignIndices_degenerate cfg hP, emitColour, if_pos ⟨rfl, rfl⟩]
    · rw [emitColour, if_neg (by simp [heq])]
      by_cases hle : wA ≤ wB
      · exact ⟨wB, hB, wA, hA, by simpa using hle, if_neg (by simpa using hle)⟩
      · exact ⟨wA, hA, wB, hB, by simpa using (not_le.1 hle).le, if_pos (by simpa using hle)⟩

omit hP in
theorem colourSteps_eq_or (P : List Rgba) : colourSteps P ck thr = 3 ∨ colourSteps P ck thr = 4 := by
  rw [colourSteps]
  split <;> simp

theorem encColour_eq (h : ¬ (ck = true ∧ P.all (keyed thr) = true)) : ∃ c0 < 65536, ∃ c1 < 65536,
    (if colourSteps P ck thr = 3 then c0 ≤ c1 else c1 ≤ c0) ∧ encColour cfg P dr ck thr
      = colourBlock c0 c1 (assignIndices cfg P dr (colourSteps P ck thr) thr c0 c1 (dec565 c0) (dec565 c1)) := by
  rw [encColour, if_neg h]
  exact emitColour_eq hP (colourSteps_eq_or ..) (enc565_lt _) (enc565_lt _)

theorem encColour_lt : encColour cfg P dr ck thr < 2 ^ 64 := by
  by_cases h : ck = true ∧ P.all (keyed thr) = true
  · rw [encColour_of_all_keyed dr h]
    exact colourBlock_lt _ _ List.length_replicate
  · obtain ⟨c0, -, c1, -, -, henc⟩ := encColour_eq cfg hP dr ck thr h
    rw [henc]
    exact colourBlock_lt _ _ ((assignIndices_length ..).trans hP)

end Blocks

/-! ### The shape of an alpha block (R240, R251 to R255) -/

/-- The step count of the alpha ramp (R253). -/
def alphaSteps (P : List Rgba) (da : Bool) : Nat :=
  if minOr 0 (alphaGrid P da) = 0 ∨ maxOr 0 (alphaGrid P da) = 1 then 6 else 8

/-- The quantiser of the alpha index pass (R255). -/
def alphaQuantiser (steps a0 a1 : Nat) (_ : Nat) (v : ℚ) : Nat × Option ℚ :=
  let rp := ramp ((a0 : ℚ) / 255) ((a1 : ℚ) / 255) (decide (steps = 8)) 0 1
  (alphaIndex steps rp v, some (rp.getD (alphaIndex steps rp v) 0))

theorem emitAlpha_eq_pass (P : List Rgba) (da : Bool) (steps a0 a1 : Nat) : emitAlpha P da steps a0 a1
    = rampBlock a0 a1 (pass scalarOps da (alphaQuantiser steps a0 a1) (P.map (·.a))) := rfl

section Alpha

variable {P : List Rgba} (hP : P.length = 16) (da : Bool)

include hP

/-- Equal endpoints of an eight-step ramp give index 0 throughout (R254). -/
theorem emitAlpha_degenerate (a : Nat) : emitAlpha P da 8 a a = rampBlock a a (List.replicate 16 0) := by
  have hindex (i : Nat) (v : ℚ) : (alphaQuantiser 8 a a i v).1 = 0 := by simp [alphaQuantiser, alphaIndex, ramp]
  rw [emitAlpha_eq_pass, pass_eq_map_running scalarOps da _ ((List.length_map _).trans hP)]
  exact congrArg (rampBlock a a) (List.ext_getElem (by simp) fun i _ _ => by simp [hindex])

omit hP in
theorem alphaSteps_eq_or (P : List Rgba) : alphaSteps P da = 6 ∨ alphaSteps P da = 8 := by
  rw [alphaSteps]
  split <;> simp

omit hP in
theorem encAlpha8_of_opaque (cfg : Config) (h : minOr 0 (alphaGrid P da) = 1) :
    encAlpha8 cfg P da = rampBlock 255 255 (List.replicate 16 0) := if_pos h

/-- But for the opaque shortcut an alpha block is the index pass's on two stored endpoints (R253 to R255). -/
theorem encAlpha8_eq (cfg : Config) (h : minOr 0 (alphaGrid P da) ≠ 1) : ∃ a0 < 256, ∃ a1 < 256,
    encAlpha8 cfg P da = emitAlpha P da (alphaSteps P da) a0 a1 := by
  obtain ⟨bA, hA⟩ : ∃ n, n = (rhu ((optimizeAlpha cfg (alphaGrid P da) (alphaSteps P da) 0).1 * 255)).toNat := ⟨_, rfl⟩
  obtain ⟨bB, hB⟩ : ∃ n, n = (rhu ((optimizeAlpha cfg (alphaGrid P da) (alphaSteps P da) 0).2 * 255)).toNat := ⟨_, rfl⟩
  have hltA : bA < 256 := hA ▸ Nat.lt_succ_of_le (quantUnit_le 255 _)
  have hltB : bB < 256 := hB ▸ Nat.lt_succ_of_le (quantUnit_le 255 _)
  have henc : encAlpha8 cfg P da = if alphaSteps P da = 8 ∧ bA = bB then rampBlock bA bB (List.replicate 16 0)
      else if alphaSteps P da = 6 then emitAlpha P da 6 bA bB else emitAlpha P da 8 bB bA := by
    rw [hA, hB]
    exact if_neg h
  rw [henc]
  obtain h6 | h8 := alphaSteps_eq_or da P
  · rw [h6, if_neg (by simp), if_pos rfl]
    exact ⟨bA, hltA, bB, hltB, rfl⟩
  · rw [h8]
    by_cases heq : bA = bB
    · rw [if_pos ⟨rfl, heq⟩, ← heq]
      exact ⟨bA, hltA, bA, hltA, (emitAlpha_degenerate hP da bA).symm⟩
    · rw [if_neg (by simp [heq]), if_neg (by decide)]
      exact ⟨bB, hltB, bA, hltA, rfl⟩

theorem encAlpha4_lt : encAlpha4 P da < 2 ^ 64 := by
  rw [encAlpha4]
  refine (packFields_lt _).trans_eq ?_
  rw [totalBits_equal_widths, pass_length, List.length_map, hP]

theorem encAlpha8_lt (cfg : Config) : encAlpha8 cfg P da < 2 ^ 64 := by
  by_cases h : minOr 0 (alphaGrid P da) = 1
  · rw [encAlpha8_of_opaque da cfg h]
    exact rampBlock_lt _ _ List.length_replicate
  · obtain ⟨a0, -, a1, -, henc⟩ := encAlpha8_eq hP da cfg h
    rw [henc]
    exact rampBlock_lt _ _ (by rw [pass_length, List.length_map, hP])

end Alpha

/-! ### The commands -/

/-- ENC.BC1 with finite inputs writes its colour block (R230). -/
theorem exec_encBc1 {s : State} {dr ck : Bool} (h : inputsFinite (.encBc1 dr ck) [.r, .g, .b, .a] s) : exec (.encBc1 dr ck) s =
    .next (s.writeFormat config .bc1 (encColour config (s.colours config) dr ck (val s.athr))) :=
  encodeOr_finite _ _ _ ((finiteChans_athr_iff_inputsFinite dr ck _ s).2 h)

/-- ENC.BC3 of a finite tile writes the alpha block below the colour block (R250). -/
theorem exec_encBc3 {s : State} (h : tileFinite s [.r, .g, .b, .a]) (dr da : Bool) : exec (.encBc3 dr da) s =
    .next (s.writeFormat config .bc3
      (halves (encAlpha8 config (s.colours config) da) (encColour config (s.colours config) dr false 0))) :=
  encodeOr_finite _ _ _ ((s.finiteChans_config_iff _).2 h)

section Commands

variable {s : State} (hwf : s.blk.wf)

include hwf

theorem encBc1_writes {dr ck : Bool} (h : inputsFinite (.encBc1 dr ck) [.r, .g, .b, .a] s) :
    ∃ t, exec (.encBc1 dr ck) s = .next t
      ∧ fld t.block (8 * 0) 64 = encColour config (s.colours config) dr ck (val s.athr) :=
  ⟨_, exec_encBc1 h, State.fld_written_eight hwf (by decide) (encColour_lt config (s.colours_length config) ..)⟩

theorem encBc2_writes (h : tileFinite s [.r, .g, .b, .a]) (dr da : Bool) :
    ∃ t, exec (.encBc2 dr da) s = .next t ∧ fld t.block (8 * 0) 64 = encAlpha4 (s.colours config) da
      ∧ fld t.block (8 * 8) 64 = encColour config (s.colours config) dr false 0 := by
  have halpha := encAlpha4_lt (s.colours_length config) da
  have hcolour := encColour_lt config (s.colours_length config) dr false 0
  exact ⟨_, exec_encBc2 h dr da, State.fld_written_low hwf rfl halpha hcolour, State.fld_written_high hwf rfl halpha hcolour⟩

theorem encBc3_writes (h : tileFinite s [.r, .g, .b, .a]) (dr da : Bool) :
    ∃ t, exec (.encBc3 dr da) s = .next t ∧ fld t.block (8 * 0) 64 = encAlpha8 config (s.colours config) da
      ∧ fld t.block (8 * 8) 64 = encColour config (s.colours config) dr false 0 := by
  have halpha := encAlpha8_lt (s.colours_length config) da config
  have hcolour := encColour_lt config (s.colours_length config) dr false 0
  exact ⟨_, exec_encBc3 h dr da, State.fld_written_low hwf rfl halpha hcolour, State.fld_written_high hwf rfl halpha hcolour⟩

theorem encBc4_writes (h : tileFinite s [.r]) (sg : Bool) :
    ∃ t, exec (if sg then .encBc4s else .encBc4u) s = .next t
      ∧ fld t.block (8 * 0) 64 = encChan config sg (s.channel .r) :=
  ⟨_, exec_encBc4 h sg, State.fld_written_eight hwf (by cases sg <;> decide) (encChan_lt config sg (s.channel_length .r))⟩

theorem encBc5_writes (h : tileFinite s [.r, .g]) (sg : Bool) :
    ∃ t, exec (if sg then .encBc5s else .encBc5u) s = .next t
      ∧ fld t.block (8 * 0) 64 = encChan config sg (s.channel .r)
      ∧ fld t.block (8 * 8) 64 = encChan config sg (s.channel .g) := by
  have hr := encChan_lt config sg (s.channel_length .r)
  have hg := encChan_lt config sg (s.channel_length .g)
  have hfmt : (config.blockBytes (if sg then .bc5s else .bc5u)).val = 16 := by cases sg <;> rfl
  exact ⟨_, exec_encBc5 h sg, State.fld_written_low hwf hfmt hr hg, State.fld_written_high hwf hfmt hr hg⟩

end Commands

/-- The eight bytes at `o` as the statements read them. -/
theorem State.readBytes_of_fld {t : State} {o v : Nat} (ho : o + 8 ≤ 16) (h : fld t.block (8 * o) 64 = v) :
    t.blk.readBytes o 8 = v := (t.fld_bytes ho).symm.trans h

/-- Settles O42: what each command writes, read back from its bytes by the `_writes` lemmas. -/
theorem encodersWriteTheEncodedBlock : Obligations.EncodersWriteTheEncodedBlock := by
  intro dr f s hwf
  refine ⟨fun h => ?bc1, fun h => ⟨?bc2, ?bc3, _, exec_encBc7 h, State.block_writeFormat hwf rfl _⟩, fun h sg => ?bc4,
    fun h sg => ?bc5, fun h sg => ⟨_, exec_encBc6h h sg, block_encBc6h hwf sg _⟩⟩
  case bc1 =>
    obtain ⟨t, hexec, hcolour⟩ := encBc1_writes hwf h
    exact ⟨t, hexec, State.readBytes_of_fld (by decide) hcolour⟩
  case bc2 =>
    obtain ⟨t, hexec, halpha, hcolour⟩ := encBc2_writes hwf h dr f
    exact ⟨t, hexec, State.readBytes_of_fld (by decide) halpha, State.readBytes_of_fld (by decide) hcolour⟩
  case bc3 =>
    obtain ⟨t, hexec, halpha, hcolour⟩ := encBc3_writes hwf h dr f
    exact ⟨t, hexec, State.readBytes_of_fld (by decide) halpha, State.readBytes_of_fld (by decide) hcolour⟩
  case bc4 =>
    obtain ⟨t, hexec, hr⟩ := encBc4_writes hwf h sg
    exact ⟨t, hexec, State.readBytes_of_fld (by decide) hr⟩
  case bc5 =>
    obtain ⟨t, hexec, hr, hg⟩ := encBc5_writes hwf h sg
    exact ⟨t, hexec, State.readBytes_of_fld (by decide) hr, State.readBytes_of_fld (by decide) hg⟩

/-! ### The SNORM endpoints (R290) -/

/-- The nearest integer to a number within `n` of 0 is within `n` of 0. -/
theorem rha_range {q : ℚ} {n : Nat} (hlo : -(n : ℚ) ≤ q) (hhi : q ≤ n) : -(n : Int) ≤ rha q ∧ rha q ≤ n := by
  have hround {x : ℚ} (h0 : 0 ≤ x) (hn : x ≤ n) : 0 ≤ ⌊x + 1 / 2⌋ ∧ ⌊x + 1 / 2⌋ ≤ n := by
    refine ⟨Int.floor_nonneg.2 (by linarith), Int.lt_add_one_iff.1 (Int.floor_lt.2 ?_)⟩
    push_cast
    linarith
  rw [rha]
  split_ifs with h
  · obtain ⟨hnonneg, hle⟩ : 0 ≤ (q + 1 / 2).floor ∧ (q + 1 / 2).floor ≤ n := hround h hhi
    omega
  · obtain ⟨hnonneg, hle⟩ : 0 ≤ (-q + 1 / 2).floor ∧ (-q + 1 / 2).floor ≤ n := hround (by linarith) (by linarith)
    omega

theorem quantEndpoint_snorm_range (x : ℚ) : -127 ≤ quantEndpoint true x ∧ quantEndpoint true x ≤ 127 := by
  have hlo : (-1 : ℚ) ≤ clampQ x (-1) 1 := le_min (le_max_right _ _) (by norm_num)
  have hhi : clampQ x (-1) 1 ≤ 1 := min_le_right _ _
  exact rha_range (n := 127) (by push_cast; linarith) (by push_cast; linarith)

theorem storedByte_snorm_ne (x : ℚ) : storedByte (quantEndpoint true x) ≠ 128 := by
  obtain ⟨hlo, hhi⟩ := quantEndpoint_snorm_range x
  rw [storedByte]
  omega

theorem channelEndpoints_snorm_ne (cfg : Config) (V : List ℚ) :
    (channelEndpoints cfg true V).1 ≠ 128 ∧ (channelEndpoints cfg true V).2 ≠ 128 := by
  rw [channelEndpoints]
  split <;> exact ⟨storedByte_snorm_ne _, storedByte_snorm_ne _⟩

theorem State.read_snorm_endpoints_ne {t : State} {o : Nat} {V : List ℚ} (ho : o + 8 ≤ 16)
    (h : fld t.block (8 * o) 64 = encChan config true V) : t.blk.read o ≠ 0x80#8 ∧ t.blk.read (o + 1) ≠ 0x80#8 := by
  obtain ⟨hlt0, hlt1⟩ := channelEndpoints_lt config true V
  obtain ⟨hne0, hne1⟩ := channelEndpoints_snorm_ne config V
  constructor
  · intro hread
    exact hne0 (by rw [← State.read_endpoint0 ho h hlt0, hread]; rfl)
  · intro hread
    exact hne1 (by rw [← State.read_endpoint1 ho h hlt1, hread]; rfl)

/-- Settles O54: the channel blocks are read back from their bytes, and their endpoints are bytes of integers in -127..127. -/
theorem snormEndpointNeverMinus128 : Obligations.SnormEndpointNeverMinus128 := by
  intro s hwf
  refine ⟨fun h => ?bc4, fun h => ?bc5⟩
  case bc4 =>
    obtain ⟨t, hexec, hr⟩ := encBc4_writes hwf h true
    exact ⟨t, hexec, State.read_snorm_endpoints_ne (by decide) hr⟩
  case bc5 =>
    obtain ⟨t, hexec, hr, hg⟩ := encBc5_writes hwf h true
    obtain ⟨hr0, hr1⟩ := State.read_snorm_endpoints_ne (by decide) hr
    exact ⟨t, hexec, hr0, hr1, State.read_snorm_endpoints_ne (by decide) hg⟩

end Sys2Proof.Machine
end

section
/-! SUPPORT. The colour block of an encoder, read back: its words, its bitmap, the order of its endpoints and its indices, and the statements on them (43_bc123_encode.md R221 to R229). -/

namespace Sys2Proof.Machine

open Claims

/-! ### The fields of a colour block (R190) -/

section Holds

variable {t : State} {o c0 c1 : Nat} {indices : List Nat} (ho : o + 8 ≤ 16)
  (h : fld t.block (8 * o) 64 = colourBlock c0 c1 indices)

include ho h

theorem State.word16_eq_colour0 (hc : c0 < 65536) : word16 t o = c0 := by
  rw [← t.fld_word16 (by omega), ← Nat.add_zero (8 * o), fld_within t.block (8 * o) (m := 64) (by omega), h]
  simp only [colourBlock, packFields]
  omega

theorem State.word16_eq_colour1 (hc : c1 < 65536) : word16 t (o + 2) = c1 := by
  rw [← t.fld_word16 (by omega), Nat.mul_add, fld_within t.block (8 * o) (m := 64) (by omega), h]
  simp only [colourBlock, packFields]
  omega

omit ho in
theorem State.fld_bitmap {q n : Nat} (hq : q + n ≤ 32) :
    fld t.block (8 * o + (32 + q)) n = packFields (indices.map (·, 2)) / 2 ^ q % 2 ^ n := by
  have hpast : colourBlock c0 c1 indices / 2 ^ 32 = packFields (indices.map (·, 2)) := by
    simp only [colourBlock, packFields]
    omega
  rw [fld_within t.block (8 * o) (m := 64) (by omega), h, pow_add, ← Nat.div_div_eq_div_mul, hpast]

theorem State.bitmapIndex_eq_getD {i : Nat} (hi : i < 16) : bitmapIndex t o i = indices.getD i 0 % 4 := by
  rw [← t.colourIndex_block ho hi, colourIndex, Nat.add_assoc, State.fld_bitmap h (by omega)]
  exact packFields_equal_widths indices 2 i

theorem State.readBytes_bitmap : t.blk.readBytes (o + 4) 4 = packFields (indices.map (·, 2)) % 2 ^ 32 := by
  rw [← t.fld_bytes (by omega), show 8 * (o + 4) = 8 * o + (32 + 0) by omega, State.fld_bitmap h (by decide), pow_zero,
    Nat.div_one]

end Holds

/-! ### The keyed pixels (R221, R222) -/

theorem State.any_keyed_iff (s : State) (thr : ℚ) :
    (s.colours config).any (keyed thr) = true ↔ ∃ i : Fin 16, val (s.pix[i.val]).a < thr := by
  rw [List.any_eq_true]
  constructor
  · rintro ⟨p, hp, hkeyed⟩
    obtain ⟨n, hn, rfl⟩ := List.getElem_of_mem hp
    have h16 : n < 16 := hn.trans_eq (s.colours_length config)
    rw [s.colours_getElem config ⟨n, h16⟩] at hkeyed
    exact ⟨⟨n, h16⟩, of_decide_eq_true hkeyed⟩
  · rintro ⟨i, hi⟩
    refine ⟨_, List.getElem_mem (i.isLt.trans_eq (s.colours_length config).symm), ?_⟩
    rw [s.colours_getElem config i]
    exact decide_eq_true hi

theorem State.all_keyed_iff (s : State) (thr : ℚ) :
    (s.colours config).all (keyed thr) = true ↔ ∀ i : Fin 16, val (s.pix[i.val]).a < thr := by
  rw [List.all_eq_true]
  constructor
  · intro h i
    have hkeyed := h _ (List.getElem_mem (i.isLt.trans_eq (s.colours_length config).symm))
    rw [s.colours_getElem config i] at hkeyed
    exact of_decide_eq_true hkeyed
  · intro h p hp
    obtain ⟨n, hn, rfl⟩ := List.getElem_of_mem hp
    rw [s.colours_getElem config ⟨n, hn.trans_eq (s.colours_length config)⟩]
    exact decide_eq_true (h _)

theorem State.keyed_entry_iff (s : State) (thr : ℚ) {i : Nat} (hi : i < 16) :
    keyed thr (entry (s.colours config) i) = true ↔ chanValue s .a i < thr := by
  have hlen : i < (s.colours config).length := hi.trans_eq (s.colours_length config).symm
  rw [← s.colours_alpha hi, keyed, decide_eq_true_iff, entry, List.getD_eq_getElem _ _ hlen,
    List.getD_eq_getElem _ _ (by simpa using hlen), List.getElem_map]

/-- A tile that is neither wholly keyed nor, with the key off, looked at by it has three steps exactly when some pixel is keyed. -/
theorem State.colourSteps_colours {s : State} {ck : Bool} {thr : ℚ}
    (h : ¬ (ck = true ∧ (s.colours config).all (keyed thr) = true)) :
    colourSteps (s.colours config) ck thr = 3 ↔ ck = true ∧ ∃ i : Fin 16, val (s.pix[i.val]).a < thr := by
  have hany := s.any_keyed_iff thr
  by_cases hsome : ck = true ∧ ∃ i : Fin 16, val (s.pix[i.val]).a < thr
  · rw [colourSteps, if_pos ⟨hsome.1, hany.2 hsome.2, fun hall => h ⟨hsome.1, hall⟩⟩]
    exact iff_of_true rfl hsome
  · rw [colourSteps, if_neg fun hc => hsome ⟨hc.1, hany.1 hc.2.1⟩]
    exact iff_of_false (by decide) hsome

/-! ### The order of the endpoints (R226, R229) -/

section Order

variable {s t : State} {o : Nat} {dr ck : Bool} {thr : ℚ} (ho : o + 8 ≤ 16)
  (h : fld t.block (8 * o) 64 = encColour config (s.colours config) dr ck thr)

include ho h

theorem fourStep_order (hnone : ¬ (ck = true ∧ ∃ i : Fin 16, val (s.pix[i.val]).a < thr)) :
    word16 t (o + 2) < word16 t o ∨ (word16 t o = word16 t (o + 2) ∧ t.blk.readBytes (o + 4) 4 = 0) := by
  have hkey : ¬ (ck = true ∧ (s.colours config).all (keyed thr) = true) := fun hall =>
    hnone ⟨hall.1, 0, (s.all_keyed_iff thr).1 hall.2 0⟩
  have hsteps : colourSteps (s.colours config) ck thr = 4 :=
    (colourSteps_eq_or ck thr _).resolve_left (mt (State.colourSteps_colours hkey).1 hnone)
  obtain ⟨c0, hc0, c1, hc1, horder, henc⟩ := encColour_eq config (s.colours_length config) dr ck thr hkey
  rw [hsteps] at horder henc
  rw [henc] at h
  rw [State.word16_eq_colour0 ho h hc0, State.word16_eq_colour1 ho h hc1, State.readBytes_bitmap ho h]
  obtain hlt | heq := (show c1 ≤ c0 by simpa using horder).lt_or_eq
  · exact .inl hlt
  · refine .inr ⟨heq.symm, ?_⟩
    rw [heq, assignIndices_degenerate config (s.colours_length config)]
    decide

theorem threeStep_order (hck : ck = true) (hsome : ∃ i : Fin 16, val (s.pix[i.val]).a < thr)
    (hnot : ∃ i : Fin 16, ¬ val (s.pix[i.val]).a < thr) : word16 t o ≤ word16 t (o + 2) := by
  obtain ⟨i, hi⟩ := hnot
  have hkey : ¬ (ck = true ∧ (s.colours config).all (keyed thr) = true) := fun hall =>
    hi ((s.all_keyed_iff thr).1 hall.2 i)
  obtain ⟨c0, hc0, c1, hc1, horder, henc⟩ := encColour_eq config (s.colours_length config) dr ck thr hkey
  rw [henc] at h
  rw [State.word16_eq_colour0 ho h hc0, State.word16_eq_colour1 ho h hc1]
  rwa [if_pos ((State.colourSteps_colours hkey).2 ⟨hck, hsome⟩)] at horder

end Order

theorem inputsFinite_encBc1_no_key {s : State} (h : tileFinite s [.r, .g, .b, .a]) (dr : Bool) :
    inputsFinite (.encBc1 dr false) [.r, .g, .b, .a] s := ⟨h, fun _ hi => by simp at hi⟩

theorem inputsFinite_encBc1_key {s : State} (h : tileFinite s [.r, .g, .b, .a]) (ha : athrFinite s) (dr : Bool) :
    inputsFinite (.encBc1 dr true) [.r, .g, .b, .a] s := ⟨h, fun _ _ => ha⟩

/-- Settles O47: each command's colour block read back, by `fourStep_order` and `threeStep_order`. -/
theorem encodedEndpointOrderSelectsTheMode : Obligations.EncodedEndpointOrderSelectsTheMode := by
  intro s dr f hwf hfin
  have hoff (thr : ℚ) : ¬ (false = true ∧ ∃ i : Fin 16, val (s.pix[i.val]).a < thr) := by simp
  refine ⟨?bc1, ?bc2, ?bc3, fun ha hsome hnot => ?partly, fun ha hnone => ?unkeyed⟩
  case bc1 =>
    obtain ⟨t, hexec, hcolour⟩ := encBc1_writes hwf (inputsFinite_encBc1_no_key hfin dr)
    exact ⟨t, hexec, fourStep_order (by decide) hcolour (hoff _)⟩
  case bc2 =>
    obtain ⟨t, hexec, -, hcolour⟩ := encBc2_writes hwf hfin dr f
    exact ⟨t, hexec, fourStep_order (by decide) hcolour (hoff _)⟩
  case bc3 =>
    obtain ⟨t, hexec, -, hcolour⟩ := encBc3_writes hwf hfin dr f
    exact ⟨t, hexec, fourStep_order (by decide) hcolour (hoff _)⟩
  case partly =>
    obtain ⟨t, hexec, hcolour⟩ := encBc1_writes hwf (inputsFinite_encBc1_key hfin ha dr)
    exact ⟨t, hexec, threeStep_order (by decide) hcolour rfl hsome hnot⟩
  case unkeyed =>
    obtain ⟨t, hexec, hcolour⟩ := encBc1_writes hwf (inputsFinite_encBc1_key hfin ha dr)
    exact ⟨t, hexec, fourStep_order (by decide) hcolour fun hsome => hsome.2.elim hnone⟩

/-! ### The axis index (R227) -/

theorem axisPos_eq_positionOf {steps : Nat} (hsteps : 0 < steps) (dot : ℚ) : axisPos steps dot = positionOf steps dot := by
  have hcast : ((steps - 1 : Nat) : ℚ) = steps - 1 := by push_cast [Nat.cast_sub (Nat.succ_le_of_lt hsteps)]; rfl
  rw [axisPos, positionOf, hcast]
  rfl

theorem positionOf_lt {steps : Nat} (hsteps : 0 < steps) (dot : ℚ) : positionOf steps dot < steps := by
  rw [positionOf]
  split_ifs with hlow hhigh
  · exact hsteps
  · omega
  · have hlt : ⌊dot + 1 / 2⌋ < steps := by
      rw [Int.floor_lt]
      push_cast
      linarith
    omega

/-- The table of stored indices is that of the positions, the two ends first. -/
theorem colourPerm_getD {steps pos : Nat} (hsteps : steps = 3 ∨ steps = 4) (hpos : pos < steps) :
    (colourPerm steps).getD pos 0 = indexOfPosition steps pos := by
  obtain rfl | rfl := hsteps <;> interval_cases pos <;> rfl

theorem indexOfPosition_lt {steps pos : Nat} (hsteps : 1 < steps) (hpos : pos < steps) : indexOfPosition steps pos < steps := by
  rw [indexOfPosition]
  split_ifs <;> omega

theorem axisIndexFor_lt {steps : Nat} (hsteps : 1 < steps) (c0 c1 : Nat) (v : Rgb) : axisIndexFor steps c0 c1 v < steps := by
  simp only [axisIndexFor]
  split
  · omega
  · exact indexOfPosition_lt hsteps (positionOf_lt (by omega) _)

/-- The colours of the stored endpoints as the statements name them. -/
theorem dec565_eq_paletteColour {c0 c1 : Nat} (h0 : c0 < 65536) (h1 : c1 < 65536) :
    dec565 c0 = rgbOf (paletteColour false c0 c1 0) ∧ dec565 c1 = rgbOf (paletteColour false c0 c1 1) := by
  rw [dec565_of_lt h0, dec565_of_lt h1]
  exact ⟨rfl, rfl⟩

/-- The projection on the axis between `S` and `T`, scaled to the steps. -/
theorem dot3_axis (S T v : Rgb) (n : ℚ) :
    dot3 (rgbOps.sub v S) (rgbOps.scale (n / dot3 (rgbOps.sub T S) (rgbOps.sub T S)) (rgbOps.sub T S))
      = ((v.r - S.r) * (T.r - S.r) + (v.g - S.g) * (T.g - S.g) + (v.b - S.b) * (T.b - S.b)) * n
        / ((T.r - S.r) ^ 2 + (T.g - S.g) ^ 2 + (T.b - S.b) ^ 2) := by
  have hL : dot3 (rgbOps.sub T S) (rgbOps.sub T S) = (T.r - S.r) ^ 2 + (T.g - S.g) ^ 2 + (T.b - S.b) ^ 2 := by
    simp only [dot3, rgbOps, Triple.map₂]
    ring
  rw [hL]
  simp only [dot3, rgbOps, Triple.map₂, Triple.map]
  ring

/-! ### The index pass (R227) -/

section Pass

variable (P : List Rgba) {steps : Nat} (hsteps : steps = 3 ∨ steps = 4) (thr : ℚ) {c0 c1 : Nat} (h0 : c0 < 65536)
  (h1 : c1 < 65536)

/-- A keyed pixel of a three-step block has index 3 and leaves no residual. -/
theorem colourQuantiser_of_keyed {i : Nat} (h : steps = 3 ∧ keyed thr (entry P i) = true) (v : Rgb) :
    colourQuantiser config P steps thr c0 c1 (dec565 c0) (dec565 c1) i v = (3, none) := if_pos h

include hsteps h0 h1

/-- Every other pixel has the index of its place on the axis, and stands for the palette colour of that index. -/
theorem colourQuantiser_of_not_keyed {i : Nat} (h : ¬ (steps = 3 ∧ keyed thr (entry P i) = true)) (v : Rgb) :
    colourQuantiser config P steps thr c0 c1 (dec565 c0) (dec565 c1) i v
      = (axisIndexFor steps c0 c1 v, some (rgbOf (paletteColour (decide (steps = 3)) c0 c1 (axisIndexFor steps c0 c1 v)))) := by
  have hpos : 0 < steps := by omega
  have hlt : axisIndexFor steps c0 c1 v < 4 := (axisIndexFor_lt (by omega) c0 c1 v).trans_le (by omega)
  have hcast : ((steps - 1 : Nat) : ℚ) = steps - 1 := by push_cast [Nat.cast_sub (Nat.succ_le_of_lt hpos)]; rfl
  obtain ⟨hS, hT⟩ := dec565_eq_paletteColour h0 h1
  have hindex : axisIndex ⟨1, 1, 1⟩ steps (dec565 c0)
      (if c0 = c1 then rgbOps.zero
        else rgbOps.scale (((steps - 1 : Nat) : ℚ) / dot3 (rgbOps.sub (dec565 c1) (dec565 c0)) (rgbOps.sub (dec565 c1) (dec565 c0)))
          (rgbOps.sub (dec565 c1) (dec565 c0))) v = axisIndexFor steps c0 c1 v := by
    by_cases heq : c0 = c1
    · rw [if_pos heq, axisIndex_zero, axisIndexFor, if_pos heq]
    · rw [if_neg heq, axisIndex, weigh_unit, dot3_axis, axisPos_eq_positionOf hpos,
        colourPerm_getD hsteps (positionOf_lt hpos _), hcast, hS, hT]
      exact (if_neg heq).symm
  have hpalette : entry (if steps = 3 then palette3 (dec565 c0) (dec565 c1) else palette4 (dec565 c0) (dec565 c1))
      (axisIndexFor steps c0 c1 v) = paletteColour (decide (steps = 3)) c0 c1 (axisIndexFor steps c0 c1 v) := by
    by_cases h3 : steps = 3
    · rw [if_pos h3, entry_palette3 h0 h1 hlt, decide_eq_true h3]
    · rw [if_neg h3, entry_palette4 h0 h1 hlt, decide_eq_false h3]
  rw [colourQuantiser, if_neg h, show config.weights = ⟨1, 1, 1⟩ from rfl, weigh_unit, hindex, hpalette]

theorem colourQuantiser_lt (i : Nat) (v : Rgb) :
    (colourQuantiser config P steps thr c0 c1 (dec565 c0) (dec565 c1) i v).1 < 4 := by
  by_cases h : steps = 3 ∧ keyed thr (entry P i) = true
  · rw [colourQuantiser_of_keyed P thr h]
    decide
  · rw [colourQuantiser_of_not_keyed P hsteps thr h0 h1 h]
    exact (axisIndexFor_lt (by omega) c0 c1 v).trans_le (by omega)

end Pass

/-- An encoder's colour of pixel `i` is the value of its channels in `PIX` (R140). -/
theorem State.colours_rgb (s : State) {i : Nat} (hi : i < 16) :
    ((s.colours config).map rgbOf).getD i rgbOps.zero = ⟨chanValue s .r i, chanValue s .g i, chanValue s .b i⟩ := by
  have htile : i < s.tile.length := s.tile_length ▸ hi
  simp only [chanValue, State.colours, List.map_map]
  rw [List.getD_eq_getElem _ _ (by simpa using htile), List.getElem_map, List.getD_eq_getElem _ _ htile]
  rfl

/-- A run looks at the inputs of the sixteen pixels only. -/
theorem runsWith_of_inputs {dither : Bool} {a a' v d : Nat → ℚ} (ha : ∀ i, i < 16 → a i = a' i)
    (h : runsWith dither a v d) : runsWith dither a' v d := fun i hi => by rw [← ha i hi, h i hi]

theorem runsWithRgb_running {β : Type} (s : State) (dr : Bool) (Q : Nat → Rgb → β × Option Rgb) :
    runsWithRgb dr (fun i => ⟨chanValue s .r i, chanValue s .g i, chanValue s .b i⟩)
      (running rgbOps dr Q fun k => ((s.colours config).map rgbOf).getD k rgbOps.zero)
      (residualAt rgbOps dr Q fun k => ((s.colours config).map rgbOf).getD k rgbOps.zero) := by
  have hinput {φ : Rgb → ℚ} (i : Nat) (hi : i < 16) : φ (((s.colours config).map rgbOf).getD i rgbOps.zero)
      = φ ⟨chanValue s .r i, chanValue s .g i, chanValue s .b i⟩ := congrArg φ (s.colours_rgb hi)
  exact ⟨runsWith_of_inputs hinput (rgbOps_coordinate_r.runsWith_running Q _ dr),
    runsWith_of_inputs hinput (rgbOps_coordinate_g.runsWith_running Q _ dr),
    runsWith_of_inputs hinput (rgbOps_coordinate_b.runsWith_running Q _ dr)⟩

/-- What the index pass leaves in a colour block, in the words of the statement. -/
theorem colourIndicesHold_of_encColour {s t : State} {o : Nat} {dr ck : Bool} {thr : ℚ} (ho : o + 8 ≤ 16)
    (h : fld t.block (8 * o) 64 = encColour config (s.colours config) dr ck thr)
    (hkey : ¬ (ck = true ∧ (s.colours config).all (keyed thr) = true)) {keyedTile : Bool}
    (htile : keyedTile = true ↔ ck = true ∧ ∃ i : Fin 16, val (s.pix[i.val]).a < thr)
    (hthr : keyedTile = true → thr = val s.athr) : colourIndicesHold s t o dr keyedTile := by
  obtain ⟨c0, h0, c1, h1, -, henc⟩ := encColour_eq config (s.colours_length config) dr ck thr hkey
  have hor := colourSteps_eq_or ck thr (s.colours config)
  have hthree : colourSteps (s.colours config) ck thr = 3 ↔ keyedTile = true := (State.colourSteps_colours hkey).trans htile.symm
  generalize colourSteps (s.colours config) ck thr = steps at henc hor hthree
  have hsteps : steps = if keyedTile = true then 3 else 4 := by
    split
    · exact hthree.2 ‹_›
    · exact hor.resolve_left (mt hthree.1 ‹_›)
  rw [henc] at h
  have hw0 := State.word16_eq_colour0 ho h h0
  have hw1 := State.word16_eq_colour1 ho h h1
  have hindex {i : Nat} (hi : i < 16) : bitmapIndex t o i
      = (colourQuantiser config (s.colours config) steps thr c0 c1 (dec565 c0) (dec565 c1) i
        (running rgbOps dr (colourQuantiser config (s.colours config) steps thr c0 c1 (dec565 c0) (dec565 c1))
          (fun k => ((s.colours config).map rgbOf).getD k rgbOps.zero) i)).1 := by
    rw [State.bitmapIndex_eq_getD ho h hi, assignIndices_eq_pass,
      pass_eq_map_running rgbOps dr _ ((List.length_map _).trans (s.colours_length config)),
      List.getD_eq_getElem _ _ (by simpa using hi), List.getElem_map, List.getElem_range,
      Nat.mod_eq_of_lt (colourQuantiser_lt _ hor thr h0 h1 i _)]
  have htransparent {i : Nat} (hi : i < 16) : (steps = 3 ∧ keyed thr (entry (s.colours config) i) = true)
      ↔ keyedTile = true ∧ chanValue s .a i < val s.athr := by
    rw [s.keyed_entry_iff thr hi, hthree]
    exact and_congr_right fun hk => by rw [hthr hk]
  refine ⟨_, _, runsWithRgb_running s dr (colourQuantiser config (s.colours config) steps thr c0 c1 (dec565 c0) (dec565 c1)),
    fun i hi => ⟨fun hk => ?keyed, fun hk => ?axis⟩⟩
  case keyed =>
    have hQ := colourQuantiser_of_keyed (c0 := c0) (c1 := c1) _ thr ((htransparent hi).2 hk)
    rw [hindex hi, residualAt, hQ]
    exact ⟨rfl, rfl⟩
  case axis =>
    have hQ := colourQuantiser_of_not_keyed _ hor thr h0 h1 (mt (htransparent hi).1 hk)
    have hdec : decide (steps = 3) = keyedTile := by rw [Bool.eq_iff_iff, decide_eq_true_iff, hthree]
    rw [hdec] at hQ
    rw [hw0, hw1, hindex hi, residualAt, hQ, hsteps]
    exact ⟨rfl, rfl⟩

/-- Settles O49: `colourIndicesHold_of_encColour` of each command's colour block read back. -/
theorem colourIndicesFollowTheAxis : Obligations.ColourIndicesFollowTheAxis := by
  intro s dr f hwf hfin
  refine ⟨?bc1, fun ha hnot => ?bc1Key, ?bc2, ?bc3⟩
  case bc1 =>
    obtain ⟨t, hexec, hcolour⟩ := encBc1_writes hwf (inputsFinite_encBc1_no_key hfin dr)
    exact ⟨t, hexec, colourIndicesHold_of_encColour (by decide) hcolour (by simp) (by simp) (by simp)⟩
  case bc1Key =>
    obtain ⟨t, hexec, hcolour⟩ := encBc1_writes hwf (inputsFinite_encBc1_key hfin ha dr)
    obtain ⟨i, hi⟩ := hnot
    refine ⟨t, hexec, colourIndicesHold_of_encColour (by decide) hcolour (fun hall => ?_) (by simp) fun _ => rfl⟩
    exact hi ((s.all_keyed_iff _).1 hall.2 i)
  case bc2 =>
    obtain ⟨t, hexec, -, hcolour⟩ := encBc2_writes hwf hfin dr f
    exact ⟨t, hexec, colourIndicesHold_of_encColour (by decide) hcolour (by simp) (by simp) (by simp)⟩
  case bc3 =>
    obtain ⟨t, hexec, -, hcolour⟩ := encBc3_writes hwf hfin dr f
    exact ⟨t, hexec, colourIndicesHold_of_encColour (by decide) hcolour (by simp) (by simp) (by simp)⟩

theorem chanValue_eq (s : State) (c : Chan) (i : Fin 16) : chanValue s c i = val ((s.pix[i.val]).get c) := by
  rw [chanValue, List.getD_eq_getElem _ _ (i.isLt.trans_eq s.tile_length.symm), s.tile_getElem i]

/-- Settles O48: index 3 is the transparent one by `colourIndicesHold_of_encColour`, and no axis index of three steps is 3. -/
theorem keyedPixelsGetTheTransparentIndex : Obligations.KeyedPixelsGetTheTransparentIndex := by
  intro s dr hwf hfin ha hsome hnot
  obtain ⟨t, hexec, hcolour⟩ := encBc1_writes hwf (inputsFinite_encBc1_key hfin ha dr)
  obtain ⟨j, hj⟩ := hnot
  have hholds : colourIndicesHold s t 0 dr true := by
    refine colourIndicesHold_of_encColour (by decide) hcolour (fun hall => ?_) (by simpa using hsome) fun _ => rfl
    exact hj ((s.all_keyed_iff _).1 hall.2 j)
  obtain ⟨v, d, -, hindex⟩ := hholds
  refine ⟨t, hexec, fun i => ?_⟩
  obtain ⟨hkeyed, haxis⟩ := hindex i i.isLt
  have halpha : chanValue s .a i < val s.athr ↔ val (s.pix[i.val]).a < val s.athr := by
    rw [chanValue_eq]
    rfl
  rw [← halpha]
  by_cases hi : chanValue s .a i < val s.athr
  · exact iff_of_true (hkeyed ⟨rfl, hi⟩).1 hi
  · have hlt : bitmapIndex t 0 i < 3 := by
      rw [(haxis fun h => hi h.2).1]
      exact axisIndexFor_lt (by decide) ..
    exact iff_of_false hlt.ne hi

/-! ### The tile that is keyed throughout (R221, R263) -/

/-- The block of R221 as a number. -/
def transparentBlock : Nat := colourBlock 0x0000 0xFFFF (List.replicate 16 3)

theorem transparentBlock_byte : ∀ k < 8, BitVec.ofNat 8 (transparentBlock / 256 ^ k) = if k < 2 then 0x00#8 else 0xFF#8 := by
  decide

theorem exec_encBc1_of_all_keyed {s : State} (hfin : tileFinite s [.r, .g, .b, .a]) (ha : athrFinite s)
    (h : ∀ i : Fin 16, val (s.pix[i.val]).a < val s.athr) (dr : Bool) :
    exec (.encBc1 dr true) s = .next (s.writeFormat config .bc1 transparentBlock) := by
  rw [exec_encBc1 (inputsFinite_encBc1_key hfin ha dr), encColour_of_all_keyed dr ⟨rfl, (s.all_keyed_iff _).2 h⟩,
    transparentBlock]

theorem State.read_transparentBlock {s : State} (hwf : s.blk.wf) (k : Nat) :
    (s.writeFormat config .bc1 transparentBlock).blk.read k
      = if k < 2 then 0x00#8 else if k < 8 then 0xFF#8 else s.blk.read k := by
  rw [State.read_writeFormat hwf]
  by_cases hk : k < 8
  · rw [if_pos (show k < (config.blockBytes .bc1).val from hk), transparentBlock_byte k hk, if_pos hk]
  · rw [if_neg (show ¬ k < (config.blockBytes .bc1).val from hk), if_neg hk, if_neg (by omega)]

/-- The block of R221 decodes to transparent black. -/
theorem bc1Pixel_transparentBlock {s : State} (hwf : s.blk.wf) (i : Fin 16) :
    bc1Pixel ((s.writeFormat config .bc1 transparentBlock).formatBlock config .bc1) i = transparentBlack := by
  have hblock : fld (s.writeFormat config .bc1 transparentBlock).block (8 * 0) 64 = transparentBlock :=
    State.fld_written_eight hwf (by decide) (by decide)
  have hindex : bitmapIndex (s.writeFormat config .bc1 transparentBlock) 0 i = 3 := by
    rw [State.bitmapIndex_eq_getD (by decide) hblock i.isLt, List.getD_replicate _ i.isLt]
  rw [bc1Pixel_formatBlock, State.word16_eq_colour0 (by decide) hblock (by decide),
    State.word16_eq_colour1 (o := 0) (by decide) hblock (by decide), hindex]
  rfl

theorem toPixel_transparentBlack (cfg : Config) : toPixel cfg transparentBlack = zeroPixel := by
  simp [toPixel, transparentBlack, Quad.map, toChan, zeroPixel]

theorem val_zeroPixel_a : val zeroPixel.a = 0 := by
  rw [val, valIn]
  simp [zeroPixel, binary32]

theorem tileFinite_of_zeroPixel {s : State} (h : ∀ i : Fin 16, s.pix[i.val] = zeroPixel) (cs : List Chan) : tileFinite s cs := by
  intro i c _
  rw [h i]
  cases c <;> decide

theorem decoded_transparentBlock {s : State} (hwf : s.blk.wf) (i : Fin 16) :
    (decodeTo config (s.writeFormat config .bc1 transparentBlock)
      (bc1Pixel ((s.writeFormat config .bc1 transparentBlock).formatBlock config .bc1))).pix[i.val] = zeroPixel := by
  rw [decodeTo_get, bc1Pixel_transparentBlock hwf, toPixel_transparentBlack]

/-- Settles O45: the block of R221 byte by byte; it decodes to zero pixels, which are below a positive threshold. -/
theorem allKeyedTileGivesTheTransparentBlock : Obligations.AllKeyedTileGivesTheTransparentBlock := by
  intro s dr hwf hfin ha hkeyed
  have hread := State.read_transparentBlock hwf
  refine ⟨_, _, exec_encBc1_of_all_keyed hfin ha hkeyed dr, hread 0, hread 1, fun k h2 h8 => ?_, rfl,
    fun i c => ?zero, fun hpos dr' => ?again⟩
  · rw [hread, if_neg (by omega), if_pos h8]
  case zero =>
    rw [decoded_transparentBlock hwf]
    cases c <;> rfl
  case again =>
    refine ⟨_, exec_encBc1_of_all_keyed (tileFinite_of_zeroPixel (decoded_transparentBlock hwf) _) ?athr (fun i => ?below) dr', fun k => ?_⟩
    case athr => simpa [athrFinite] using ha
    case below =>
      rw [decoded_transparentBlock hwf, val_zeroPixel_a]
      exact hpos
    rw [State.read_transparentBlock (by simpa using State.wf_writeFormat hwf config .bc1 _), decodeTo_blk, hread]
    split_ifs <;> rfl

end Sys2Proof.Machine
end

section
/-! SUPPORT. The alpha block of ENC.BC3: its grid pass, the least and greatest value of the pass, its index pass, and the statements on both (43_bc123_encode.md R251 to R255). -/

namespace Sys2Proof.Machine

open Claims

/-! ### The least and the greatest of a list -/

theorem minOr_eq_iff {l : List ℚ} (h : l ≠ []) (dflt m : ℚ) : minOr dflt l = m ↔ m ∈ l ∧ ∀ x ∈ l, m ≤ x := by
  obtain ⟨x, rest, rfl⟩ := List.exists_cons_of_ne_nil h
  rw [← List.min?_eq_some_iff, List.min?_cons', Option.some_inj, minOr]

theorem maxOr_eq_iff {l : List ℚ} (h : l ≠ []) (dflt m : ℚ) : maxOr dflt l = m ↔ m ∈ l ∧ ∀ x ∈ l, x ≤ m := by
  obtain ⟨x, rest, rfl⟩ := List.exists_cons_of_ne_nil h
  rw [← List.max?_eq_some_iff, List.max?_cons', Option.some_inj, maxOr]

/-! ### The grid pass (R251) -/

/-- The quantiser of the grid pass, with the value its result stands for. -/
def gridQuantiser (_ : Nat) (v : ℚ) : ℚ × Option ℚ := ((grid255 v : ℚ) / 255, some ((grid255 v : ℚ) / 255))

/-- The running value of pixel `i` in the grid pass over the tile `P`. -/
def gridRunning (P : List Rgba) (da : Bool) : Nat → ℚ :=
  running scalarOps da gridQuantiser fun k => (P.map (·.a)).getD k 0

theorem alphaGrid_eq {P : List Rgba} (hP : P.length = 16) (da : Bool) :
    alphaGrid P da = (List.range 16).map fun i => (grid255 (gridRunning P da i) : ℚ) / 255 :=
  pass_eq_map_running scalarOps da gridQuantiser ((List.length_map _).trans hP)

/-- A scalar pass over the alphas of the tile runs as R150 says. -/
theorem runsWith_alpha {β : Type} (s : State) (da : Bool) (Q : Nat → ℚ → β × Option ℚ) :
    runsWith da (chanValue s .a) (running scalarOps da Q fun k => ((s.colours config).map (·.a)).getD k 0)
      (residualAt scalarOps da Q fun k => ((s.colours config).map (·.a)).getD k 0) :=
  runsWith_of_inputs (fun _ hi => s.colours_alpha hi) (scalarOps_coordinate.runsWith_running Q _ da)

theorem alphaGridRuns_gridRunning (s : State) (da : Bool) : alphaGridRuns s da (gridRunning (s.colours config) da) :=
  runsWith_alpha s da gridQuantiser

section Grid

variable {P : List Rgba} (hP : P.length = 16) (da : Bool)

include hP

theorem mem_alphaGrid_iff (n : Int) :
    (n : ℚ) / 255 ∈ alphaGrid P da ↔ ∃ i, i < 16 ∧ grid255 (gridRunning P da i) = n := by
  simp [alphaGrid_eq hP, div_left_inj']

theorem alphaGrid_ne_nil : alphaGrid P da ≠ [] := by simp [alphaGrid_eq hP]

theorem minOr_alphaGrid_iff (n : Int) :
    minOr 0 (alphaGrid P da) = n / 255 ↔ leastIs (fun i => grid255 (gridRunning P da i)) n := by
  rw [minOr_eq_iff (alphaGrid_ne_nil hP da), mem_alphaGrid_iff hP, leastIs, and_comm]
  simp [alphaGrid_eq hP, div_le_div_iff_of_pos_right]

theorem maxOr_alphaGrid_iff (n : Int) :
    maxOr 0 (alphaGrid P da) = n / 255 ↔ greatestIs (fun i => grid255 (gridRunning P da i)) n := by
  rw [maxOr_eq_iff (alphaGrid_ne_nil hP da), mem_alphaGrid_iff hP, greatestIs, and_comm]
  simp [alphaGrid_eq hP, div_le_div_iff_of_pos_right]

theorem minOr_alphaGrid_eq_one_iff :
    minOr 0 (alphaGrid P da) = 1 ↔ leastIs (fun i => grid255 (gridRunning P da i)) 255 := by
  rw [← minOr_alphaGrid_iff hP]
  norm_num

theorem alphaSteps_eq_six_iff : alphaSteps P da = 6 ↔ leastIs (fun i => grid255 (gridRunning P da i)) 0
    ∨ greatestIs (fun i => grid255 (gridRunning P da i)) 255 := by
  rw [← minOr_alphaGrid_iff hP, ← maxOr_alphaGrid_iff hP, alphaSteps]
  norm_num
  exact or_iff_not_imp_left.symm

end Grid

/-- Byte `k` of an eight-byte block at byte `o`. -/
theorem State.read_of_fld {t : State} {o v : Nat} (ho : o + 8 ≤ 16) (h : fld t.block (8 * o) 64 = v) {k : Nat} (hk : k < 8) :
    (t.blk.read (o + k)).toNat = v / 2 ^ (8 * k) % 2 ^ 8 := by
  rw [← t.fld_byte (by omega), Nat.mul_add, fld_within t.block (8 * o) (m := 64) (by omega), h]

/-- The bytes of the opaque alpha block (R252). -/
theorem rampBlock_opaque_byte : ∀ k < 8, rampBlock 255 255 (List.replicate 16 0) / 2 ^ (8 * k) % 2 ^ 8
    = (if k < 2 then 0xFF#8 else 0x00#8).toNat := by decide

/-- Settles O51: the least grid value is 255 exactly when the shortcut is taken; its bytes are read back from the block written. -/
theorem opaqueTileGivesTheOpaqueAlphaBlock : Obligations.OpaqueTileGivesTheOpaqueAlphaBlock := by
  intro s dr da hwf hfin
  refine ⟨_, alphaGridRuns_gridRunning s da, fun hleast => ?_⟩
  have hopaque := (minOr_alphaGrid_eq_one_iff (s.colours_length config) da).2 hleast
  obtain ⟨t, hexec, halpha, -⟩ := encBc3_writes hwf hfin dr da
  rw [encAlpha8_of_opaque da config hopaque] at halpha
  have hbyte {k : Nat} (hk : k < 8) : t.blk.read k = if k < 2 then 0xFF#8 else 0x00#8 := by
    rw [← Nat.zero_add k]
    refine BitVec.eq_of_toNat_eq ((State.read_of_fld (by decide) halpha hk).trans ?_)
    rw [rampBlock_opaque_byte k hk, Nat.zero_add]
  exact ⟨t, hexec, hbyte (by decide), hbyte (by decide), fun k h2 h8 => (hbyte h8).trans (if_neg (by omega))⟩

/-! ### The index pass (R255) -/

theorem alphaPerm_getD {steps pos : Nat} (hsteps : steps = 6 ∨ steps = 8) (hpos : pos < steps) :
    (alphaPerm steps).getD pos 0 = indexOfPosition steps pos := by
  obtain rfl | rfl := hsteps <;> interval_cases pos <;> rfl

/-- The index of a running value, in the words of the statement. -/
theorem alphaIndex_ramp {steps : Nat} (hsteps : steps = 6 ∨ steps = 8) (E0 E1 : ℚ) (full : Bool) (lo hi v : ℚ) :
    alphaIndex steps (ramp E0 E1 full lo hi) v = rampIndexFor steps E0 E1 v := by
  have hends : (ramp E0 E1 full lo hi).getD 0 0 = E0 ∧ (ramp E0 E1 full lo hi).getD 1 0 = E1 := by
    cases full <;> exact ⟨rfl, rfl⟩
  have hpos : 0 < steps := by omega
  have hcast : ((steps - 1 : Nat) : ℚ) = steps - 1 := by push_cast [Nat.cast_sub (Nat.succ_le_of_lt hpos)]; rfl
  have hdot : (v - E0) * (if E0 = E1 then 0 else ((steps : ℚ) - 1) / (E1 - E0))
      = if E0 = E1 then 0 else (v - E0) * (steps - 1) / (E1 - E0) := by
    rw [mul_ite, mul_zero, mul_div_assoc]
  simp only [alphaIndex, rampIndexFor, hends, hcast, hdot]
  generalize (if E0 = E1 then 0 else (v - E0) * ((steps : ℚ) - 1) / (E1 - E0)) = dot
  by_cases hlow : dot ≤ 0
  · have hpos0 : positionOf steps dot = 0 := if_pos hlow
    have h5 : ¬ (5 : ℚ) ≤ dot := by linarith
    simp [hlow, h5, hpos0, indexOfPosition]
  by_cases hhigh : (steps : ℚ) - 1 ≤ dot
  · have hlast : positionOf steps dot = steps - 1 := by rw [positionOf, if_neg hlow, if_pos hhigh]
    have hone : indexOfPosition steps (steps - 1) = 1 := by rw [indexOfPosition, if_neg (by omega), if_pos rfl]
    have h5 : steps = 6 → (5 : ℚ) ≤ dot := by
      rintro rfl
      norm_num at hhigh
      exact hhigh
    rw [if_neg hlow, if_pos hhigh,
      if_neg (c := steps = 6 ∧ dot ≤ 0 ∧ v ≤ E0 / 2) (fun h => hlow h.2.1), hlast, hone]
    exact if_congr ⟨fun h => ⟨h.1, h5 h.1, h.2⟩, fun h => ⟨h.1, h.2.2⟩⟩ rfl rfl
  · have hmid : positionOf steps dot = ⌊dot + 1 / 2⌋.toNat := by rw [positionOf, if_neg hlow, if_neg hhigh]
    have h5 : ¬ (steps = 6 ∧ 5 ≤ dot ∧ (E1 + 1) / 2 ≤ v) := by
      rintro ⟨rfl, h, -⟩
      norm_num at hhigh
      linarith
    rw [if_neg hlow, if_neg hhigh,
      if_neg (c := steps = 6 ∧ dot ≤ 0 ∧ v ≤ E0 / 2) (fun h => hlow h.2.1), if_neg h5, ← alphaPerm_getD hsteps (positionOf_lt hpos dot), hmid]
    rfl

theorem rampIndexFor_lt {steps : Nat} (hsteps : steps = 6 ∨ steps = 8) (E0 E1 v : ℚ) : rampIndexFor steps E0 E1 v < 8 := by
  simp only [rampIndexFor]
  generalize (if E0 = E1 then 0 else (v - E0) * ((steps : ℚ) - 1) / (E1 - E0)) = dot
  split_ifs
  · decide
  · decide
  · exact (indexOfPosition_lt (by omega) (positionOf_lt (by omega) _)).trans_le (by omega)

/-- What a pixel receives depends on the residuals of the tile only. -/
theorem runsWith_of_residuals {dither : Bool} {a v d d' : Nat → ℚ} (hd : ∀ i, i < 16 → d i = d' i)
    (h : runsWith dither a v d) : runsWith dither a v d' := by
  intro i hi
  have hreceived : received d i = received d' i := by
    rw [received, received, hd (i - 1) (by omega), hd (i - 5) (by omega), hd (i - 4) (by omega), hd (i - 3) (by omega)]
  rw [h i hi, hreceived]

/-- The quantiser of the index pass in the words of the statement. -/
theorem alphaQuantiser_eq {steps : Nat} (hsteps : steps = 6 ∨ steps = 8) (a0 a1 i : Nat) (v : ℚ) :
    alphaQuantiser steps a0 a1 i v = (rampIndexFor steps ((a0 : ℚ) / 255) ((a1 : ℚ) / 255) v,
      some (rampEntry ((a0 : ℚ) / 255) ((a1 : ℚ) / 255) (decide (steps = 8)) 0 1
        (rampIndexFor steps ((a0 : ℚ) / 255) ((a1 : ℚ) / 255) v))) := by
  rw [alphaQuantiser, alphaIndex_ramp hsteps, ramp_getD _ _ _ _ _ (rampIndexFor_lt hsteps ..)]

/-- The running value of pixel `i` in the index pass over the tile `P`. -/
def alphaRunning (P : List Rgba) (da : Bool) (steps a0 a1 : Nat) : Nat → ℚ :=
  running scalarOps da (alphaQuantiser steps a0 a1) fun k => (P.map (·.a)).getD k 0

/-- Settles O52: the running values are those of the index pass on the stored endpoints, read back with the indices from the block written. -/
theorem alphaIndicesFollowTheRamp : Obligations.AlphaIndicesFollowTheRamp := by
  intro s dr da hwf hfin
  refine ⟨_, alphaGridRuns_gridRunning s da, fun hleast => ?_⟩
  have hP := s.colours_length config
  have hopaque := mt (minOr_alphaGrid_eq_one_iff hP da).1 hleast
  obtain ⟨t, hexec, halpha, -⟩ := encBc3_writes hwf hfin dr da
  obtain ⟨a0, h0, a1, h1, henc⟩ := encAlpha8_eq hP da config hopaque
  have hsteps := alphaSteps_eq_or da (s.colours config)
  rw [henc, emitAlpha_eq_pass] at halpha
  have hE0 := State.read_endpoint0 (o := 0) (by decide) halpha h0
  have hE1 : (t.blk.read 1).toNat = a1 := State.read_endpoint1 (o := 0) (by decide) halpha h1
  have hrun := runsWith_alpha s da (alphaQuantiser (alphaSteps (s.colours config) da) a0 a1)
  have hindex {i : Nat} (hi : i < 16) : rampIndex t 0 i
      = rampIndexFor (alphaSteps (s.colours config) da) ((a0 : ℚ) / 255) ((a1 : ℚ) / 255)
        (alphaRunning (s.colours config) da (alphaSteps (s.colours config) da) a0 a1 i) := by
    rw [State.rampIndex_eq_getD (by decide) halpha hi, pass_eq_map_running scalarOps da _ ((List.length_map _).trans hP),
      List.getD_eq_getElem _ _ (by simpa using hi), List.getElem_map, List.getElem_range, alphaQuantiser_eq hsteps,
      Nat.mod_eq_of_lt (rampIndexFor_lt hsteps ..)]
    rfl
  refine ⟨t, alphaRunning (s.colours config) da (alphaSteps (s.colours config) da) a0 a1, _, hexec, hsteps, alphaSteps_eq_six_iff hP da, ?_⟩
  simp only [hE0, hE1]
  refine ⟨runsWith_of_residuals (fun i hi => ?_) hrun, fun i hi => hindex hi⟩
  rw [residualAt, alphaQuantiser_eq hsteps, hindex hi]
  rfl

end Sys2Proof.Machine
end

section
/-! SUPPORT. What a decoder's tile depends on: the block of its format, and of the configuration the port alone; and the statement on it (10_state.md R21, 00_scope.md R12, 41_color_axis.md R141). -/

namespace Sys2Proof.Machine

open Claims

/-! ### The port (R141, R343) -/

section Port

variable {cfg cfg' : Config} (hfmt : cfg'.chanFmt = cfg.chanFmt) (hrn : cfg'.rn32 = cfg.rn32)

include hrn

theorem toPixel_congr (q : Rgba) : toPixel cfg' q = toPixel cfg q := by
  have hchan : toChan cfg' = toChan cfg := funext fun x => by rw [toChan, toChan, hrn]
  rw [toPixel, toPixel, hchan]

include hfmt

theorem halfToChan_congr (h : Half) : halfToChan cfg' h = halfToChan cfg h := by
  rw [halfToChan, halfToChan, hfmt, hrn]

theorem bc6hPixel_congr (M : Mode6H) (b : Block) (signed : Bool) : bc6hPixel cfg' M b signed = bc6hPixel cfg M b signed := by
  funext i
  have hone : toChan cfg' 1 = toChan cfg 1 := by rw [toChan, toChan, hrn]
  simp only [bc6hPixel, halfToChan_congr hfmt hrn, hone]

end Port

/-- A channel of a colour written to the port. -/
theorem toPixel_get (cfg : Config) (q : Rgba) (c : Chan) :
    (toPixel cfg q).get c = if q.get c = 0 then 0#32 else cfg.rn32 (q.get c) := by
  cases c <;> rfl

/-! ### The tile of a decode command -/

/-- The pixels a BC6H decoder makes of a block (R332, R343). -/
def bc6hTile (cfg : Config) (signed : Bool) (b : Block) : Nat → Pixel :=
  match mode6H (selector6H b) with
  | none => fun _ => toPixel cfg opaqueBlack
  | some M => bc6hPixel cfg M b signed

theorem decodeBc6h_pix (cfg : Config) (fmt : Format) (signed : Bool) (s : State) :
    (decodeBc6h cfg fmt signed s).pix = Vector.ofFn fun k : Fin 16 => bc6hTile cfg signed (s.formatBlock cfg fmt) k := by
  cases hmode : mode6H (selector6H (s.formatBlock cfg fmt)) with
  | none => simp only [decodeBc6h, bc6hTile, hmode, State.diag_pix, decodeTo_pix]
  | some M => simp only [decodeBc6h, bc6hTile, hmode, State.setTile_pix]

theorem bc6hTile_congr {cfg cfg' : Config} (hfmt : cfg'.chanFmt = cfg.chanFmt) (hrn : cfg'.rn32 = cfg.rn32) (signed : Bool)
    (b : Block) : bc6hTile cfg' signed b = bc6hTile cfg signed b := by
  simp only [bc6hTile]
  split
  · rw [toPixel_congr hrn]
  · exact bc6hPixel_congr hfmt hrn _ b signed

/-- The number of bytes of `BLK` a decode command reads (R8). -/
def decoderBytes (i : Instr) : Nat := if i ∈ [Instr.decBc1, .decBc4u, .decBc4s] then 8 else 16

/-- But for BC6H a decode command stores the colours that its format gives the bytes of its block. -/
theorem execIn_decoder {i : Instr} (hi : i ∈ decoders) (hu : i ≠ .decBc6hu) (hs : i ≠ .decBc6hs) :
    ∃ (fmt : Format) (px : Block → Nat → Rgba), (config.blockBytes fmt).val = decoderBytes i
      ∧ ∀ cfg s, execIn cfg i s = .next (decodeTo cfg s (px (s.formatBlock cfg fmt))) := by
  simp only [decoders, List.mem_cons, List.not_mem_nil, or_false] at hi
  rcases hi with rfl | rfl | rfl | rfl | rfl | rfl | rfl | rfl | rfl | rfl
  · exact ⟨.bc1, bc1Pixel, by decide, fun _ _ => rfl⟩
  · exact ⟨.bc2, bc2Pixel, by decide, fun _ _ => rfl⟩
  · exact ⟨.bc3, bc3Pixel, by decide, fun _ _ => rfl⟩
  · exact ⟨.bc4u, bc4Pixel false, by decide, fun _ _ => rfl⟩
  · exact ⟨.bc4s, bc4Pixel true, by decide, fun _ _ => rfl⟩
  · exact ⟨.bc5u, bc5Pixel false, by decide, fun _ _ => rfl⟩
  · exact ⟨.bc5s, bc5Pixel true, by decide, fun _ _ => rfl⟩
  · exact absurd rfl hu
  · exact absurd rfl hs
  · exact ⟨.bc7, bc7Pixel, by decide, fun _ _ => rfl⟩

/-- The tile of every decode command is a function of the block of its format and of the port. -/
theorem execIn_decoder_pix {i : Instr} (hi : i ∈ decoders) :
    ∃ (fmt : Format) (tile : Config → Block → Nat → Pixel), (config.blockBytes fmt).val = decoderBytes i
      ∧ (∀ cfg cfg' b, cfg'.chanFmt = cfg.chanFmt → cfg'.rn32 = cfg.rn32 → tile cfg' b = tile cfg b)
      ∧ ∀ cfg s, ∃ t, execIn cfg i s = .next t ∧ t.pix = Vector.ofFn fun k : Fin 16 => tile cfg (s.formatBlock cfg fmt) k := by
  by_cases hu : i = .decBc6hu
  · subst hu
    exact ⟨.bc6hu, fun cfg b => bc6hTile cfg false b, by decide, fun _ _ b hfmt hrn => bc6hTile_congr hfmt hrn false b,
      fun cfg s => ⟨_, rfl, decodeBc6h_pix cfg .bc6hu false s⟩⟩
  by_cases hs : i = .decBc6hs
  · subst hs
    exact ⟨.bc6hs, fun cfg b => bc6hTile cfg true b, by decide, fun _ _ b hfmt hrn => bc6hTile_congr hfmt hrn true b,
      fun cfg s => ⟨_, rfl, decodeBc6h_pix cfg .bc6hs true s⟩⟩
  obtain ⟨fmt, px, hbytes, hexec⟩ := execIn_decoder hi hu hs
  exact ⟨fmt, fun cfg b k => toPixel cfg (px b k), hbytes, fun _ _ b _ hrn => funext fun k => toPixel_congr hrn _,
    fun cfg s => ⟨_, hexec cfg s, decodeTo_pix ..⟩⟩

/-- At the default block sizes the block of a format is that of the defaults. -/
theorem State.formatBlock_default {cfg : Config} (h : cfg.blockBytes = config.blockBytes) (s : State) (fmt : Format) :
    s.formatBlock cfg fmt = s.formatBlock config fmt := by
  rw [State.formatBlock, State.formatBlock, h]

/-- Settles O40: `exec_eq_execIn`; the tile as a function of block and port by `execIn_decoder_pix`; the exact colours by `execIn_decoder`. -/
theorem decodedTileDependsOnBlkOnly : Obligations.DecodedTileDependsOnBlkOnly := by
  refine ⟨fun i s => by rw [exec_eq_execIn], fun i s s' cfg cfg' hi hcfg hcfg' hfmt hrn hread => ?tile, fun i s hi hu hs => ?colours⟩
  case tile =>
    obtain ⟨fmt, tile, hbytes, hcongr, hexec⟩ := execIn_decoder_pix hi
    obtain ⟨t, ht, htile⟩ := hexec cfg s
    obtain ⟨t', ht', htile'⟩ := hexec cfg' s'
    have hblock : s.formatBlock config fmt = s'.formatBlock config fmt :=
      State.formatBlock_congr fun k hk => hread k (hk.trans_eq hbytes)
    refine ⟨t, t', ht, ht', ?_⟩
    rw [htile, htile', State.formatBlock_default hcfg, State.formatBlock_default hcfg', hblock, hcongr cfg cfg' _ hfmt hrn]
  case colours =>
    obtain ⟨fmt, px, -, hexec⟩ := execIn_decoder hi hu hs
    refine ⟨fun k => px (s.formatBlock config fmt) k, fun cfg hcfg => ⟨_, hexec cfg s, fun k c => ?_⟩⟩
    rw [decodeTo_get, toPixel_get, State.formatBlock_default hcfg]

end Sys2Proof.Machine
end

section
/-! SUPPORT. What an encoded block depends on: each encoding function reads of the configuration only the parameters its command has, and the statement on it (00_scope.md R8, R12; 70_reset_and_hazards.md R553). -/

namespace Sys2Proof.Machine

open Claims

/-! ### The inputs (R140, R401, R449) -/

section Inputs

variable {cfg cfg' : Config} {s s' : State} (hpix : s.pix = s'.pix)

include hpix

theorem State.tile_congr : s.tile = s'.tile := by rw [State.tile, State.tile, hpix]

theorem State.intColours_congr (hhalf : cfg.f32toF16 = cfg'.f32toF16) (sg : Bool) :
    s.intColours cfg sg = s'.intColours cfg' sg := by
  have hcolour : intColour cfg sg = intColour cfg' sg := funext fun px => by rw [intColour, intColour, hhalf]
  rw [State.intColours, State.intColours, hcolour, State.tile_congr hpix]

variable (hfmt : cfg.chanFmt = cfg'.chanFmt)

include hfmt

theorem State.colours_congr : s.colours cfg = s'.colours cfg' := by
  rw [State.colours, State.colours, hfmt, State.tile_congr hpix]

theorem State.ldrColours_congr : s.ldrColours cfg = s'.ldrColours cfg' := by
  have hcolour : ldrColour cfg = ldrColour cfg' := funext fun px => by rw [ldrColour, ldrColour, hfmt]
  rw [State.ldrColours, State.ldrColours, hcolour, State.tile_congr hpix]

end Inputs

theorem finiteChans_of_tileFinite {cfg : Config} (hfmt : cfg.chanFmt = config.chanFmt) {s : State} {cs : List Chan}
    (h : tileFinite s cs) : s.finiteChans cfg cs = true := by
  have hport : s.finiteChans cfg cs = s.finiteChans config cs := by rw [State.finiteChans, State.finiteChans, hfmt]
  exact hport.trans ((s.finiteChans_config_iff cs).2 h)

/-! ### The colour blocks (R160 to R167, R221 to R228) -/

/-- The parameters of the colour-block encoder agree (R8). -/
def colourParametersAgree (cfg cfg' : Config) : Prop :=
  cfg.epsSingle = cfg'.epsSingle ∧ cfg.epsTwo = cfg'.epsTwo ∧ cfg.epsGrad = cfg'.epsGrad
    ∧ cfg.maxIter = cfg'.maxIter ∧ cfg.weights = cfg'.weights

theorem newtonRGB_congr {cfg cfg' : Config} (h : cfg.epsGrad = cfg'.epsGrad) (P : List Rgb) (steps n : Nat) (X Y : Rgb) :
    newtonRGB cfg P steps n X Y = newtonRGB cfg' P steps n X Y := by
  induction n generalizing X Y with
  | zero => rfl
  | succ n ih => simp only [newtonRGB, h, ih]

section Colour

variable {cfg cfg' : Config} (h : colourParametersAgree cfg cfg')

include h

theorem optimizeRGB_congr (P : List Rgb) (steps : Nat) : optimizeRGB cfg P steps = optimizeRGB cfg' P steps := by
  obtain ⟨hsingle, htwo, hgrad, hiter, hweights⟩ := h
  simp only [optimizeRGB, optimizeAxis, hsingle, htwo, hiter, hweights, newtonRGB_congr hgrad]

theorem encColour_congr (P : List Rgba) (dr ck : Bool) (thr : ℚ) : encColour cfg P dr ck thr = encColour cfg' P dr ck thr := by
  obtain ⟨-, -, -, -, hweights⟩ := id h
  simp only [encColour, emitColour, assignIndices, optimizeRGB_congr h, hweights]

end Colour

/-! ### The alpha and channel blocks (R170 to R172, R251 to R255, R290 to R293) -/

/-- The parameters of the scalar optimizer agree (R8). -/
def scalarParametersAgree (cfg cfg' : Config) : Prop :=
  cfg.maxIter = cfg'.maxIter ∧ cfg.alphaEpsRange = cfg'.alphaEpsRange ∧ cfg.alphaEpsGrad = cfg'.alphaEpsGrad

section Scalar

variable {cfg cfg' : Config} (h : scalarParametersAgree cfg cfg')

include h

theorem newtonAlpha_congr (P : List ℚ) (steps : Nat) (lo : ℚ) (n : Nat) (X Y : ℚ) :
    newtonAlpha cfg P steps lo n X Y = newtonAlpha cfg' P steps lo n X Y := by
  obtain ⟨-, hrange, hgrad⟩ := h
  induction n generalizing X Y with
  | zero => rfl
  | succ n ih => simp only [newtonAlpha, hrange, hgrad, ih]

theorem optimizeAlpha_congr (P : List ℚ) (steps : Nat) (lo : ℚ) :
    optimizeAlpha cfg P steps lo = optimizeAlpha cfg' P steps lo := by
  rw [optimizeAlpha, optimizeAlpha, newtonAlpha_congr h, h.1]

theorem encAlpha8_congr (P : List Rgba) (da : Bool) : encAlpha8 cfg P da = encAlpha8 cfg' P da := by
  simp only [encAlpha8, optimizeAlpha_congr h]

theorem encChan_congr (sg : Bool) (V : List ℚ) : encChan cfg sg V = encChan cfg' sg V := by
  simp only [encChan, channelEndpoints, optimizeAlpha_congr h]

end Scalar

/-! ### The searches (R423, R462) -/

theorem enc6H_congr {cfg cfg' : Config} (h : cfg.search6H = cfg'.search6H) (V : List IntColor) (sg : Bool) :
    enc6H cfg V sg = enc6H cfg' V sg := by
  rw [enc6H, enc6H, h]

theorem enc7_congr {cfg cfg' : Config} (h : cfg.search7 = cfg'.search7) (L : List LdrColor) : enc7 cfg L = enc7 cfg' L := by
  rw [enc7, enc7, h]

/-! ### The commands -/

/-- The encode command `i`, which reads the channels `cs`, writes the number `value`, a function of its inputs and of its parameters. -/
structure WritesValue (i : Instr) (cs : List Chan) (fmt : Format) (value : Config → State → Nat) : Prop where
  exec : ∀ cfg s, cfg.chanFmt = config.chanFmt → inputsFinite i cs s → execIn cfg i s = .next (s.writeFormat cfg fmt (value cfg s))
  congr : ∀ cfg cfg' s s', cfg.chanFmt = cfg'.chanFmt → s.pix = s'.pix → s.athr = s'.athr → parametersAgree i cfg cfg' →
    value cfg s = value cfg' s'

theorem writesValue_encBc1 (dr ck : Bool) : WritesValue (.encBc1 dr ck) [.r, .g, .b, .a] .bc1
    fun cfg s => encColour cfg (s.colours cfg) dr ck (valIn cfg.chanFmt s.athr) where
  exec cfg s hfmt h := by
    refine encodeOr_finite _ _ _ ?_
    have hport : (s.finiteChans cfg allChans && (!ck || isFiniteIn cfg.chanFmt s.athr))
        = (s.finiteChans config allChans && (!ck || isFiniteIn config.chanFmt s.athr)) := by
      rw [State.finiteChans, State.finiteChans, hfmt]
    exact hport.trans ((finiteChans_athr_iff_inputsFinite dr ck _ s).2 h)
  congr cfg cfg' s s' hfmt hpix hathr h := by
    rw [State.colours_congr hpix hfmt, hfmt, hathr]
    exact encColour_congr h ..

theorem writesValue_encBc2 (dr da : Bool) : WritesValue (.encBc2 dr da) [.r, .g, .b, .a] .bc2
    fun cfg s => halves (encAlpha4 (s.colours cfg) da) (encColour cfg (s.colours cfg) dr false 0) where
  exec _ _ hfmt h := encodeOr_finite _ _ _ (finiteChans_of_tileFinite hfmt h.1)
  congr cfg cfg' s s' hfmt hpix _ h := by
    have hcolour : colourParametersAgree cfg cfg' := h
    rw [State.colours_congr hpix hfmt, encColour_congr hcolour]

theorem writesValue_encBc3 (dr da : Bool) : WritesValue (.encBc3 dr da) [.r, .g, .b, .a] .bc3
    fun cfg s => halves (encAlpha8 cfg (s.colours cfg) da) (encColour cfg (s.colours cfg) dr false 0) where
  exec _ _ hfmt h := encodeOr_finite _ _ _ (finiteChans_of_tileFinite hfmt h.1)
  congr cfg cfg' s s' hfmt hpix _ h := by
    obtain ⟨hcolour, hscalar⟩ : colourParametersAgree cfg cfg' ∧ scalarParametersAgree cfg cfg' := h
    rw [State.colours_congr hpix hfmt, encColour_congr hcolour, encAlpha8_congr hscalar]

theorem writesValue_encBc4 (sg : Bool) : WritesValue (if sg then .encBc4s else .encBc4u) [.r] (if sg then .bc4s else .bc4u)
    fun cfg s => encChan cfg sg ((s.colours cfg).map (·.r)) where
  exec _ _ hfmt h := by
    cases sg <;> exact encodeOr_finite _ _ _ (finiteChans_of_tileFinite hfmt h.1)
  congr cfg cfg' s s' hfmt hpix _ h := by
    have hscalar : scalarParametersAgree cfg cfg' := by cases sg <;> exact h
    rw [State.colours_congr hpix hfmt, encChan_congr hscalar]

theorem writesValue_encBc5 (sg : Bool) : WritesValue (if sg then .encBc5s else .encBc5u) [.r, .g] (if sg then .bc5s else .bc5u)
    fun cfg s => halves (encChan cfg sg ((s.colours cfg).map (·.r))) (encChan cfg sg ((s.colours cfg).map (·.g))) where
  exec _ _ hfmt h := by
    cases sg <;> exact encodeOr_finite _ _ _ (finiteChans_of_tileFinite hfmt h.1)
  congr cfg cfg' s s' hfmt hpix _ h := by
    have hscalar : scalarParametersAgree cfg cfg' := by cases sg <;> exact h
    rw [State.colours_congr hpix hfmt, encChan_congr hscalar, encChan_congr hscalar]

theorem writesValue_encBc6h (sg : Bool) :
    WritesValue (if sg then .encBc6hs else .encBc6hu) [.r, .g, .b] (if sg then .bc6hs else .bc6hu)
      fun cfg s => (enc6H cfg (s.intColours cfg sg) sg).toNat where
  exec _ _ hfmt h := by
    cases sg <;> exact encodeOr_finite _ _ _ (finiteChans_of_tileFinite hfmt h.1)
  congr cfg cfg' s s' _ hpix _ h := by
    obtain ⟨hhalf, hsearch⟩ : cfg.f32toF16 = cfg'.f32toF16 ∧ cfg.search6H = cfg'.search6H := by cases sg <;> exact h
    rw [State.intColours_congr hpix hhalf, enc6H_congr hsearch]

theorem writesValue_encBc7 : WritesValue .encBc7 [.r, .g, .b, .a] .bc7 fun cfg s => (enc7 cfg (s.ldrColours cfg)).toNat where
  exec _ _ hfmt h := encodeOr_finite _ _ _ (finiteChans_of_tileFinite hfmt h.1)
  congr cfg cfg' s s' hfmt hpix _ h := by
    have hsearch : cfg.search7 = cfg'.search7 := h
    rw [State.ldrColours_congr hpix hfmt, enc7_congr hsearch]

theorem encoder_writesValue (dr f : Bool) : ∀ e ∈ encoders dr f,
    ∃ fmt value, (config.blockBytes fmt).val = e.2.1 ∧ WritesValue e.1 e.2.2 fmt value := by
  simp only [encoders, List.forall_mem_cons]
  exact ⟨⟨_, _, rfl, writesValue_encBc1 dr f⟩, ⟨_, _, rfl, writesValue_encBc2 dr f⟩, ⟨_, _, rfl, writesValue_encBc3 dr f⟩,
    ⟨_, _, rfl, writesValue_encBc4 false⟩, ⟨_, _, rfl, writesValue_encBc4 true⟩, ⟨_, _, rfl, writesValue_encBc5 false⟩,
    ⟨_, _, rfl, writesValue_encBc5 true⟩, ⟨_, _, rfl, writesValue_encBc6h false⟩, ⟨_, _, rfl, writesValue_encBc6h true⟩,
    ⟨_, _, rfl, writesValue_encBc7⟩, List.forall_mem_nil _⟩

/-- Settles O43: by `encoder_writesValue` both commands write the same number, and its bytes are those of the format. -/
theorem encodedBytesDependOnPixAndAthrOnly : Obligations.EncodedBytesDependOnPixAndAthrOnly := by
  intro dr f e s s' cfg cfg' he hwf hwf' hpix hathr hfin hfmt hfmt' hcfg hcfg' hagree
  obtain ⟨fmt, value, hbytes, hwrites⟩ := encoder_writesValue dr f e he
  have hfin' : inputsFinite e.1 e.2.2 s' := by
    obtain ⟨htile, hkey⟩ := hfin
    exact ⟨fun i c hc => by rw [← hpix]; exact htile i c hc, fun dr' h => by rw [athrFinite, ← hathr]; exact hkey dr' h⟩
  refine ⟨_, _, hwrites.exec cfg s hfmt hfin, hwrites.exec cfg' s' hfmt' hfin', fun k hk => ?_⟩
  rw [State.read_writeFormat hwf, State.read_writeFormat hwf', hcfg, hcfg', hbytes, if_pos hk, if_pos hk,
    hwrites.congr cfg cfg' s s' (hfmt.trans hfmt'.symm) hpix hathr hagree]

end Sys2Proof.Machine
end

section
/-! SUPPORT. The tile of one colour: the grid pass stays on the two grid points around it, with dithering too, a constant grid pass gives the degenerate block, and the statement on the round trip (43_bc123_encode.md R223, R225, R262). -/

namespace Sys2Proof.Machine

open Claims

/-! ### The grid pass on a constant channel (R150, R223) -/

theorem rhu_residual_le (x : ℚ) : |x - rhu x| ≤ 1 / 2 := by
  have hle : (rhu x : ℚ) ≤ x + 1 / 2 := Int.floor_le _
  have hlt : x + 1 / 2 < rhu x + 1 := Int.lt_floor_add_one _
  rw [abs_le]
  constructor <;> linarith

theorem rhu_intCast (k : Int) : rhu k = k := by
  have hfloor : ⌊(k : ℚ) + 1 / 2⌋ = k := by
    rw [Int.floor_eq_iff]
    constructor <;> linarith
  exact hfloor

/-- A number within a half of `x`, `x` no integer, is rounded to the integer below `x` or to that above it. -/
theorem rhu_eq_floor_or_ceil {x y : ℚ} (hy : |y - x| ≤ 1 / 2) (hx : x ≠ ⌊x⌋) : rhu y = ⌊x⌋ ∨ rhu y = ⌈x⌉ := by
  obtain ⟨hlo, hhi⟩ := abs_le.1 hy
  have hfloor : (⌊x⌋ : ℚ) < x := lt_of_le_of_ne (Int.floor_le x) (Ne.symm hx)
  have hceil : ⌈x⌉ = ⌊x⌋ + 1 := by
    rw [Int.ceil_eq_iff]
    push_cast
    exact ⟨by linarith, (Int.lt_floor_add_one x).le⟩
  have hlow : ⌊x⌋ ≤ rhu y := Int.floor_le_floor (by linarith)
  have hnext := Int.lt_floor_add_one x
  have hhigh : ⌊y + 1 / 2⌋ < ⌊x⌋ + 2 := by
    rw [Int.floor_lt]
    push_cast
    linarith
  have hrhu : rhu y < ⌊x⌋ + 2 := hhigh
  omega

/-- The shares a pixel receives sum to at most 1. -/
theorem abs_received_le {d : Nat → ℚ} {e : ℚ} (he : 0 ≤ e) {i : Nat} (hd : ∀ j < i, |d j| ≤ e) : |received d i| ≤ e := by
  have hshare {c : Prop} [Decidable c] {w : ℚ} (hw : 0 ≤ w) {j : Nat} (hj : c → j < i) :
      |if c then w * d j else 0| ≤ w * e := by
    split
    · rw [abs_mul, abs_of_nonneg hw]
      exact mul_le_mul_of_nonneg_left (hd j (hj ‹_›)) hw
    · rw [abs_zero]
      exact mul_nonneg hw he
  rw [received]
  refine (abs_add_le _ _).trans ((add_le_add ((abs_add_le _ _).trans (add_le_add (abs_add_le _ _) le_rfl)) le_rfl).trans ?_)
  have h1 := hshare (c := i % 4 ≠ 0) (w := 7 / 16) (j := i - 1) (by norm_num) (by omega)
  have h2 := hshare (c := 4 ≤ i ∧ i % 4 ≠ 0) (w := 1 / 16) (j := i - 5) (by norm_num) (by omega)
  have h3 := hshare (c := 4 ≤ i) (w := 5 / 16) (j := i - 4) (by norm_num) (by omega)
  have h4 := hshare (c := 4 ≤ i ∧ i % 4 ≠ 3) (w := 3 / 16) (j := i - 3) (by norm_num) (by omega)
  linarith

section Channel

variable {dither : Bool} {n : Nat} {x : ℚ} {v d : Nat → ℚ} (hn : 0 < n)
  (hrun : runsWith dither (fun _ => x) v d) (hd : ∀ i, d i = v i - rhu (v i * n) / n)

include hn hrun hd

/-- On the grid no error arises. -/
theorem residual_eq_zero_of_on_grid {k : Int} (hx : x * n = k) {i : Nat} (hi : i < 16) : v i = x ∧ d i = 0 := by
  have hne : (n : ℚ) ≠ 0 := by positivity
  induction i using Nat.strong_induction_on with
  | _ i ih =>
    have hreceived : received d i = 0 := by
      rw [← abs_nonpos_iff]
      exact abs_received_le le_rfl fun j hj => by simp [ih j hj (hj.trans hi)]
    have hv : v i = x := by
      rw [hrun i hi, hreceived, ite_self, add_zero]
    refine ⟨hv, ?_⟩
    rw [hd, hv, hx, rhu_intCast, ← hx, mul_div_cancel_right₀ x hne, sub_self]

/-- Every value of the grid pass is on one of the two grid points around the input. -/
theorem gridPoint_of_constant {i : Nat} (hi : i < 16) : rhu (v i * n) = ⌊x * n⌋ ∨ rhu (v i * n) = ⌈x * n⌉ := by
  have hpos : (0 : ℚ) < n := by exact_mod_cast hn
  by_cases hx : x * n = ⌊x * n⌋
  · have hv := (residual_eq_zero_of_on_grid hn hrun hd hx hi).1
    rw [hv]
    exact .inl (by rw [hx, rhu_intCast, Int.floor_intCast])
  · have hresidual (j : Nat) : |d j| ≤ 1 / 2 / n := by
      have hscale : d j = (v j * n - rhu (v j * n)) / n := by
        rw [hd, sub_div, mul_div_cancel_right₀ _ hpos.ne']
      rw [hscale, abs_div, abs_of_pos hpos]
      exact div_le_div_of_nonneg_right (rhu_residual_le _) hpos.le
    have hreceived : |if dither = true then received d i else 0| ≤ 1 / 2 / n := by
      split
      · exact abs_received_le (by positivity) fun j _ => hresidual j
      · rw [abs_zero]
        positivity
    refine rhu_eq_floor_or_ceil ?_ hx
    rw [← sub_mul, hrun i hi, add_sub_cancel_left, abs_mul, abs_of_pos hpos]
    exact (le_div_iff₀ hpos).1 hreceived

end Channel

/-! ### The tile -/

/-- The quantiser of the grid pass (R223). -/
def grid565Quantiser (_ : Nat) (v : Rgb) : Rgb × Option Rgb := (grid565 v, some (grid565 v))

theorem gridPass_eq {P : List Rgba} (hP : P.length = 16) (dr : Bool) : gridPass P dr
    = (List.range 16).map fun i => grid565 (running rgbOps dr grid565Quantiser (fun k => (P.map rgbOf).getD k rgbOps.zero) i) :=
  pass_eq_map_running rgbOps dr grid565Quantiser ((List.length_map _).trans hP)

/-- The exact colour of a pixel's words. -/
def pixelRgb (px : Pixel) : Rgb := ⟨val px.r, val px.g, val px.b⟩

theorem colours_of_solid {s : State} {px : Pixel} (h : ∀ i : Fin 16, s.pix[i.val] = px) :
    (s.colours config).map rgbOf = List.replicate 16 (pixelRgb px) := by
  refine List.eq_replicate_iff.2 ⟨(List.length_map _).trans (s.colours_length config), fun c hc => ?_⟩
  obtain ⟨i, hi, rfl⟩ := List.getElem_of_mem hc
  have h16 : i < 16 := by simpa [s.colours_length config] using hi
  rw [List.getElem_map, s.colours_getElem config ⟨i, h16⟩, h]
  rfl

/-- A component is on one of the two points of its grid around `x` (R262). -/
def nearGrid (n : Nat) (x g : ℚ) : Prop := g * n = ⌊x * n⌋ ∨ g * n = ⌈x * n⌉

theorem nearGrid_of_rhu {n : Nat} (hn : 0 < n) {x y : ℚ} (h : rhu y = ⌊x * n⌋ ∨ rhu y = ⌈x * n⌉) :
    nearGrid n x (rhu y / n) := by
  have hne : (n : ℚ) ≠ 0 := by positivity
  rw [nearGrid, div_mul_cancel₀ _ hne]
  exact_mod_cast h

/-- The grid pass of a tile of one colour stays on the grid points around it, channel by channel. -/
theorem gridPass_near {P : List Rgba} {c : Rgb} (hP : P.map rgbOf = List.replicate 16 c) (dr : Bool) :
    ∀ g ∈ gridPass P dr, nearGrid 31 c.r g.r ∧ nearGrid 63 c.g g.g ∧ nearGrid 31 c.b g.b := by
  have hlen : P.length = 16 := by simpa using congrArg List.length hP
  have hinput {φ : Rgb → ℚ} (i : Nat) (hi : i < 16) : φ ((P.map rgbOf).getD i rgbOps.zero) = φ c := by
    rw [hP, List.getD_replicate _ hi]
  intro g hg
  rw [gridPass_eq hlen] at hg
  obtain ⟨i, hi, rfl⟩ := List.mem_map.1 hg
  have h16 := List.mem_range.1 hi
  have hr := runsWith_of_inputs hinput (rgbOps_coordinate_r.runsWith_running grid565Quantiser _ dr)
  have hgreen := runsWith_of_inputs hinput (rgbOps_coordinate_g.runsWith_running grid565Quantiser _ dr)
  have hb := runsWith_of_inputs hinput (rgbOps_coordinate_b.runsWith_running grid565Quantiser _ dr)
  exact ⟨nearGrid_of_rhu (by decide) (gridPoint_of_constant (n := 31) (by decide) hr (fun _ => rfl) h16),
    nearGrid_of_rhu (by decide) (gridPoint_of_constant (n := 63) (by decide) hgreen (fun _ => rfl) h16),
    nearGrid_of_rhu (by decide) (gridPoint_of_constant (n := 31) (by decide) hb (fun _ => rfl) h16)⟩

/-! ### The degenerate block (R161, R225) -/

/-- A component on the 5-6-5 grid of `n` steps. -/
def onGrid (n : Nat) (x : ℚ) : Prop := ∃ k : Nat, k ≤ n ∧ x = k / n

/-- A colour on the 5-6-5 grid. -/
def onGrid565 (g : Rgb) : Prop := onGrid 31 g.r ∧ onGrid 63 g.g ∧ onGrid 31 g.b

theorem onGrid.unit {n : Nat} {x : ℚ} (h : onGrid n x) : 0 ≤ x ∧ x ≤ 1 := by
  obtain ⟨k, hk, rfl⟩ := h
  exact ⟨by positivity, div_le_one_of_le₀ (by exact_mod_cast hk) (by positivity)⟩

theorem onGrid.quant {n : Nat} {x : ℚ} (h : onGrid n x) (hn : 0 < n) :
    (rhu (clampQ x 0 1 * n)).toNat ≤ n ∧ x = ((rhu (clampQ x 0 1 * n)).toNat : ℚ) / n := by
  obtain ⟨hx0, hx1⟩ := h.unit
  obtain ⟨k, hk, rfl⟩ := h
  have hne : (n : ℚ) ≠ 0 := by positivity
  have hclamp : clampQ ((k : ℚ) / n) 0 1 = k / n := by rw [clampQ, max_eq_left hx0, min_eq_left hx1]
  have hround : rhu ((k : ℚ) / n * n) = k := by
    rw [div_mul_cancel₀ _ hne]
    exact_mod_cast rhu_intCast k
  rw [hclamp, hround, Int.toNat_natCast]
  exact ⟨hk, rfl⟩

/-- A colour on the grid is the colour of its word (R142, R143). -/
theorem dec565_enc565 {g : Rgb} (h : onGrid565 g) : dec565 (enc565 g) = g := by
  obtain ⟨hr, hg, hb⟩ := h
  obtain ⟨hr31, hr⟩ := hr.quant (by decide)
  obtain ⟨hg63, hg⟩ := hg.quant (by decide)
  obtain ⟨hb31, hb⟩ := hb.quant (by decide)
  push_cast at hr31 hg63 hb31 hr hg hb
  have hred : enc565 g / 2048 % 32 = (rhu (clampQ g.r 0 1 * 31)).toNat := by
    rw [enc565]
    omega
  have hgreen : enc565 g / 32 % 64 = (rhu (clampQ g.g 0 1 * 63)).toNat := by
    rw [enc565]
    omega
  have hblue : enc565 g % 32 = (rhu (clampQ g.b 0 1 * 31)).toNat := by
    rw [enc565]
    omega
  rw [dec565, hred, hgreen, hblue, ← hr, ← hg, ← hb]

theorem foldl_replicate_fixed {α : Type} (f : α → α → α) {x : α} (h : f x x = x) (n : Nat) :
    (List.replicate n x).foldl f x = x := by
  induction n with
  | zero => rfl
  | succ n ih => rw [List.replicate_succ, List.foldl_cons, h, ih]

/-- Points that are all one colour of the unit cube have that colour for both endpoints: the first exit of the optimizer (R161). -/
theorem optimizeRGB_constant {g : Rgb} (h : onGrid565 g) (steps : Nat) :
    optimizeRGB config (List.replicate 16 g) steps = (g, g) := by
  obtain ⟨hr, hg, hb⟩ := h
  have hmin : cornerMin ⟨1, 1, 1⟩ (List.replicate 16 g) = g := by
    have hfirst : Triple.map₂ min ⟨1, 1, 1⟩ g = g := by
      simp [Triple.map₂, hr.unit.2, hg.unit.2, hb.unit.2]
    rw [cornerMin, List.replicate_succ, List.foldl_cons, hfirst]
    exact foldl_replicate_fixed _ (by simp [Triple.map₂]) 15
  have hmax : cornerMax (List.replicate 16 g) = g := by
    have hfirst : Triple.map₂ max ⟨0, 0, 0⟩ g = g := by
      simp [Triple.map₂, hr.unit.1, hg.unit.1, hb.unit.1]
    rw [cornerMax, List.replicate_succ, List.foldl_cons, hfirst]
    exact foldl_replicate_fixed _ (by simp [Triple.map₂]) 15
  have hdiag : dot3 (rgbOps.sub g g) (rgbOps.sub g g) = 0 := by simp [dot3, rgbOps, Triple.map₂]
  have heps : (0 : ℚ) < config.epsSingle := by norm_num [config]
  rw [optimizeRGB_unit rfl, optimizeAxis]
  simp only [hmin, hmax, hdiag, if_pos heps]

theorem encColour_constant {P : List Rgba} {dr : Bool} {g : Rgb} (h : onGrid565 g) (hgrid : gridPass P dr = List.replicate 16 g)
    (thr : ℚ) : encColour config P dr false thr = colourBlock (enc565 g) (enc565 g) (List.replicate 16 0) := by
  have hsteps : colourSteps P false thr = 4 := if_neg (by simp)
  rw [encColour, if_neg (by simp)]
  simp only [hgrid, optimizeRGB_constant h, hsteps]
  rw [emitColour, if_pos ⟨rfl, rfl⟩]

/-- A tile whose grid pass is one colour of the grid is stored degenerate and decodes to that colour, opaque. -/
theorem roundTrip_of_constant {s : State} {dr : Bool} {g : Rgb} (hwf : s.blk.wf) (hfin : tileFinite s [.r, .g, .b, .a])
    (h : onGrid565 g) (hgrid : gridPass (s.colours config) dr = List.replicate 16 g) :
    ∃ t u, exec (.encBc1 dr false) s = .next t ∧ exec .decBc1 t = .next u ∧ word16 t 0 = word16 t 2
      ∧ (∀ k, 4 ≤ k → k < 8 → t.blk.read k = 0#8) ∧ ∀ i : Fin 16, pixelHolds u i ⟨g.r, g.g, g.b, 1⟩ := by
  obtain ⟨t, hexec, hcolour⟩ := encBc1_writes hwf (inputsFinite_encBc1_no_key hfin dr)
  rw [encColour_constant h hgrid] at hcolour
  have hw0 := State.word16_eq_colour0 (o := 0) (by decide) hcolour (enc565_lt g)
  have hw1 : word16 t 2 = enc565 g := State.word16_eq_colour1 (o := 0) (by decide) hcolour (enc565_lt g)
  refine ⟨t, _, hexec, rfl, hw0.trans hw1.symm, fun k h4 h8 => ?bitmap, fun i => ?pixels⟩
  case bitmap =>
    have hzero : t.blk.readBytes 4 4 = 0 := (State.readBytes_bitmap (o := 0) (by decide) hcolour).trans (by decide)
    have hbyte := Memory.readBytes_byte t.blk 4 (n := 4) (j := k - 4) (by omega)
    rw [hzero, Nat.zero_div, Nat.zero_mod, Nat.add_sub_cancel' h4] at hbyte
    exact BitVec.eq_of_toNat_eq hbyte.symm
  case pixels =>
    have hindex : bitmapIndex t 0 i = 0 := by
      rw [State.bitmapIndex_eq_getD (by decide) hcolour i.isLt, List.getD_replicate _ i.isLt]
    have hpixel : bc1Pixel (t.formatBlock config .bc1) i = ⟨g.r, g.g, g.b, 1⟩ := by
      rw [bc1Pixel_formatBlock, hw0, hw1, hindex, ← entry_bc1Palette (enc565_lt g) (enc565_lt g) (by decide), bc1Palette,
        if_pos le_rfl, dec565_enc565 h]
      rfl
    rw [← hpixel]
    exact pixelHolds_decodeTo t _ i

/-! ### The statement (R262) -/

theorem onGrid_rhu {n : Nat} (hn : 0 < n) {x : ℚ} (h0 : 0 ≤ x) (h1 : x ≤ 1) :
    onGrid n ((rhu (x * n) : ℚ) / n) ∧ |(rhu (x * n) : ℚ) / n - x| ≤ 1 / 2 / n := by
  have hpos : (0 : ℚ) < n := by exact_mod_cast hn
  have hfloor : 0 ≤ ⌊x * n + 1 / 2⌋ := Int.floor_nonneg.2 (by positivity)
  have hnonneg : 0 ≤ rhu (x * n) := hfloor
  have hclamp : clampQ x 0 1 = x := by rw [clampQ, max_eq_left h0, min_eq_left h1]
  have hle := quantUnit_le n x
  rw [hclamp] at hle
  refine ⟨⟨(rhu (x * n)).toNat, hle, ?_⟩, ?_⟩
  · have hcast : (((rhu (x * n)).toNat : Nat) : ℚ) = rhu (x * n) := by exact_mod_cast Int.toNat_of_nonneg hnonneg
    rw [hcast]
  · have hscale : (rhu (x * n) : ℚ) / n - x = -((x * n - rhu (x * n)) / n) := by
      rw [sub_div, mul_div_cancel_right₀ _ hpos.ne', neg_sub]
    rw [hscale, abs_neg, abs_div, abs_of_pos hpos]
    exact div_le_div_of_nonneg_right (rhu_residual_le _) hpos.le

/-- An extreme value of a channel is on the grid, and so is its only grid point. -/
theorem eq_of_nearGrid_extreme {n : Nat} (hn : 0 < n) {x g : ℚ} (hx : x = 0 ∨ x = 1) (h : nearGrid n x g) : g = x := by
  have hne : (n : ℚ) ≠ 0 := by positivity
  have hends : (⌊x * n⌋ : ℚ) = x * n ∧ (⌈x * n⌉ : ℚ) = x * n := by obtain rfl | rfl := hx <;> simp
  rw [nearGrid, hends.1, hends.2, or_self] at h
  exact mul_right_cancel₀ hne h

theorem onGrid_extreme {n : Nat} (hn : 0 < n) {x : ℚ} (hx : x = 0 ∨ x = 1) : onGrid n x := by
  have hne : (n : ℚ) ≠ 0 := by positivity
  obtain rfl | rfl := hx
  · exact ⟨0, n.zero_le, by simp⟩
  · exact ⟨n, le_rfl, by simp [hne]⟩

/-- Without dithering the grid pass of a tile of one colour is the grid point of that colour. -/
theorem gridPass_plain {P : List Rgba} {c : Rgb} (hP : P.map rgbOf = List.replicate 16 c) :
    gridPass P false = List.replicate 16 (grid565 c) := by
  rw [gridPass, pass_plain, hP]
  exact List.ext_getElem (by simp) fun i _ _ => by simp

/-- Settles O46: `gridPass_near`; and `roundTrip_of_constant` for the grid point of the colour, which is the colour itself where every channel is 0 or 1. -/
theorem solidTileRoundTrip : Obligations.SolidTileRoundTrip := by
  intro s px hwf hfin hpx hr0 hr1 hg0 hg1 hb0 hb1
  have hP := colours_of_solid hpx
  refine ⟨?plain, fun dr => ⟨gridPass_near hP dr, fun hextreme => ?extreme⟩⟩
  case plain =>
    obtain ⟨hr, hrnear⟩ := onGrid_rhu (n := 31) (by decide) hr0 hr1
    obtain ⟨hg, hgnear⟩ := onGrid_rhu (n := 63) (by decide) hg0 hg1
    obtain ⟨hb, hbnear⟩ := onGrid_rhu (n := 31) (by decide) hb0 hb1
    obtain ⟨t, u, henc, hdec, horder, hbitmap, hpixels⟩ :=
      roundTrip_of_constant hwf hfin (g := grid565 (pixelRgb px)) ⟨hr, hg, hb⟩ (gridPass_plain hP)
    norm_num at hrnear hgnear hbnear
    exact ⟨t, u, henc, hdec, horder, hbitmap, _, hpixels, rfl, by norm_num; exact hrnear, by norm_num; exact hgnear,
      by norm_num; exact hbnear⟩
  case extreme =>
    have hr := hextreme .r (by simp)
    have hg := hextreme .g (by simp)
    have hb := hextreme .b (by simp)
    have hgrid : gridPass (s.colours config) dr = List.replicate 16 (pixelRgb px) := by
      refine List.eq_replicate_iff.2 ⟨?_, fun g hmem => ?_⟩
      · rw [gridPass, pass_length, List.length_map, s.colours_length config]
      · obtain ⟨hnr, hng, hnb⟩ := gridPass_near hP dr g hmem
        have hger := eq_of_nearGrid_extreme (by decide) hr hnr
        have hgeg := eq_of_nearGrid_extreme (by decide) hg hng
        have hgeb := eq_of_nearGrid_extreme (by decide) hb hnb
        obtain ⟨gr, gg, gb⟩ := g
        subst hger hgeg hgeb
        rfl
    exact roundTrip_of_constant hwf hfin (g := pixelRgb px)
      ⟨onGrid_extreme (by decide) hr, onGrid_extreme (by decide) hg, onGrid_extreme (by decide) hb⟩ hgrid

end Sys2Proof.Machine
end

section
/-! SUPPORT. The fields of a BC7 block: reading them one after the other puts each where the decoder reads it, in every mode (48_bc7.md R442, R443, R446; 49_bc7_tables.md R490, R491). -/

namespace Sys2Proof.Machine

open Claims

/-! ### Fields read in sequence (R443) -/

theorem readFields_append (s : State) (p : Nat) (l l' : List Nat) :
    readFields s p (l ++ l') = readFields s p l ++ readFields s (p + l.sum) l' := by
  induction l generalizing p with
  | nil => rfl
  | cons n rest ih => rw [List.cons_append, readFields, readFields, ih, List.sum_cons, Nat.add_assoc, List.cons_append]

theorem readFields_length (s : State) (p : Nat) (l : List Nat) : (readFields s p l).length = l.length := by
  induction l generalizing p with
  | nil => rfl
  | cons n rest ih => rw [readFields, List.length_cons, ih, List.length_cons]

/-- A field of a segment `ws` of fields stands behind the fields before the segment and those before it in the segment. -/
theorem State.readFields_segment (s : State) {l pre ws rest : List Nat} (hl : pre ++ ws ++ rest = l) (hsum : l.sum = 128)
    {k : Nat} (hk : k < ws.length) :
    (readFields s 0 l).getD (pre.length + k) 0 = fld s.block (pre.sum + (ws.take k).sum) (ws.getD k 0) := by
  have hsplit : l = (pre ++ ws.take k) ++ ws.getD k 0 :: (ws.drop (k + 1) ++ rest) := by
    have hws : ws = ws.take k ++ ws.getD k 0 :: ws.drop (k + 1) := by
      rw [List.getD_eq_getElem _ _ hk, ← List.drop_eq_getElem_cons hk, List.take_append_drop]
    conv_lhs => rw [← hl, hws]
    simp only [List.append_assoc, List.cons_append]
  have hlen : (readFields s 0 (pre ++ ws.take k)).length = pre.length + k := by
    rw [readFields_length, List.length_append, List.length_take, Nat.min_eq_left hk.le]
  rw [hsplit, List.sum_append, List.sum_append, List.sum_cons] at hsum
  rw [hsplit, readFields_append, List.getD_append_right _ _ _ _ hlen.le, hlen, Nat.sub_self, readFields, List.getD_cons_zero,
    Nat.zero_add, List.sum_append, s.bitsAt_eq_fld (by omega)]

/-! ### The widths (R443, R446, R491) -/

theorem isFixup7_eq (M : Mode7) (shape : Nat) : isFixup7 M.ns shape = bc7Fixup M shape := by
  funext i
  rw [Bool.eq_iff_iff]
  simp [isFixup7, bc7Fixup, or_assoc]

theorem sum_indexWidths (ip : Nat) (fix : Nat → Bool) (i : Nat) :
    ((List.range i).map (indexWidth ip fix)).sum = indexPos 0 ip fix i := by
  induction i with
  | zero => rfl
  | succ i ih => rw [List.range_succ, List.map_append, List.sum_append, ih, indexPos, List.map_singleton, List.sum_singleton]

/-- The widths of the mode number, shape, rotation and index mode. -/
def headWidths (M : Mode7) : List Nat := [M.num + 1, M.pb, M.rb, M.ib]

/-- The widths of the endpoint components of channel `ch`. -/
def chanWidths (M : Mode7) (ch : Chan) : List Nat := List.replicate (2 * M.ns) (M.cp.get ch)

/-- The widths of the primary indices. -/
def primaryWidths (M : Mode7) (shape : Nat) : List Nat := (List.range 16).map (indexWidth M.ip (isFixup7 M.ns shape))

/-- The widths of the secondary indices. -/
def secondaryWidths (M : Mode7) : List Nat := if M.ip2 = 0 then [] else (List.range 16).map (indexWidth M.ip2 fun j => j == 0)

/-- The widths in the statement's order, cut where the decoder cuts them. -/
theorem bc7Widths_eq (M : Mode7) (shape : Nat) : bc7Widths M shape = headWidths M ++ chanWidths M .r ++ chanWidths M .g
    ++ chanWidths M .b ++ chanWidths M .a ++ List.replicate M.np 1 ++ primaryWidths M shape ++ secondaryWidths M := by
  have hprimary : (List.range 16).map (fun i => if bc7Fixup M shape i then M.ip - 1 else M.ip) = primaryWidths M shape := by
    rw [primaryWidths, isFixup7_eq]
    rfl
  have hfirst : (fun i => if i = 0 then M.ip2 - 1 else M.ip2) = indexWidth M.ip2 fun j => j == 0 :=
    funext fun i => by simp [indexWidth]
  rw [bc7Widths, hprimary, hfirst]
  rfl

/-- Every region has one fix-up pixel (R385, R493). -/
theorem countP_isFixup7 : ∀ M ∈ modes7, ∀ shape < 2 ^ M.pb, (List.range 16).countP (isFixup7 M.ns shape) = M.ns := by
  decide +kernel

/-- The fields of every mode fill the block (R491). -/
theorem modes7_total : ∀ M ∈ modes7, 1 ≤ M.ip ∧ indexStart7 M + 16 * M.ip + (if M.ip2 = 0 then 0 else 16 * M.ip2 - 1) = 128 + M.ns := by
  decide

theorem primaryWidths_sum {M : Mode7} (hM : M ∈ modes7) {shape : Nat} (hshape : shape < 2 ^ M.pb) :
    (primaryWidths M shape).sum + M.ns = 16 * M.ip := by
  have hpos := indexPos_add_countP M.ip (isFixup7 M.ns shape) (modes7_total M hM).1 0 16
  rw [countP_isFixup7 M hM shape hshape] at hpos
  rw [primaryWidths, sum_indexWidths]
  omega

theorem secondaryWidths_sum (M : Mode7) : (secondaryWidths M).sum = if M.ip2 = 0 then 0 else 16 * M.ip2 - 1 := by
  rw [secondaryWidths]
  split
  · rfl
  · rw [sum_indexWidths]
    have hpos := indexPos_add_countP M.ip2 (fun j => j == 0) (by omega) 0 16
    have hcount : (List.range 16).countP (fun j => j == 0) = 1 := by decide
    omega

theorem headWidths_sum (M : Mode7) : (headWidths M).sum = endpointPos7 M := by
  simp [headWidths, endpointPos7, shapePos7, Nat.add_assoc]

theorem chanWidths_sum (M : Mode7) (ch : Chan) : (chanWidths M ch).sum = ne7 M * M.cp.get ch := by
  simp [chanWidths, ne7]

theorem bc7Widths_sum {M : Mode7} (hM : M ∈ modes7) {shape : Nat} (hshape : shape < 2 ^ M.pb) : (bc7Widths M shape).sum = 128 := by
  have htotal := (modes7_total M hM).2
  have hprimary := primaryWidths_sum hM hshape
  simp only [bc7Widths_eq, List.sum_append, headWidths_sum, chanWidths_sum, secondaryWidths_sum, List.sum_replicate, smul_eq_mul,
    mul_one]
  simp only [indexStart7, cpTotal, Nat.mul_add, Quad.get] at htotal ⊢
  omega

/-! ### The fields (R443, R446) -/

theorem fld_one (b : Block) (p : Nat) : fld b p 1 = bit b p := by
  rw [fld_eq_sum_bits, bit]
  simp

section Fields

variable {M : Mode7} (hM : M ∈ modes7) (s : State)

include hM

theorem bitsAt_shape : bitsAt s (M.num + 1) M.pb = shape7 M s.block := by
  have htotal : ∀ M ∈ modes7, M.num + 1 + M.pb ≤ 128 := by decide
  exact s.bitsAt_eq_fld (htotal M hM)

theorem bc7Field_segment {pre ws rest : List Nat} (hl : pre ++ ws ++ rest = bc7Widths M (shape7 M s.block)) {n k : Nat}
    (hn : pre.length = n) (hk : k < ws.length) :
    bc7Field s M (n + k) = fld s.block (pre.sum + (ws.take k).sum) (ws.getD k 0) := by
  rw [bc7Field, bitsAt_shape hM, ← hn]
  exact s.readFields_segment hl (bc7Widths_sum hM (fld_lt ..)) hk

theorem bc7Field_shape : bc7Field s M 1 = shape7 M s.block :=
  bc7Field_segment hM s (pre := [M.num + 1]) (ws := [M.pb]) (k := 0) (bc7Widths_eq ..).symm rfl Nat.one_pos

theorem bc7Field_rotation : bc7Field s M 2 = rot7 M s.block :=
  bc7Field_segment hM s (pre := [M.num + 1, M.pb]) (ws := [M.rb]) (k := 0) (bc7Widths_eq ..).symm rfl Nat.one_pos

theorem bc7Field_indexMode : bc7Field s M 3 = im7 M s.block :=
  (bc7Field_segment hM s (pre := [M.num + 1, M.pb, M.rb]) (ws := [M.ib]) (k := 0) (bc7Widths_eq ..).symm rfl Nat.one_pos).trans
    (by simp [im7, shapePos7, Nat.add_assoc])

/-- The widths before the components of channel `ch`. -/
def widthsBefore (M : Mode7) : Chan → List Nat
  | .r => headWidths M
  | .g => headWidths M ++ chanWidths M .r
  | .b => headWidths M ++ chanWidths M .r ++ chanWidths M .g
  | .a => headWidths M ++ chanWidths M .r ++ chanWidths M .g ++ chanWidths M .b

omit hM in
theorem widthsBefore_length (ch : Chan) : (widthsBefore M ch).length = 4 + 2 * M.ns * chanNumber ch := by
  cases ch <;> simp [widthsBefore, headWidths, chanWidths, chanNumber] <;> ring

omit hM in
theorem widthsBefore_sum (ch : Chan) : (widthsBefore M ch).sum = endpointPos7 M + ne7 M * cpBefore M ch := by
  cases ch <;> simp [widthsBefore, headWidths_sum, chanWidths_sum, cpBefore, Quad.get] <;> ring

omit hM in
theorem widthsBefore_append (ch : Chan) (shape : Nat) :
    ∃ rest, widthsBefore M ch ++ chanWidths M ch ++ rest = bc7Widths M shape := by
  rw [bc7Widths_eq]
  cases ch <;> simp only [widthsBefore, List.append_assoc, List.append_cancel_left_eq, exists_eq]

/-- A stored endpoint component. -/
theorem bc7Field_raw {e : Nat} (he : e < 2 * M.ns) (ch : Chan) :
    bc7Field s M (4 + 2 * M.ns * chanNumber ch + e) = raw7 M s.block e ch := by
  obtain ⟨rest, hl⟩ := widthsBefore_append (M := M) ch (shape7 M s.block)
  rw [bc7Field_segment hM s hl (widthsBefore_length ch) (by simpa [chanWidths] using he), widthsBefore_sum, raw7, chanWidths,
    List.getD_replicate _ he, List.take_replicate, Nat.min_eq_left he.le, List.sum_replicate, smul_eq_mul]

/-- The widths before the P-bits. -/
def widthsBeforeP (M : Mode7) : List Nat :=
  headWidths M ++ chanWidths M .r ++ chanWidths M .g ++ chanWidths M .b ++ chanWidths M .a

omit hM in
theorem widthsBeforeP_length : (widthsBeforeP M).length = 4 + 4 * (2 * M.ns) := by
  simp [widthsBeforeP, headWidths, chanWidths]
  ring

omit hM in
theorem widthsBeforeP_sum : (widthsBeforeP M).sum = endpointPos7 M + ne7 M * cpTotal M := by
  simp [widthsBeforeP, headWidths_sum, chanWidths_sum, cpTotal, Quad.get]
  ring

/-- A P-bit. -/
theorem bc7Field_pBit {j : Nat} (hj : j < M.np) : bc7Field s M (4 + 4 * (2 * M.ns) + j) = pBit7 M s.block j := by
  rw [bc7Field_segment hM s (pre := widthsBeforeP M) (ws := List.replicate M.np 1) (by
      rw [bc7Widths_eq, widthsBeforeP, List.append_assoc _ (primaryWidths _ _)]) widthsBeforeP_length (by simpa using hj),
    widthsBeforeP_sum, List.getD_replicate _ hj, List.take_replicate, Nat.min_eq_left hj.le, List.sum_replicate, smul_eq_mul,
    mul_one, fld_one, pBit7]

theorem bc7Field_primary {i : Nat} (hi : i < 16) : bc7Field s M (4 + 8 * M.ns + M.np + i) = index7 M s.block i := by
  have hlength : (widthsBeforeP M ++ List.replicate M.np 1).length = 4 + 8 * M.ns + M.np := by
    rw [List.length_append, widthsBeforeP_length, List.length_replicate]
    omega
  have hsum : (widthsBeforeP M ++ List.replicate M.np 1).sum = indexStart7 M := by
    rw [List.sum_append, widthsBeforeP_sum, List.sum_replicate, smul_eq_mul, mul_one, indexStart7]
  rw [bc7Field_segment hM s (pre := widthsBeforeP M ++ List.replicate M.np 1) (ws := primaryWidths M (shape7 M s.block))
    (bc7Widths_eq ..).symm hlength (by simpa [primaryWidths] using hi), hsum, index7, indexAt, indexPos_eq_add]
  rw [primaryWidths, List.getD_eq_getElem _ _ (by simpa using hi), List.getElem_map, List.getElem_range, ← List.map_take,
    List.take_range, Nat.min_eq_left hi.le, sum_indexWidths]

theorem bc7Field_secondary (h : M.ip2 ≠ 0) {i : Nat} (hi : i < 16) :
    bc7Field s M (4 + 8 * M.ns + M.np + 16 + i) = index7b M s.block i := by
  have hshape : shape7 M s.block < 2 ^ M.pb := fld_lt ..
  have hlength : (widthsBeforeP M ++ List.replicate M.np 1 ++ primaryWidths M (shape7 M s.block)).length
      = 4 + 8 * M.ns + M.np + 16 := by
    rw [List.length_append, List.length_append, widthsBeforeP_length, List.length_replicate, primaryWidths, List.length_map,
      List.length_range]
    omega
  have hsum : (widthsBeforeP M ++ List.replicate M.np 1 ++ primaryWidths M (shape7 M s.block)).sum = indexStart7b M := by
    have hprimary := primaryWidths_sum hM hshape
    rw [List.sum_append, List.sum_append, widthsBeforeP_sum, List.sum_replicate, smul_eq_mul, mul_one, indexStart7b, indexStart7]
    omega
  have hsecondary : secondaryWidths M = (List.range 16).map (indexWidth M.ip2 fun j => j == 0) := if_neg h
  rw [bc7Field_segment hM s (pre := widthsBeforeP M ++ List.replicate M.np 1 ++ primaryWidths M (shape7 M s.block))
    (ws := secondaryWidths M) (rest := []) ((List.append_nil _).trans (bc7Widths_eq ..).symm) hlength
    (by simpa [hsecondary] using hi), hsum, index7b, indexAt, indexPos_eq_add, hsecondary,
    List.getD_eq_getElem _ _ (by simpa using hi), List.getElem_map, List.getElem_range, ← List.map_take,
    List.take_range, Nat.min_eq_left hi.le, sum_indexWidths]

end Fields

end Sys2Proof.Machine
end

section
/-! SUPPORT. The colours of a BC7 block: endpoints, weights, interpolation and rotation in the words of the statements, their range, and the statements on DEC.BC7 (48_bc7.md R441 to R448). -/

namespace Sys2Proof.Machine

open Claims

/-! ### The mode (R442) -/

theorem mode7_eq_some_iff {b : Block} {M : Mode7} : mode7 b = some M ↔ ∃ p, firstBit b 0 8 = some p ∧ modes7[p]? = some M := by
  rw [mode7, Option.bind_eq_some_iff]

theorem mem_modes7 {b : Block} {M : Mode7} (h : mode7 b = some M) : M ∈ modes7 := by
  obtain ⟨p, -, hp⟩ := mode7_eq_some_iff.1 h
  exact List.mem_of_getElem? hp

/-- Every first set bit names a mode. -/
theorem mode7_eq_none_iff {b : Block} : mode7 b = none ↔ firstBit b 0 8 = none := by
  constructor
  · intro h
    by_contra hne
    obtain ⟨p, hp⟩ := Option.ne_none_iff_exists'.1 hne
    obtain ⟨-, hlt, -⟩ := firstBit_eq_some_iff.1 hp
    obtain ⟨M, hM, -⟩ := modes7_getElem?_num p hlt
    rw [mode7_eq_some_iff.2 ⟨p, hp, hM⟩] at h
    exact absurd h (by simp)
  · intro h
    rw [mode7, h, Option.bind_none]

theorem State.read_zero_of_mode7_eq_none {s : State} (h : mode7 s.block = none) : s.blk.read 0 = 0#8 := by
  have hzeros := firstBit_eq_none_iff.1 (mode7_eq_none_iff.1 h)
  refine BitVec.eq_of_getLsbD_eq fun q hq => ?_
  have hbit := hzeros q hq
  rwa [s.block_getLsbD (by omega), Nat.div_eq_of_lt hq, Nat.mod_eq_of_lt hq, ← BitVec.getLsbD_zero (w := 8) (i := q)] at hbit

/-- The number of the mode is that of the zeros below the first set bit of the first byte. -/
theorem State.read_zero_of_mode7 {s : State} {M : Mode7} (h : mode7 s.block = some M) :
    (s.blk.read 0).toNat % 2 ^ (M.num + 1) = 2 ^ M.num := by
  obtain ⟨p, hp, hM⟩ := mode7_eq_some_iff.1 h
  obtain ⟨hone, hlt, hzeros⟩ := firstBit_eq_some_iff.1 hp
  obtain ⟨M', hM', hnum⟩ := modes7_getElem?_num p hlt
  obtain rfl : M' = M := Option.some.inj (hM'.symm.trans hM)
  have hbit {q : Nat} (hq : q < 8) : (s.blk.read 0).toNat.testBit q = s.block.getLsbD q := by
    rw [s.block_getLsbD (by omega), Nat.div_eq_of_lt hq, Nat.mod_eq_of_lt hq, BitVec.getLsbD]
  refine Nat.eq_of_testBit_eq fun q => ?_
  rw [Nat.testBit_mod_two_pow, Nat.testBit_two_pow, hnum]
  obtain hq | rfl | hq := Nat.lt_trichotomy q p
  · rw [hbit (by omega), hzeros q hq]
    simp [hq.ne']
  · rw [hbit hlt, hone]
    simp
  · simp [hq.ne, show ¬ q < p + 1 by omega]

/-! ### The endpoints (R444, R445) -/

/-- The precisions of the modes (R490): at most 8 bits; with a P-bit one bit more than is stored. -/
theorem modes7_precision (ch : Chan) : ∀ M ∈ modes7, M.cpp.get ch ≤ 8
    ∧ (M.cpp.get ch ≠ M.cp.get ch → 0 < M.np ∧ M.cpp.get ch = M.cp.get ch + 1) := by
  cases ch <;> decide

/-- Bit replication: the bits repeated below fill the place that the shift leaves. -/
theorem unquant7_eq {v n : Nat} (hv : v < 2 ^ n) (h8 : n ≤ 8) :
    v * 2 ^ (8 - n) + v * 2 ^ (8 - n) / 2 ^ n = unquant7 v n ∧ unquant7 v n ≤ 255 := by
  have hlow : v * 2 ^ (8 - n) / 2 ^ n < 2 ^ (8 - n) := by
    rw [Nat.div_lt_iff_lt_mul (by positivity), Nat.mul_comm]
    exact Nat.mul_lt_mul_of_pos_left hv (by positivity)
  have hsum : v * 2 ^ (8 - n) + v * 2 ^ (8 - n) / 2 ^ n < 256 := by
    have hpow : 2 ^ n * 2 ^ (8 - n) = 256 := by
      rw [← pow_add, Nat.add_sub_cancel' h8]
      rfl
    have hstep : (v + 1) * 2 ^ (8 - n) ≤ 2 ^ n * 2 ^ (8 - n) := Nat.mul_le_mul_right _ hv
    rw [Nat.succ_mul] at hstep
    omega
  have heq : v * 2 ^ (8 - n) + v * 2 ^ (8 - n) / 2 ^ n = unquant7 v n := by
    have hor := Nat.shiftLeft_add_eq_or_of_lt hlow v
    rw [Nat.shiftLeft_eq] at hor
    rw [unquant7, Nat.shiftRight_eq_div_pow, Nat.shiftLeft_eq, ← hor, Nat.mod_eq_of_lt hsum]
  exact ⟨heq, by omega⟩

theorem bit_lt_two (b : Block) (p : Nat) : bit b p < 2 := by
  rw [bit]
  split <;> decide

section Colours

variable {M : Mode7} (hM : M ∈ modes7)

include hM

theorem withPBit7_lt (b : Block) (e : Nat) (ch : Chan) : withPBit7 M b e ch < 2 ^ M.cpp.get ch := by
  have hraw : raw7 M b e ch < 2 ^ M.cp.get ch := fld_lt ..
  by_cases heq : M.cpp.get ch = M.cp.get ch
  · rw [withPBit7, if_neg fun h => h.2 heq, heq]
    exact hraw
  · obtain ⟨hnp, hone⟩ := (modes7_precision ch M hM).2 heq
    have hbit : pBit7 M b (e * M.np / ne7 M) < 2 := bit_lt_two ..
    rw [withPBit7, if_pos ⟨hnp, heq⟩, hone, pow_succ]
    omega

theorem endpoint7_le (b : Block) (e : Nat) (ch : Chan) : endpoint7 M b e ch ≤ 255 := by
  rw [endpoint7]
  split
  · exact le_rfl
  · exact (unquant7_eq (withPBit7_lt hM b e ch) (modes7_precision ch M hM).1).2

variable (s : State)

theorem bc7Endpoint_eq {e : Nat} (he : e < 2 * M.ns) (ch : Chan) : bc7Endpoint s M e ch = endpoint7 M s.block e ch := by
  have hvalue : (if M.cpp.get ch = M.cp.get ch then raw7 M s.block e ch
      else 2 * raw7 M s.block e ch + bc7Field s M (4 + 4 * (2 * M.ns) + e * M.np / (2 * M.ns))) = withPBit7 M s.block e ch := by
    by_cases heq : M.cpp.get ch = M.cp.get ch
    · rw [if_pos heq, withPBit7, if_neg fun h => h.2 heq]
    · obtain ⟨hnp, -⟩ := (modes7_precision ch M hM).2 heq
      have hj : e * M.np / (2 * M.ns) < M.np := by
        rw [Nat.div_lt_iff_lt_mul (by omega), Nat.mul_comm]
        exact Nat.mul_lt_mul_of_pos_left he hnp
      rw [if_neg heq, bc7Field_pBit hM s hj, withPBit7, if_pos ⟨hnp, heq⟩, ne7]
  simp only [bc7Endpoint, bc7Field_raw hM s he, hvalue, endpoint7]
  split
  · rfl
  · exact (unquant7_eq (withPBit7_lt hM s.block e ch) (modes7_precision ch M hM).1).1

/-! ### The pixel (R446, R447) -/

omit hM in
/-- Every region is one of the mode's (R384, R492). -/
theorem region7_lt : ∀ M ∈ modes7, ∀ shape < 2 ^ M.pb, ∀ i < 16, region7 M.ns shape i < M.ns := by
  decide +kernel

omit hM in
theorem interp7_le {A B w : Nat} (hA : A ≤ 255) (hB : B ≤ 255) (hw : w ≤ 64) : interp7 A B w ≤ 255 := by
  have hleft : A * (64 - w) ≤ 255 * (64 - w) := Nat.mul_le_mul_right _ hA
  have hright : B * w ≤ 255 * w := Nat.mul_le_mul_right _ hB
  rw [interp7]
  omega

omit hM in
theorem interp7_self {A w : Nat} (hw : w ≤ 64) : interp7 A A w = A := by
  rw [interp7, ← Nat.mul_add, Nat.sub_add_cancel hw]
  omega

omit hM in
theorem weights7_le (b : Block) (i : Nat) : (weights7 M b i).1 ≤ 64 ∧ (weights7 M b i).2 ≤ 64 := by
  simp only [weights7]
  split_ifs <;> exact ⟨weight_le .., weight_le ..⟩

/-- The four channels before the rotation. -/
def mixed7 (M : Mode7) (b : Block) (i : Nat) : LdrColor :=
  let e := 2 * region7 M.ns (shape7 M b) i
  let w := weights7 M b i
  ⟨interp7 (endpoint7 M b e .r) (endpoint7 M b (e + 1) .r) w.1, interp7 (endpoint7 M b e .g) (endpoint7 M b (e + 1) .g) w.1,
    interp7 (endpoint7 M b e .b) (endpoint7 M b (e + 1) .b) w.1, interp7 (endpoint7 M b e .a) (endpoint7 M b (e + 1) .a) w.2⟩

omit hM in
theorem pixelLdr7_eq (b : Block) (i : Nat) : pixelLdr7 M b i = rotate7 (rot7 M b) (mixed7 M b i) := rfl

theorem mixed7_le (b : Block) (i : Nat) (ch : Chan) : (mixed7 M b i).get ch ≤ 255 := by
  obtain ⟨h1, h2⟩ := weights7_le (M := M) b i
  cases ch <;> exact interp7_le (endpoint7_le hM ..) (endpoint7_le hM ..) (by assumption)

omit hM in
/-- A rotation changes channels about. -/
theorem rotate7_le {c : LdrColor} (h : ∀ ch, c.get ch ≤ 255) (rot : Nat) (ch : Chan) : (rotate7 rot c).get ch ≤ 255 := by
  have hr := h .r
  have hg := h .g
  have hb := h .b
  have ha := h .a
  rw [rotate7]
  split_ifs <;> cases ch <;> assumption

omit hM in
theorem rotate7_eq (rot r g b a : Nat) : rotate7 rot ⟨r, g, b, a⟩ = ⟨if rot = 1 then a else r, if rot = 2 then a else g,
    if rot = 3 then a else b, if rot = 1 then r else if rot = 2 then g else if rot = 3 then b else a⟩ := by
  rw [rotate7]
  split_ifs with h1 h2 h3 <;> simp_all

/-- The weights of colour and of alpha in the words of the statement. -/
def bc7Weights (s : State) (M : Mode7) (i : Nat) : Nat × Nat :=
  let w1 := weightFor M.ip (bc7Field s M (4 + 8 * M.ns + M.np + i))
  let w2 := if M.ip2 = 0 then w1 else weightFor M.ip2 (bc7Field s M (4 + 8 * M.ns + M.np + 16 + i))
  if bc7Field s M 3 = 1 then (w2, w1) else (w1, w2)

theorem bc7Weights_eq {i : Nat} (hi : i < 16) : bc7Weights s M i = weights7 M s.block i := by
  have hbits : ∀ M ∈ modes7, M.ib ≤ 1 := by decide
  have himode : im7 M s.block < 2 := (fld_lt ..).trans_le (Nat.pow_le_pow_right (by decide) (hbits M hM))
  simp only [bc7Weights, weights7, weightFor_eq, bc7Field_primary hM s hi, bc7Field_indexMode hM]
  by_cases hip2 : M.ip2 = 0
  · simp only [if_pos hip2, ite_self]
  · simp only [if_neg hip2, bc7Field_secondary hM s hip2 hi]
    obtain h | h : im7 M s.block = 0 ∨ im7 M s.block = 1 := by omega
    · rw [h, if_neg (by decide), if_pos rfl]
    · rw [h, if_pos rfl, if_neg (by decide)]

/-- The colour of the statement is the model's, field by field. -/
theorem bc7Colour_eq {i : Nat} (hi : i < 16) : bc7Colour s M i = pixelLdr7 M s.block i := by
  have hshape : shape7 M s.block < 2 ^ M.pb := fld_lt ..
  have hregion := region7_lt M hM _ hshape i hi
  have hA (ch : Chan) : bc7Endpoint s M (2 * region7 M.ns (shape7 M s.block) i) ch
      = endpoint7 M s.block (2 * region7 M.ns (shape7 M s.block) i) ch := bc7Endpoint_eq hM s (by omega) ch
  have hB (ch : Chan) : bc7Endpoint s M (2 * region7 M.ns (shape7 M s.block) i + 1) ch
      = endpoint7 M s.block (2 * region7 M.ns (shape7 M s.block) i + 1) ch := bc7Endpoint_eq hM s (by omega) ch
  have hwords : (if M.ns = 2 then region2 (shape7 M s.block) i else if M.ns = 3 then region3 (shape7 M s.block) i else 0)
      = region7 M.ns (shape7 M s.block) i := rfl
  rw [pixelLdr7_eq, mixed7, ← bc7Weights_eq hM s hi, bc7Weights, rotate7_eq]
  simp only [bc7Colour, bc7Field_shape hM, bc7Field_rotation hM, hwords, hA, hB, interp7, apply_ite Prod.fst, apply_ite Prod.snd]

end Colours

theorem bc7Ldr_of_mode {b : Block} {M : Mode7} (h : mode7 b = some M) (i : Nat) : bc7Ldr b i = pixelLdr7 M b i := by
  simp only [bc7Ldr, h]

theorem pixelLdr7_le {M : Mode7} (hM : M ∈ modes7) (b : Block) (i : Nat) (ch : Chan) : (pixelLdr7 M b i).get ch ≤ 255 := by
  rw [pixelLdr7_eq]
  exact rotate7_le (mixed7_le hM b i) _ ch

/-- Settles O38: a block without a mode is the zero byte's; in a mode the colour is the statement's by `bc7Colour_eq`, and the port gets it over 255. -/
theorem bc7PixelsAreInterpolatedAndRotated : Obligations.Bc7PixelsAreInterpolatedAndRotated := by
  intro s
  refine ⟨_, exec_decBc7 s, decodeTo_frame .., ?_⟩
  have hholds (i : Fin 16) := pixelHolds_decodeTo s (bc7Pixel s.block) i
  cases hmode : mode7 s.block with
  | none =>
    refine .inl ⟨s.read_zero_of_mode7_eq_none hmode, fun i => ⟨?_, bc7Ldr_of_reserved hmode i⟩⟩
    rw [← bc7Pixel_of_reserved hmode i]
    exact hholds i
  | some M =>
    have hM := mem_modes7 hmode
    refine .inr ⟨M, hM, State.read_zero_of_mode7 hmode, ?_, fun i => ?_⟩
    · rw [bitsAt_shape hM]
      exact bc7Widths_sum hM (fld_lt ..)
    · have hcolour : bc7Ldr s.block i = bc7Colour s M i := (bc7Ldr_of_mode hmode i).trans (bc7Colour_eq hM s i.isLt).symm
      have hle (ch : Chan) : (bc7Colour s M i).get ch ≤ 255 := by
        rw [bc7Colour_eq hM s i.isLt]
        exact pixelLdr7_le hM s.block i ch
      refine ⟨_, rfl, hcolour, hle .r, hle .g, hle .b, hle .a, ?_⟩
      rw [← hcolour]
      exact hholds i

/-- Modes 0 to 3 have no rotation, no alpha and one set of indices (R490). -/
theorem modes7_without_alpha : ∀ M ∈ modes7, M.num < 4 → M.rb = 0 ∧ M.cpp.a = 0 := by
  decide

/-- Settles O39: without alpha both endpoints have alpha 255, and the mode has no rotation. -/
theorem bc7ModesWithoutAlphaAreOpaque : Obligations.Bc7ModesWithoutAlphaAreOpaque := by
  intro M b i hmode hnum
  obtain ⟨hrb, halpha⟩ := modes7_without_alpha M (mem_modes7 hmode) hnum
  have hrot : rot7 M b = 0 := by rw [rot7, hrb, fld_zero_width]
  have hendpoint (e : Nat) : endpoint7 M b e .a = 255 := if_pos halpha
  have hw : (weights7 M b i).2 ≤ 64 := (weights7_le b i).2
  rw [bc7Ldr_of_mode hmode, pixelLdr7_eq, hrot]
  show interp7 (endpoint7 M b _ .a) (endpoint7 M b _ .a) (weights7 M b i).2 = 255
  rw [hendpoint, hendpoint, interp7_self hw]

end Sys2Proof.Machine
end
